-- ==== Sys2Proof/Word.lean ====
section
/-! DEFINITION. The word types of the HSP: bytes, 32-bit words, 256-bit scalars (R30, R33, R9). -/

namespace Sys2Proof

/-- A byte of DMEM, or an 8-bit field (R56, R35). -/
abbrev Byte := BitVec 8

/-- A 32-bit word: a general register, an instruction word, a CSR (R30, R130, R40). -/
abbrev Word := BitVec 32

/-- A scalar register's value: an unsigned integer below 2^256 (R33). -/
abbrev Scalar := BitVec 256

end Sys2Proof
end

