-- ==== Sys2Proof/Syntax.lean ====
section
/-! DEFINITION. The abstract syntax of HSP-ISA version 1: one constructor of `Instr` per row of the opcode table (R140). -/

namespace Sys2Proof

/-- A general register number, R0..R15 (R30, R134). -/
abbrev RReg := Fin 16

/-- A scalar register number, K0..K7 (R33, R137). -/
abbrev KReg := Fin 8

/-- The condition of a flag branch (R138): the flag it tests. -/
inductive Cond where
  | z | c | lt | v | e
  deriving DecidableEq, Repr

/-- The 36 instructions of R140, operands in the order of the assembler form. A 16-bit immediate is the field
`imm16` as it stands in the word; the instruction's rule says how it is read (R135). -/
inductive Instr where
  /-- R200 -/
  | lui (rd : RReg) (imm : BitVec 16)
  /-- R201 -/
  | ori (rd rs : RReg) (imm : BitVec 16)
  /-- R202 -/
  | addi (rd rs : RReg) (imm : BitVec 16)
  /-- R203 -/
  | add (rd rs1 rs2 : RReg)
  /-- R204 -/
  | sub (rd rs1 rs2 : RReg)
  /-- R210 -/
  | lb (rd rb : RReg) (off : BitVec 16)
  /-- R211 -/
  | lw (rd rb : RReg) (off : BitVec 16)
  /-- R212 -/
  | sb (rt rb : RReg) (off : BitVec 16)
  /-- R213 -/
  | sw (rt rb : RReg) (off : BitVec 16)
  /-- R214 -/
  | mcpy (rd rs rl : RReg)
  /-- R242 -/
  | beq (rs1 rs2 : RReg) (off : BitVec 16)
  /-- R243 -/
  | bne (rs1 rs2 : RReg) (off : BitVec 16)
  /-- R244 -/
  | bltu (rs1 rs2 : RReg) (off : BitVec 16)
  /-- R245 -/
  | bgeu (rs1 rs2 : RReg) (off : BitVec 16)
  /-- R246 -/
  | bfs (cond : Cond) (off : BitVec 16)
  /-- R247 -/
  | bfc (cond : Cond) (off : BitVec 16)
  /-- R249 -/
  | halt (rs : RReg)
  /-- R250; legal when the upper byte of `imm` is 0 (R141 item 6) -/
  | seterr (imm : BitVec 16)
  /-- R252; legal when `csr` ≤ 13 (R141 item 7) -/
  | csrr (rd : RReg) (csr : BitVec 16)
  /-- R350 -/
  | kld (kd : KReg) (rb : RReg) (off : BitVec 16)
  /-- R351 -/
  | kst (ks : KReg) (rb : RReg) (off : BitVec 16)
  /-- R352 -/
  | kmov (kd ks : KReg)
  /-- R356; legal when `sel` ≤ 1 (R141 item 8) -/
  | kldc (kd : KReg) (sel : BitVec 16)
  /-- R357 -/
  | kadd (kd ka kb : KReg)
  /-- R358 -/
  | kaddm (kd ka kb : KReg)
  /-- R359 -/
  | kcmp (ka kb : KReg)
  /-- R360 -/
  | kchk (ka : KReg)
  /-- R361 -/
  | kred (kd ka : KReg)
  /-- R330 -/
  | sha256 (rd rs rl : RReg)
  /-- R331 -/
  | sha512 (rd rs rl : RReg)
  /-- R332 -/
  | hmac512 (rd rk rkl rm rml : RReg)
  /-- R333 -/
  | pbkdf2 (rd rp rpl rs rsl rc : RReg)
  /-- R405 -/
  | b39enc (rd rs rl : RReg)
  /-- R406 -/
  | b39dec (rd rs rw : RReg)
  /-- R452 -/
  | entropy (rd rl : RReg)
  /-- R454 -/
  | pubk (rd : RReg) (ks : KReg)
  deriving DecidableEq, Repr

end Sys2Proof
end

