-- ==== Sys2Proof/WellFormed.lean ====
section
/-! DEFINITION. Which terms of `Instr` are legal instructions: the operand conditions of R141 that the types of the
operands do not already hold (register and condition numbers are legal by type, R137 and R138). -/

namespace Sys2Proof

/-- R141 items 6 to 8: `SETERR`'s `imm16[15:8]` is 0, `CSRR`'s number is at most 13, `KLDC`'s selector at most 1. -/
def Instr.wellFormed : Instr → Bool
  | .seterr imm => imm.extractLsb' 8 8 == 0#8
  | .csrr _ csr => decide (csr.toNat ≤ 13)
  | .kldc _ sel => decide (sel.toNat ≤ 1)
  | .lui _ _ | .ori _ _ _ | .addi _ _ _ | .add _ _ _ | .sub _ _ _
  | .lb _ _ _ | .lw _ _ _ | .sb _ _ _ | .sw _ _ _ | .mcpy _ _ _
  | .beq _ _ _ | .bne _ _ _ | .bltu _ _ _ | .bgeu _ _ _ | .bfs _ _ | .bfc _ _ | .halt _
  | .kld _ _ _ | .kst _ _ _ | .kmov _ _ | .kadd _ _ _ | .kaddm _ _ _ | .kcmp _ _ | .kchk _ | .kred _ _
  | .sha256 _ _ _ | .sha512 _ _ _ | .hmac512 _ _ _ _ _ | .pbkdf2 _ _ _ _ _ _
  | .b39enc _ _ _ | .b39dec _ _ _ | .entropy _ _ | .pubk _ _ => true

end Sys2Proof
end

