-- ==== Sys2Proof/Decode.lean ====
section
/-! DEFINITION. The decoder of HSP-ISA version 1, total on every 32-bit word (R130 to R142), the encoder written from
the same tables, and the host's reading of a table row's word. -/

namespace Sys2Proof

/-- Why a word is illegal: the conditions of R141 by name. -/
inductive Illegal where
  /-- item 1: the opcode is unassigned -/
  | unassignedOpcode
  /-- items 2 and 3: a must-be-zero bit or an unused field is not zero -/
  | nonzeroUnusedBits
  /-- item 4: a scalar field holds 8..15 -/
  | scalarField
  /-- item 5: the condition number is 5..15 -/
  | conditionNumber
  /-- item 6: `SETERR` with `imm16[15:8]` not zero -/
  | errorCode
  /-- item 7: `CSRR` of a number above 13 -/
  | csrNumber
  /-- item 8: `KLDC` of a selector above 1 -/
  | constantSelector
  deriving DecidableEq, Repr

/-! ## Fields (R131 to R134) -/

/-- `w[31:26]` (R131). -/
def opcode (w : Word) : BitVec 6 := w.extractLsb' 26 6

/-- `A = w[25:22]` (R134). -/
def fieldA (w : Word) : BitVec 4 := w.extractLsb' 22 4

/-- `B = w[21:18]` (R134). -/
def fieldB (w : Word) : BitVec 4 := w.extractLsb' 18 4

/-- `C = w[17:14]`, format R (R134). -/
def fieldC (w : Word) : BitVec 4 := w.extractLsb' 14 4

/-- `D = w[13:10]`, format R (R134). -/
def fieldD (w : Word) : BitVec 4 := w.extractLsb' 10 4

/-- `E = w[9:6]`, format R (R134). -/
def fieldE (w : Word) : BitVec 4 := w.extractLsb' 6 4

/-- `F = w[5:2]`, format R (R134). -/
def fieldF (w : Word) : BitVec 4 := w.extractLsb' 2 4

/-- `imm16 = w[15:0]`, format I (R134). -/
def imm16 (w : Word) : BitVec 16 := w.extractLsb' 0 16

/-- A register field names R0..R15 (R134). -/
def asReg (f : BitVec 4) : RReg := ⟨f.toNat, f.isLt⟩

/-- A scalar field must hold 0..7 (R137). -/
def asScalar (f : BitVec 4) : Except Illegal KReg :=
  if h : f.toNat < 8 then .ok ⟨f.toNat, h⟩ else .error .scalarField

/-- The condition numbers of R138. -/
def asCond (f : BitVec 4) : Except Illegal Cond :=
  if f = 0#4 then .ok .z
  else if f = 1#4 then .ok .c
  else if f = 2#4 then .ok .lt
  else if f = 3#4 then .ok .v
  else if f = 4#4 then .ok .e
  else .error .conditionNumber

/-- The `len` bits of `w` from bit `lo` must be 0 (R132, R133, R136). -/
def mustBeZero (w : Word) (lo len : Nat) : Except Illegal Unit :=
  if w.extractLsb' lo len = 0#len then .ok () else .error .nonzeroUnusedBits

/-- A condition of the opcode's own rule (R141 items 6 to 8). -/
def legalIf (i : Instr) (why : Illegal) : Except Illegal Instr :=
  if i.wellFormed then .ok i else .error why

/-! ## Formats (R132, R133, R136): the bits of each format that must be zero, by its used fields -/

/-- Format I with fields A, B and imm16. -/
def formatAB (w : Word) (k : RReg → RReg → BitVec 16 → Instr) : Except Illegal Instr := do
  mustBeZero w 16 2
  return k (asReg (fieldA w)) (asReg (fieldB w)) (imm16 w)

/-- Format I with a scalar field A, a register field B and imm16. -/
def formatKB (w : Word) (k : KReg → RReg → BitVec 16 → Instr) : Except Illegal Instr := do
  mustBeZero w 16 2
  let a ← asScalar (fieldA w)
  return k a (asReg (fieldB w)) (imm16 w)

/-- Format I with a condition in field A, and imm16; B unused. -/
def formatCond (w : Word) (k : Cond → BitVec 16 → Instr) : Except Illegal Instr := do
  mustBeZero w 16 6
  let cond ← asCond (fieldA w)
  return k cond (imm16 w)

/-- Format R with register fields A, B and C. -/
def formatABC (w : Word) (k : RReg → RReg → RReg → Instr) : Except Illegal Instr := do
  mustBeZero w 0 14
  return k (asReg (fieldA w)) (asReg (fieldB w)) (asReg (fieldC w))

/-- Format R with scalar fields A, B and C. -/
def formatKKK (w : Word) (k : KReg → KReg → KReg → Instr) : Except Illegal Instr := do
  mustBeZero w 0 14
  let a ← asScalar (fieldA w)
  let b ← asScalar (fieldB w)
  let c ← asScalar (fieldC w)
  return k a b c

/-- Format R with scalar fields A and B. -/
def formatKK (w : Word) (k : KReg → KReg → Instr) : Except Illegal Instr := do
  mustBeZero w 0 18
  let a ← asScalar (fieldA w)
  let b ← asScalar (fieldB w)
  return k a b

/-- The instruction a word encodes, or why it is illegal (R140, R141). The opcode alone selects the row (R131). -/
def decode (w : Word) : Except Illegal Instr :=
  match opcode w with
  | 0x01#6 => do mustBeZero w 16 6; return .lui (asReg (fieldA w)) (imm16 w)
  | 0x02#6 => formatAB w .ori
  | 0x03#6 => formatAB w .addi
  | 0x04#6 => formatABC w .add
  | 0x05#6 => formatABC w .sub
  | 0x08#6 => formatAB w .lb
  | 0x09#6 => formatAB w .lw
  | 0x0A#6 => formatAB w .sb
  | 0x0B#6 => formatAB w .sw
  | 0x0C#6 => formatABC w .mcpy
  | 0x10#6 => formatAB w .beq
  | 0x11#6 => formatAB w .bne
  | 0x12#6 => formatAB w .bltu
  | 0x13#6 => formatAB w .bgeu
  | 0x14#6 => formatCond w .bfs
  | 0x15#6 => formatCond w .bfc
  | 0x18#6 => do mustBeZero w 0 22; return .halt (asReg (fieldA w))
  | 0x19#6 => do mustBeZero w 16 10; legalIf (.seterr (imm16 w)) .errorCode
  | 0x1A#6 => do mustBeZero w 16 6; legalIf (.csrr (asReg (fieldA w)) (imm16 w)) .csrNumber
  | 0x20#6 => formatKB w .kld
  | 0x21#6 => formatKB w .kst
  | 0x22#6 => formatKK w .kmov
  | 0x23#6 => do
    mustBeZero w 16 6
    let a ← asScalar (fieldA w)
    legalIf (.kldc a (imm16 w)) .constantSelector
  | 0x24#6 => formatKKK w .kadd
  | 0x25#6 => formatKKK w .kaddm
  | 0x26#6 => formatKK w .kcmp
  | 0x27#6 => do mustBeZero w 0 22; let a ← asScalar (fieldA w); return .kchk a
  | 0x28#6 => formatKK w .kred
  | 0x30#6 => formatABC w .sha256
  | 0x31#6 => formatABC w .sha512
  | 0x32#6 => do
    mustBeZero w 0 6
    return .hmac512 (asReg (fieldA w)) (asReg (fieldB w)) (asReg (fieldC w)) (asReg (fieldD w)) (asReg (fieldE w))
  | 0x33#6 => do
    mustBeZero w 0 2
    return .pbkdf2 (asReg (fieldA w)) (asReg (fieldB w)) (asReg (fieldC w)) (asReg (fieldD w)) (asReg (fieldE w))
      (asReg (fieldF w))
  | 0x38#6 => formatABC w .b39enc
  | 0x39#6 => formatABC w .b39dec
  | 0x3C#6 => do mustBeZero w 0 18; return .entropy (asReg (fieldA w)) (asReg (fieldB w))
  | 0x3D#6 => do
    mustBeZero w 0 18
    let k ← asScalar (fieldB w)
    return .pubk (asReg (fieldA w)) k
  | _ => .error .unassignedOpcode

/-! ## The encoder -/

/-- A register number as a field. -/
def regField (r : RReg) : BitVec 4 := BitVec.ofNat 4 r.val

/-- A scalar register number as a field (R137). -/
def scalarField (k : KReg) : BitVec 4 := BitVec.ofNat 4 k.val

/-- A condition as a field (R138). -/
def condField : Cond → BitVec 4
  | .z => 0#4 | .c => 1#4 | .lt => 2#4 | .v => 3#4 | .e => 4#4

/-- A word of format R (R132). -/
def wordR (op : BitVec 6) (a b c d e f : BitVec 4) : Word := op ++ a ++ b ++ c ++ d ++ e ++ f ++ 0#2

/-- A word of format I (R133). -/
def wordI (op : BitVec 6) (a b : BitVec 4) (imm : BitVec 16) : Word := op ++ a ++ b ++ 0#2 ++ imm

/-- The one word of an instruction (R136, R140). -/
def encode : Instr → Word
  | .lui rd imm => wordI 0x01#6 (regField rd) 0#4 imm
  | .ori rd rs imm => wordI 0x02#6 (regField rd) (regField rs) imm
  | .addi rd rs imm => wordI 0x03#6 (regField rd) (regField rs) imm
  | .add rd rs1 rs2 => wordR 0x04#6 (regField rd) (regField rs1) (regField rs2) 0#4 0#4 0#4
  | .sub rd rs1 rs2 => wordR 0x05#6 (regField rd) (regField rs1) (regField rs2) 0#4 0#4 0#4
  | .lb rd rb off => wordI 0x08#6 (regField rd) (regField rb) off
  | .lw rd rb off => wordI 0x09#6 (regField rd) (regField rb) off
  | .sb rt rb off => wordI 0x0A#6 (regField rt) (regField rb) off
  | .sw rt rb off => wordI 0x0B#6 (regField rt) (regField rb) off
  | .mcpy rd rs rl => wordR 0x0C#6 (regField rd) (regField rs) (regField rl) 0#4 0#4 0#4
  | .beq rs1 rs2 off => wordI 0x10#6 (regField rs1) (regField rs2) off
  | .bne rs1 rs2 off => wordI 0x11#6 (regField rs1) (regField rs2) off
  | .bltu rs1 rs2 off => wordI 0x12#6 (regField rs1) (regField rs2) off
  | .bgeu rs1 rs2 off => wordI 0x13#6 (regField rs1) (regField rs2) off
  | .bfs cond off => wordI 0x14#6 (condField cond) 0#4 off
  | .bfc cond off => wordI 0x15#6 (condField cond) 0#4 off
  | .halt rs => wordR 0x18#6 (regField rs) 0#4 0#4 0#4 0#4 0#4
  | .seterr imm => wordI 0x19#6 0#4 0#4 imm
  | .csrr rd csr => wordI 0x1A#6 (regField rd) 0#4 csr
  | .kld kd rb off => wordI 0x20#6 (scalarField kd) (regField rb) off
  | .kst ks rb off => wordI 0x21#6 (scalarField ks) (regField rb) off
  | .kmov kd ks => wordR 0x22#6 (scalarField kd) (scalarField ks) 0#4 0#4 0#4 0#4
  | .kldc kd sel => wordI 0x23#6 (scalarField kd) 0#4 sel
  | .kadd kd ka kb => wordR 0x24#6 (scalarField kd) (scalarField ka) (scalarField kb) 0#4 0#4 0#4
  | .kaddm kd ka kb => wordR 0x25#6 (scalarField kd) (scalarField ka) (scalarField kb) 0#4 0#4 0#4
  | .kcmp ka kb => wordR 0x26#6 (scalarField ka) (scalarField kb) 0#4 0#4 0#4 0#4
  | .kchk ka => wordR 0x27#6 (scalarField ka) 0#4 0#4 0#4 0#4 0#4
  | .kred kd ka => wordR 0x28#6 (scalarField kd) (scalarField ka) 0#4 0#4 0#4 0#4
  | .sha256 rd rs rl => wordR 0x30#6 (regField rd) (regField rs) (regField rl) 0#4 0#4 0#4
  | .sha512 rd rs rl => wordR 0x31#6 (regField rd) (regField rs) (regField rl) 0#4 0#4 0#4
  | .hmac512 rd rk rkl rm rml =>
    wordR 0x32#6 (regField rd) (regField rk) (regField rkl) (regField rm) (regField rml) 0#4
  | .pbkdf2 rd rp rpl rs rsl rc =>
    wordR 0x33#6 (regField rd) (regField rp) (regField rpl) (regField rs) (regField rsl) (regField rc)
  | .b39enc rd rs rl => wordR 0x38#6 (regField rd) (regField rs) (regField rl) 0#4 0#4 0#4
  | .b39dec rd rs rw => wordR 0x39#6 (regField rd) (regField rs) (regField rw) 0#4 0#4 0#4
  | .entropy rd rl => wordR 0x3C#6 (regField rd) (regField rl) 0#4 0#4 0#4 0#4
  | .pubk rd ks => wordR 0x3D#6 (regField rd) (scalarField ks) 0#4 0#4 0#4 0#4

/-- What the decoder reads from a table row's word: one 32-bit IMEM word, no byte order (R96, R130). -/
def decodeTableWord (nbits w : Nat) : Option Instr :=
  (decode (BitVec.ofNat 32 (w % 2 ^ nbits))).toOption

end Sys2Proof
end

