-- ==== Sys2Proof/Config.lean ====
section
/-! DEFINITION. The implementation parameters of R7 and R8, and the values the spec leaves open: opaque constants without
a body, so that nothing can be proved of the value chosen (93_implementation_defined.md section 2). -/

namespace Sys2Proof.Config

/-- `DMEM_SIZE`, bytes of data memory (R7). -/
def dmemSize : Nat := 4096

/-- `IMEM_WORDS`, words of instruction memory (R7). -/
def imemWords : Nat := 256

/-- The `ID` register's value, the ASCII bytes of `HSP1` (R3, R41). -/
def isaId : Word := 0x48535031#32

/-- The secp256k1 group order n (R8). -/
def curveOrder : Nat := 0xFFFFFFFFFFFFFFFFFFFFFFFFFFFFFFFEBAAEDCE6AF48A03BBFD25E8CD0364141

/-- The size in bytes of the host register window (R100). -/
def windowSize : Nat := 0x2000

/-- `HSP_BASE`, the host bus address of the register window: OPEN (R7, R100, I4). Log entry 3. -/
opaque hspBase : Nat

/-- `CURVE`, the function behind the curve port, fixed for the life of the instance: OPEN (R7, R453, I3). Log entry 2. -/
opaque curve : Scalar → Vector Byte 33

/-- Free value: whether the collaborator has answered at the draw of this number (R450, R581, I12). Log entry 1. -/
opaque portAnswers : Nat → Bool

/-- Free value: whether the answer of this draw is a failure (R451, R453, I2). Log entry 1. -/
opaque portFails : Nat → Bool

/-- Free value: byte i of the entropy source's answer at this draw (R451, I1). Log entry 1. -/
opaque entropyByte : Nat → Nat → Byte

/-- Free value: which of the pcs that R53 allows, past or still to come, a host read of `PC` while BUSY returns (I7, R572).
Log entry 6. -/
opaque pcChoice : Nat → Nat

end Sys2Proof.Config
end

