-- ==== Sys2Proof/Machine/State.lean ====
section
/-! DEFINITION. The state of one HSP (10_state.md, R30 to R58), the moves of the world outside, the reasons a step stops,
and the machine after reset (R58). Plain data throughout. -/

namespace Sys2Proof.Machine

/-- The five flags of R37. -/
structure Flags where
  z : Bool
  c : Bool
  lt : Bool
  v : Bool
  e : Bool
  deriving DecidableEq, Repr

/-- The fields of `STATUS` (R43). -/
structure Status where
  busy : Bool
  done : Bool
  fault : Bool
  irq : Bool
  hostErr : Bool
  /-- the abort latch (R57, R515) -/
  abortReq : Bool
  deriving DecidableEq, Repr

/-- The fault causes of R505; `none` is code 0, 'the last run did not fault'. -/
inductive FaultCause where
  | none
  | illegalInstruction
  | dmemBounds
  | pcRange
  | backendFailure
  | scalarRange
  | aborted
  deriving DecidableEq, Repr

/-- The registers a fault is recorded in (R48 to R51). -/
structure FaultRegs where
  cause : FaultCause
  pc : Byte
  insn : Word
  info : Word
  deriving DecidableEq, Repr

/-- What the entropy source answers when it is looked at (R450, R451): nothing yet, a failure, or bytes. -/
inductive EntropyAnswer where
  | waiting
  | failed
  | bytes (bs : List Byte)
  deriving DecidableEq, Repr

/-- What the curve-math engine answers when it is looked at (R450, R453): nothing yet, a failure, or `CURVE(k)`. -/
inductive CurveAnswer where
  | waiting
  | failed
  | point
  deriving DecidableEq, Repr

/-- One access of the host on its bus: an address, a width in bytes, and the value of a write (`none` is a read). -/
structure BusAccess where
  addr : Nat
  width : Nat
  value : Option Word
  deriving DecidableEq, Repr

/-- The moves of the machine, as the schedule of the world outside names them (log entry 4). -/
inductive Move where
  /-- the host makes one bus access (R100 to R105) -/
  | host (a : BusAccess)
  /-- the platform asserts hardware reset (R560) -/
  | reset
  /-- the engine passes an instruction boundary and begins an instruction, which is then in progress (R515) -/
  | boundary
  /-- the engine takes its turn: it ends the instruction in progress, or runs the next one whole -/
  | engine
  deriving DecidableEq, Repr

/-- The MODEL's own fields: what the world outside does and answers, and the counter of the free values. -/
structure Env where
  /-- the moves still to come; when empty, the engine moves (log entry 4) -/
  inbox : List Move
  /-- the entropy source's answers still to come; when empty, they are drawn (log entry 1) -/
  entropyIn : List EntropyAnswer
  /-- the curve port's answers still to come; when empty, they are drawn (log entry 1) -/
  curveIn : List CurveAnswer
  /-- the number of the next draw (log entries 1 and 6) -/
  draws : Nat
  /-- the data the last host read was answered with (log entry 10) -/
  busData : Word
  deriving DecidableEq, Repr

/-- The state of one HSP. -/
structure State where
  /-- R0..R15 (R30); `getReg` and `setReg` hold R0 at zero (R31) -/
  regs : Vector Word 16
  /-- K0..K7 (R33) -/
  kregs : Vector Scalar 8
  /-- the program counter, an IMEM word index (R35) -/
  pc : Byte
  /-- R37 -/
  flags : Flags
  /-- `CTRL.IE`, the only stored bit of `CTRL` (R42) -/
  ie : Bool
  /-- R43 -/
  status : Status
  /-- `ERR[7:0]` (R46) -/
  err : Byte
  /-- `EXIT[7:0]` (R47) -/
  exitCode : Byte
  /-- R48 to R51 -/
  faultRegs : FaultRegs
  /-- `ENTRY[7:0]` (R52) -/
  entry : Byte
  /-- DMEM, a canonical list of (address, byte) (R56, R91) -/
  dmem : List Host.Cell
  /-- IMEM, a canonical list of (word index, word) (R56, R92) -/
  imem : List (Nat × Word)
  /-- an instruction has begun and has not ended: it is in progress, or waits on a port (R57, R450, R515) -/
  inFlight : Bool
  /-- MODEL's own: the pcs that the run has reached since the instruction running when the last host read of `PC` was
  answered, that one included (R53; log entry 6) -/
  pcTrail : List Byte
  /-- MODEL's own -/
  env : Env
  deriving DecidableEq, Repr

/-- The reasons for the outcome `fault`. There is none: every fault of the spec is an entry into the fault state (R510),
a next state, after which the machine stands idle and can be started again (R511). -/
inductive Fault where
  deriving DecidableEq, Repr

/-- The reasons for the outcome `refused`. -/
inductive Refusal where
  /-- raised by `exec`'s arm of an instruction that has no meaning yet; safe. No arm uses it. -/
  | notModelled (mnemonic : String)
  /-- raised by a host access to the window of another width than 32 bits, or misaligned: the model gives it no
  move (R101, I10); safe -/
  | hostAccess
  /-- raised by `ENTROPY` when the world outside answers with the wrong number of bytes, which the spec assumes
  never done (R566, I11); safe -/
  | answerLength
  deriving DecidableEq, Repr

/-- What an unlisted cell of DMEM or IMEM reads as: zero, the contents after reset (R58). -/
def unlisted {w : Nat} : BitVec w := 0#w

/-- The machine right after reset (R58, R560); the fields of `env` and `pcTrail` by log entry 8. -/
def State.reset : State where
  regs := Vector.replicate 16 0#32
  kregs := Vector.replicate 8 0#256
  pc := 0#8
  flags := ⟨false, false, false, false, false⟩
  ie := false
  status := ⟨false, false, false, false, false, false⟩
  err := 0#8
  exitCode := 0#8
  faultRegs := ⟨.none, 0#8, 0#32, 0#32⟩
  entry := 0#8
  dmem := []
  imem := []
  inFlight := false
  pcTrail := []
  env := ⟨[], [], [], 0, 0#32⟩

end Sys2Proof.Machine
end

