-- ==== Sys2Proof/Machine/Flags.lean ====
section
/-! DEFINITION. Every flag computation of the spec (R37, R38, R357 to R361), the flag a condition tests (R138), and the
`FLAGS` word (R37). The flags `E` and `V` of the checked-error instructions are written by `setChecked` and `setValid`
of Ops.lean (R501, R405, R406). -/

namespace Sys2Proof.Machine

/-- `b2i(p)` (R11). -/
def b2i (p : Bool) : Nat := if p then 1 else 0

/-- The flag of a condition number (R138). -/
def condFlag (cond : Cond) (f : Flags) : Bool :=
  match cond with
  | .z => f.z | .c => f.c | .lt => f.lt | .v => f.v | .e => f.e

/-- The `FLAGS` register: Z, C, LT, V, E in bits 0 to 4, bits 31:5 zero (R37). -/
def flagsWord (f : Flags) : Word :=
  BitVec.ofNat 32 (b2i f.z + 2 * b2i f.c + 4 * b2i f.lt + 8 * b2i f.v + 16 * b2i f.e)

/-- `KADD`: C is the carry out of bit 255, Z the zero result, of the exact sum `s` (R357). -/
def kaddFlags (s : Nat) (f : Flags) : Flags :=
  { f with c := decide (s ≥ 2 ^ 256), z := decide (s % 2 ^ 256 = 0) }

/-- `KADDM` and `KRED`: C is `s ≥ n`, Z the zero residue, of the exact input `s` (R358, R361). -/
def residueFlags (s : Nat) (f : Flags) : Flags :=
  { f with c := decide (s ≥ Config.curveOrder), z := decide (s % Config.curveOrder = 0) }

/-- `KCMP`: Z is equality, LT the unsigned order (R359). -/
def kcmpFlags (a b : Nat) (f : Flags) : Flags :=
  { f with z := decide (a = b), lt := decide (a < b) }

/-- `KCHK`: Z is `a = 0`, LT is `a < n`, V is `0 < a < n` (R360). -/
def kchkFlags (a : Nat) (f : Flags) : Flags :=
  { f with
    z := decide (a = 0)
    lt := decide (a < Config.curveOrder)
    v := decide (0 < a ∧ a < Config.curveOrder) }

end Sys2Proof.Machine
end

