-- ==== Sys2Proof/Machine/Operands.lean ====
section
/-! DEFINITION. How operands are read (R135, R209, R240), and the big-endian codings between integers and bytes
(R10, R11, R95). -/

namespace Sys2Proof.Machine

/-- `imm16 << 16` (R135, R200). -/
def upperImm (imm : BitVec 16) : Word := imm ++ 0#16

/-- `zext_32(imm16)` (R11, R135). -/
def zextImm (imm : BitVec 16) : Word := imm.zeroExtend 32

/-- `sext_32(imm16)` (R11, R135). -/
def sextImm (imm : BitVec 16) : Word := imm.signExtend 32

/-- The effective address `trunc_32(base + sext_32(off))` (R209). -/
def effAddr (base : Word) (off : BitVec 16) : Word := base + sextImm off

/-- The pc after a non-branch, or a branch not taken, on unbounded integers (R240). -/
def fallThrough (pc : Byte) : Int := (pc.toNat : Int) + 1

/-- The target of a taken branch, on unbounded integers (R240). -/
def branchTarget (pc : Byte) (off : BitVec 16) : Int := (pc.toNat : Int) + off.toInt

/-- `BE_n(v)`: the n-byte big-endian encoding, most significant byte first (R11). -/
def beBytes : (n : Nat) → (v : Nat) → List Byte
  | 0, _ => []
  | n + 1, v => BitVec.ofNat 8 (v / 2 ^ (8 * n)) :: beBytes n v

/-- `intBE(B)`: the integer whose big-endian encoding is `B` (R11). -/
def intBE (bs : List Byte) : Nat := bs.foldl (fun acc b => acc * 256 + b.toNat) 0

end Sys2Proof.Machine
end

