-- ==== Sys2Proof/Machine/Ops.lean ====
section
/-! DEFINITION. The named operations of the machine: cells of memory, registers, the next pc, fault entry and the end of
a run, checked errors, region checks, the CSRs, and the ports' answers. A meaning is written over these. -/

namespace Sys2Proof.Machine

/-- What a step answers. -/
abbrev Result := Host.Outcome State Fault Refusal

/-! ## Memories (R90 to R94) -/

/-- The value of one cell of a memory. -/
def readCell {w : Nat} : List (Nat × BitVec w) → Nat → BitVec w
  | [], _ => unlisted
  | c :: m, x => if c.1 = x then c.2 else readCell m x

/-- The listed cells of the values `vs` laid out from address `a`. -/
def cellsFrom {w : Nat} : Nat → List (BitVec w) → List (Nat × BitVec w)
  | _, [] => []
  | a, v :: vs => if v = unlisted then cellsFrom (a + 1) vs else (a, v) :: cellsFrom (a + 1) vs

/-- A memory after the values `vs` are written from address `a`, every other cell as before. -/
def writeCells {w : Nat} (m : List (Nat × BitVec w)) (a : Nat) (vs : List (BitVec w)) : List (Nat × BitVec w) :=
  m.filter (fun c => c.1 < a) ++ cellsFrom a vs ++ m.filter (fun c => a + vs.length ≤ c.1)

/-- The `n` values of a memory from address `a`. -/
def readCells {w : Nat} (m : List (Nat × BitVec w)) : Nat → Nat → List (BitVec w)
  | _, 0 => []
  | a, n + 1 => readCell m a :: readCells m (a + 1) n

/-- The canonical form of a memory of `size` cells: addresses strictly rising and below `size`, and no cell listed
that reads as an unlisted one. -/
abbrev Memory.wf {w : Nat} (size : Nat) (m : List (Nat × BitVec w)) : Prop :=
  m.Pairwise (fun c d => c.1 < d.1) ∧ ∀ c ∈ m, c.2 ≠ unlisted ∧ c.1 < size

/-- One byte of DMEM. -/
def dmemByte (s : State) (a : Nat) : Byte := readCell s.dmem a

/-- `MemRead(addr, n)` (R12). -/
def memRead (a n : Nat) (s : State) : List Byte := readCells s.dmem a n

/-- `MemWrite(addr, n, v)`, n the length of v: byte i goes to addr + i (R12). -/
def memWrite (a : Nat) (bs : List Byte) (s : State) : State := { s with dmem := writeCells s.dmem a bs }

/-- `IMEM[i]` (R92). -/
def imemWord (s : State) (i : Nat) : Word := readCell s.imem i

/-- `IMEM[i] <- v`: the host's alone (R92, R103). -/
def setImem (i : Nat) (v : Word) (s : State) : State := { s with imem := writeCells s.imem i [v] }

/-- The instruction word at pc (R92, R96). -/
def fetchWord (s : State) : Word := imemWord s s.pc.toNat

/-! ## Registers (R30 to R33) -/

/-- `x[i]`: R0 reads 0 (R31). -/
def getReg (r : RReg) (s : State) : Word := if r = 0 then 0#32 else s.regs.get r

/-- `x[i] <- v`: a write to R0 is discarded (R31). -/
def setReg (r : RReg) (v : Word) (s : State) : State :=
  if r = 0 then s else { s with regs := s.regs.set r.val v r.isLt }

/-- The register as an unsigned integer (R30). -/
def regNat (r : RReg) (s : State) : Nat := (getReg r s).toNat

/-- `k[i]` (R33). -/
def getK (k : KReg) (s : State) : Scalar := s.kregs.get k

/-- `k[i] <- v` (R33). -/
def setK (k : KReg) (v : Scalar) (s : State) : State := { s with kregs := s.kregs.set k.val v k.isLt }

/-- The scalar register as an unsigned integer (R33). -/
def scalarNat (k : KReg) (s : State) : Nat := (getK k s).toNat

/-- The flags after a flag-writing instruction. -/
def setFlags (f : Flags) (s : State) : State := { s with flags := f }

/-- The flag V of `B39ENC` and `B39DEC` (R405, R406). -/
def setValid (b : Bool) (s : State) : State := { s with flags := { s.flags with v := b } }

/-- `SetChecked(code)`: ERR takes the code, E says it is not zero (R501). -/
def setChecked (code : Byte) (s : State) : State :=
  { s with err := code, flags := { s.flags with e := decide (code ≠ 0#8) } }

/-! ## Fault entry, the end of a run, and the next pc (R510, R520, R240) -/

/-- The code of a fault cause (R505). -/
def causeCode : FaultCause → Byte
  | .none => 0#8
  | .illegalInstruction => 1#8
  | .dmemBounds => 2#8
  | .pcRange => 3#8
  | .backendFailure => 4#8
  | .scalarRange => 5#8
  | .aborted => 6#8

/-- Fault entry, the one way a fault is taken (R510): the run ends as FAULT, the four fault registers are written, `pc`
and everything else is kept. The instruction, if one was in progress, has ended. -/
def faultEntry (cause : FaultCause) (insn info : Word) (s : State) : State :=
  { s with
    status := { s.status with busy := false, fault := true, irq := true, abortReq := false }
    faultRegs := { cause := cause, pc := s.pc, insn := insn, info := info }
    inFlight := false }

/-- `raise Fault(cause, info)` by the instruction at pc (R13, R510): FAULT_INSN is the word at pc (R50). -/
def raise (cause : FaultCause) (info : Word) (s : State) : State := faultEntry cause (fetchWord s) info s

/-- The ABORTED fault at a boundary: FAULT_PC is the next pc, FAULT_INSN and FAULT_INFO are 0 (R515). -/
def abortEntry (s : State) : State := faultEntry .aborted 0#32 0#32 s

/-- The end of a run as DONE with an exit code (R249, R520). `pc` stays at the HALT. -/
def endDone (code : Byte) (s : State) : State :=
  { s with
    status := { s.status with busy := false, done := true, irq := true, abortReq := false }
    exitCode := code
    inFlight := false }

/-- The pcs reached since the last answered read of PC, after the instruction at `t` is reached (R53; log entry 6). -/
def trailAdd (t : Byte) (trail : List Byte) : List Byte := if t ∈ trail then trail else t :: trail

/-- The instruction in progress ends and `t` is the next instruction. -/
def arrive (t : Byte) (s : State) : State :=
  { s with pc := t, pcTrail := trailAdd t s.pcTrail, inFlight := false }

/-- The next pc, after the instruction's writes: `t` if it lies in IMEM, else PC_RANGE with info `trunc_32(t)`; it
never wraps (R240). -/
def goto (t : Int) (s : State) : State :=
  if 0 ≤ t ∧ t < Config.imemWords then arrive (BitVec.ofInt 8 t) s else raise .pcRange (BitVec.ofInt 32 t) s

/-- The next pc of an instruction that does not transfer control (R14, R240). -/
def seqNext (s : State) : State := goto (fallThrough s.pc) s

/-- The next pc of a branch (R240 to R247). -/
def branchIf (taken : Bool) (off : BitVec 16) (s : State) : State :=
  if taken then goto (branchTarget s.pc off) s else seqNext s

/-! ## Region checks (R13, R94, R506) -/

/-- `addr + len ≤ DMEM_SIZE`, on unbounded integers (R94). -/
def regionOk (a : Word) (len : Nat) : Bool := decide (a.toNat + len ≤ Config.dmemSize)

/-- The start of the first region, in the given order, that fails its check (R506). -/
def firstBad : List (Word × Nat) → Option Word
  | [] => none
  | r :: rs => if regionOk r.1 r.2 then firstBad rs else some r.1

/-- `CheckRegion` of each region in order, then the rest of the instruction (R13, R15): the first region that fails
raises DMEM_BOUNDS with its start, and nothing is written. -/
def withRegions (rs : List (Word × Nat)) (rest : State → Result) (s : State) : Result :=
  match firstBad rs with
  | some a => .next (raise .dmemBounds a s)
  | none => rest s

/-! ## CSRs (R40 to R54) -/

/-- The `CTRL` word: IE in bit 3, every other bit reads 0 (R42). -/
def ctrlWord (s : State) : Word := BitVec.ofNat 32 (8 * b2i s.ie)

/-- The `STATUS` word (R43). -/
def statusWord (st : Status) : Word :=
  BitVec.ofNat 32 (b2i st.busy + 2 * b2i st.done + 4 * b2i st.fault + 8 * b2i st.irq + 16 * b2i st.hostErr
    + 32 * b2i st.abortReq)

/-- The value of CSR `c` (R40 to R54, R252); 0 for the numbers that do not exist, which no legal access reaches. -/
def csrValue (c : Nat) (s : State) : Word :=
  match c with
  | 0 => Config.isaId
  | 1 => ctrlWord s
  | 2 => statusWord s.status
  | 3 => flagsWord s.flags
  | 4 => s.err.zeroExtend 32
  | 5 => s.exitCode.zeroExtend 32
  | 6 => (causeCode s.faultRegs.cause).zeroExtend 32
  | 7 => s.faultRegs.pc.zeroExtend 32
  | 8 => s.faultRegs.insn
  | 9 => s.faultRegs.info
  | 10 => s.entry.zeroExtend 32
  | 11 => s.pc.zeroExtend 32
  | 12 => BitVec.ofNat 32 Config.dmemSize
  | 13 => BitVec.ofNat 32 Config.imemWords
  | _ => 0#32

/-- The interrupt output `irq = STATUS.IRQ ∧ CTRL.IE` (R525). -/
def irqLine (s : State) : Bool := s.status.irq && s.ie

/-! ## Ports (R450 to R453) -/

/-- The entropy source's answer to a request of `n` bytes, looked at now: the next answer the world outside supplies,
else the draw (R451; log entry 1). -/
def entropyAnswer (n : Nat) (s : State) : EntropyAnswer :=
  match s.env.entropyIn with
  | a :: _ => a
  | [] =>
    if Config.portAnswers s.env.draws then
      if Config.portFails s.env.draws then .failed
      else .bytes ((List.range n).map (Config.entropyByte s.env.draws))
    else .waiting

/-- The curve port's answer, looked at now (R453; log entry 1). -/
def curveAnswer (s : State) : CurveAnswer :=
  match s.env.curveIn with
  | a :: _ => a
  | [] =>
    if Config.portAnswers s.env.draws then
      if Config.portFails s.env.draws then .failed else .point
    else .waiting

/-- The world outside after the entropy source was looked at: that answer and that draw are used up. -/
def entropyLooked (s : State) : State :=
  { s with env := { s.env with entropyIn := s.env.entropyIn.tail, draws := s.env.draws + 1 } }

/-- The world outside after the curve port was looked at. -/
def curveLooked (s : State) : State :=
  { s with env := { s.env with curveIn := s.env.curveIn.tail, draws := s.env.draws + 1 } }

/-- The instruction waits on its port: it is in progress, and nothing else changes (R450; log entry 9). -/
def keepWaiting (s : State) : State := { s with inFlight := true }

/-! ## Host commands and hardware reset (R42, R52, R560 to R563) -/

/-- A refused host access (R512). -/
def latchHostErr (s : State) : State := { s with status := { s.status with hostErr := true } }

/-- The data a host read is answered with (log entry 10). -/
def setBusData (v : Word) (s : State) : State := { s with env := { s.env with busData := v } }

/-- The schedule of the moves still to come. -/
def setInbox (ms : List Move) (s : State) : State := { s with env := { s.env with inbox := ms } }

/-- `CTRL.IE` stores its bit (R42). -/
def setIe (b : Bool) (s : State) : State := { s with ie := b }

/-- `IRQ_CLR` (R42, R43). -/
def clearIrq (s : State) : State := { s with status := { s.status with irq := false } }

/-- `HOSTERR_CLR` (R42, R43). -/
def clearHostErr (s : State) : State := { s with status := { s.status with hostErr := false } }

/-- `ABORT`: latched while BUSY, no effect otherwise (R515). -/
def requestAbort (s : State) : State :=
  if s.status.busy then { s with status := { s.status with abortReq := true } } else s

/-- All five flags 0 (R39). -/
def noFlags : Flags := ⟨false, false, false, false, false⟩

/-- The fault registers with no fault recorded (R48 to R51). -/
def noFault : FaultRegs := ⟨.none, 0#8, 0#32, 0#32⟩

/-- `ZEROIZE`: refused while BUSY, else key material and results are cleared; IMEM, ENTRY, IE and HOSTERR are kept
(R563). -/
def zeroize (s : State) : State :=
  if s.status.busy then latchHostErr s
  else
    { s with
      dmem := []
      regs := Vector.replicate 16 0#32
      kregs := Vector.replicate 8 0#256
      pc := 0#8
      flags := noFlags
      err := 0#8
      exitCode := 0#8
      faultRegs := noFault
      status := { s.status with done := false, fault := false, irq := false } }

/-- `START`: refused while BUSY, else a run begins at ENTRY with the flags and the result registers cleared (R562). -/
def startRun (s : State) : State :=
  if s.status.busy then latchHostErr s
  else
    { s with
      pc := s.entry
      status := { s.status with busy := true, done := false, fault := false, irq := false, abortReq := false }
      flags := noFlags
      err := 0#8
      exitCode := 0#8
      faultRegs := noFault
      inFlight := false
      pcTrail := [s.entry] }

/-- `ENTRY <- v[7:0]`: refused while BUSY (R52). -/
def setEntry (v : Word) (s : State) : State :=
  if s.status.busy then latchHostErr s else { s with entry := v.extractLsb' 0 8 }

/-- One command bit of a `CTRL` write. -/
def onBit (v : Word) (i : Nat) (command : State → State) (s : State) : State :=
  if v.getLsbD i then command s else s

/-- A host write to `CTRL`: the commands act in the order IE, IRQ_CLR, HOSTERR_CLR, ABORT, ZEROIZE, START (R42). -/
def writeCtrl (v : Word) (s : State) : State :=
  onBit v 0 startRun (onBit v 2 zeroize (onBit v 1 requestAbort (onBit v 5 clearHostErr (onBit v 4 clearIrq
    (setIe (v.getLsbD 3) s)))))

/-- Hardware reset, at once: every piece of state takes its R58 value, a run or a port request in progress is abandoned
(R560). The world outside keeps its own course: its moves, its answers and its draws are not used again. -/
def hardReset (s : State) : State := { State.reset with env := s.env }

/-- The word `w` stored where the engine fetches, and the engine running there with no abort pending: what the host's
load and START come to, for one instruction (R564; log entry 7). -/
def placeWord (w : Word) (s : State) : State :=
  { s with
    imem := writeCells s.imem s.pc.toNat [w]
    status := { s.status with busy := true, done := false, fault := false, abortReq := false }
    inFlight := false
    pcTrail := [s.pc]
    env := { s.env with inbox := [] } }

end Sys2Proof.Machine
end

