-- ==== Sys2Proof/Machine/Sha2.lean ====
section
/-! DEFINITION. The hash algorithms of 42_hash.md as functions on byte strings: SHA-256 (R301 to R305), SHA-512 (R306 to
R310), HMAC-SHA512 (R312) and PBKDF2-HMAC-SHA512 with a 64-byte output (R314). -/

namespace Sys2Proof.Machine

/-! ## Word operations, for both word widths (R300) -/

/-- `ROTR^r(x)` (R300). -/
def rotr {w : Nat} (r : Nat) (x : BitVec w) : BitVec w := (x >>> r) ||| (x <<< (w - r))

/-- `Ch(x,y,z)` (R300). -/
def chFn {w : Nat} (x y z : BitVec w) : BitVec w := (x &&& y) ^^^ (~~~x &&& z)

/-- `Maj(x,y,z)` (R300). -/
def majFn {w : Nat} (x y z : BitVec w) : BitVec w := (x &&& y) ^^^ (x &&& z) ^^^ (y &&& z)

/-- The eight working words, or the hash value, of a SHA-2 function (R305). -/
structure Hash8 (w : Nat) where
  a : BitVec w
  b : BitVec w
  c : BitVec w
  d : BitVec w
  e : BitVec w
  f : BitVec w
  g : BitVec w
  h : BitVec w
  deriving DecidableEq, Repr

/-- What SHA-256 and SHA-512 differ in (R301 to R310): word and length bytes, functions, constants. -/
structure Sha2 (w : Nat) where
  wordBytes : Nat
  lengthBytes : Nat
  bigSigma0 : BitVec w → BitVec w
  bigSigma1 : BitVec w → BitVec w
  smallSigma0 : BitVec w → BitVec w
  smallSigma1 : BitVec w → BitVec w
  initial : Hash8 w
  constants : List (BitVec w)

/-- Block length in bytes: 16 words. -/
def blockBytes {w : Nat} (p : Sha2 w) : Nat := 16 * p.wordBytes

/-- The least p ≥ 0 with `(len + 1 + p + lengthBytes) mod block = 0` (R302, R307). -/
def padZeros (block lengthBytes len : Nat) : Nat := (block - (len + 1 + lengthBytes) % block) % block

/-- The padded message (R302, R307). -/
def padMessage {w : Nat} (p : Sha2 w) (m : List Byte) : List Byte :=
  m ++ [0x80#8] ++ List.replicate (padZeros (blockBytes p) p.lengthBytes m.length) 0#8
    ++ beBytes p.lengthBytes (8 * m.length)

/-- The first `count` pieces of `n` elements of a list. -/
def pieces {α : Type} (n : Nat) : Nat → List α → List (List α)
  | 0, _ => []
  | count + 1, l => l.take n :: pieces n count (l.drop n)

/-- The 16 big-endian words of a block (R302, R307). -/
def blockWords {w : Nat} (p : Sha2 w) (block : List Byte) : List (BitVec w) :=
  (pieces p.wordBytes 16 block).map (fun bs => BitVec.ofNat w (intBE bs))

/-- `W_t` from the words before it, latest first: `σ1(W_{t-2}) + W_{t-7} + σ0(W_{t-15}) + W_{t-16}` (R305). -/
def nextScheduleWord {w : Nat} (p : Sha2 w) (before : List (BitVec w)) : BitVec w :=
  p.smallSigma1 (before.getD 1 0) + before.getD 6 0 + p.smallSigma0 (before.getD 14 0) + before.getD 15 0

/-- The schedule words so far, latest first, after `n` more (R305). -/
def extendSchedule {w : Nat} (p : Sha2 w) : Nat → List (BitVec w) → List (BitVec w)
  | 0, before => before
  | n + 1, before => extendSchedule p n (nextScheduleWord p before :: before)

/-- `W_0, W_1, …`: one word for each round constant (R305, R310). -/
def scheduleWords {w : Nat} (p : Sha2 w) (block : List Byte) : List (BitVec w) :=
  (extendSchedule p (p.constants.length - 16) (blockWords p block).reverse).reverse

/-- One round, with `K_t` and `W_t` (R305). -/
def hashRound {w : Nat} (p : Sha2 w) (s : Hash8 w) (kw : BitVec w × BitVec w) : Hash8 w :=
  let t1 := s.h + p.bigSigma1 s.e + chFn s.e s.f s.g + kw.1 + kw.2
  let t2 := p.bigSigma0 s.a + majFn s.a s.b s.c
  { a := t1 + t2, b := s.a, c := s.b, d := s.c, e := s.d + t1, f := s.e, g := s.f, h := s.g }

/-- Wordwise sum modulo 2^w (R305). -/
def addHash {w : Nat} (x y : Hash8 w) : Hash8 w :=
  { a := x.a + y.a, b := x.b + y.b, c := x.c + y.c, d := x.d + y.d,
    e := x.e + y.e, f := x.f + y.f, g := x.g + y.g, h := x.h + y.h }

/-- The processing of one block (R305, R310). -/
def hashBlock {w : Nat} (p : Sha2 w) (h : Hash8 w) (block : List Byte) : Hash8 w :=
  addHash h ((p.constants.zip (scheduleWords p block)).foldl (hashRound p) h)

/-- The eight words of a hash value. -/
def hashWords {w : Nat} (h : Hash8 w) : List (BitVec w) := [h.a, h.b, h.c, h.d, h.e, h.f, h.g, h.h]

/-- The digest of a message (R305, R310). -/
def sha2 {w : Nat} (p : Sha2 w) (m : List Byte) : List Byte :=
  let padded := padMessage p m
  let final := (pieces (blockBytes p) (padded.length / blockBytes p) padded).foldl (hashBlock p) p.initial
  (hashWords final).flatMap (fun x => beBytes p.wordBytes x.toNat)

/-! ## SHA-256 -/

/-- The round constants of SHA-256 (R304). -/
def sha256Constants : List (BitVec 32) :=
  [0x428a2f98#32, 0x71374491#32, 0xb5c0fbcf#32, 0xe9b5dba5#32, 0x3956c25b#32, 0x59f111f1#32, 0x923f82a4#32, 0xab1c5ed5#32,
   0xd807aa98#32, 0x12835b01#32, 0x243185be#32, 0x550c7dc3#32, 0x72be5d74#32, 0x80deb1fe#32, 0x9bdc06a7#32, 0xc19bf174#32] ++
  [0xe49b69c1#32, 0xefbe4786#32, 0x0fc19dc6#32, 0x240ca1cc#32, 0x2de92c6f#32, 0x4a7484aa#32, 0x5cb0a9dc#32, 0x76f988da#32,
   0x983e5152#32, 0xa831c66d#32, 0xb00327c8#32, 0xbf597fc7#32, 0xc6e00bf3#32, 0xd5a79147#32, 0x06ca6351#32, 0x14292967#32] ++
  [0x27b70a85#32, 0x2e1b2138#32, 0x4d2c6dfc#32, 0x53380d13#32, 0x650a7354#32, 0x766a0abb#32, 0x81c2c92e#32, 0x92722c85#32,
   0xa2bfe8a1#32, 0xa81a664b#32, 0xc24b8b70#32, 0xc76c51a3#32, 0xd192e819#32, 0xd6990624#32, 0xf40e3585#32, 0x106aa070#32] ++
  [0x19a4c116#32, 0x1e376c08#32, 0x2748774c#32, 0x34b0bcb5#32, 0x391c0cb3#32, 0x4ed8aa4a#32, 0x5b9cca4f#32, 0x682e6ff3#32,
   0x748f82ee#32, 0x78a5636f#32, 0x84c87814#32, 0x8cc70208#32, 0x90befffa#32, 0xa4506ceb#32, 0xbef9a3f7#32, 0xc67178f2#32]

/-- The initial hash value of SHA-256 (R303). -/
def sha256Initial : Hash8 32 where
  a := 0x6a09e667#32
  b := 0xbb67ae85#32
  c := 0x3c6ef372#32
  d := 0xa54ff53a#32
  e := 0x510e527f#32
  f := 0x9b05688c#32
  g := 0x1f83d9ab#32
  h := 0x5be0cd19#32

/-- SHA-256 (R301 to R305). -/
def sha256Params : Sha2 32 where
  wordBytes := 4
  lengthBytes := 8
  bigSigma0 x := rotr 2 x ^^^ rotr 13 x ^^^ rotr 22 x
  bigSigma1 x := rotr 6 x ^^^ rotr 11 x ^^^ rotr 25 x
  smallSigma0 x := rotr 7 x ^^^ rotr 18 x ^^^ (x >>> 3)
  smallSigma1 x := rotr 17 x ^^^ rotr 19 x ^^^ (x >>> 10)
  initial := sha256Initial
  constants := sha256Constants

/-- `SHA256(M)`, 32 bytes (R305). -/
def sha256 (m : List Byte) : List Byte := sha2 sha256Params m

/-! ## SHA-512 -/

/-- The round constants of SHA-512 (R309). -/
def sha512Constants : List (BitVec 64) :=
  [0x428a2f98d728ae22#64, 0x7137449123ef65cd#64, 0xb5c0fbcfec4d3b2f#64, 0xe9b5dba58189dbbc#64,
   0x3956c25bf348b538#64, 0x59f111f1b605d019#64, 0x923f82a4af194f9b#64, 0xab1c5ed5da6d8118#64,
   0xd807aa98a3030242#64, 0x12835b0145706fbe#64, 0x243185be4ee4b28c#64, 0x550c7dc3d5ffb4e2#64,
   0x72be5d74f27b896f#64, 0x80deb1fe3b1696b1#64, 0x9bdc06a725c71235#64, 0xc19bf174cf692694#64] ++
  [0xe49b69c19ef14ad2#64, 0xefbe4786384f25e3#64, 0x0fc19dc68b8cd5b5#64, 0x240ca1cc77ac9c65#64,
   0x2de92c6f592b0275#64, 0x4a7484aa6ea6e483#64, 0x5cb0a9dcbd41fbd4#64, 0x76f988da831153b5#64,
   0x983e5152ee66dfab#64, 0xa831c66d2db43210#64, 0xb00327c898fb213f#64, 0xbf597fc7beef0ee4#64,
   0xc6e00bf33da88fc2#64, 0xd5a79147930aa725#64, 0x06ca6351e003826f#64, 0x142929670a0e6e70#64] ++
  [0x27b70a8546d22ffc#64, 0x2e1b21385c26c926#64, 0x4d2c6dfc5ac42aed#64, 0x53380d139d95b3df#64,
   0x650a73548baf63de#64, 0x766a0abb3c77b2a8#64, 0x81c2c92e47edaee6#64, 0x92722c851482353b#64,
   0xa2bfe8a14cf10364#64, 0xa81a664bbc423001#64, 0xc24b8b70d0f89791#64, 0xc76c51a30654be30#64,
   0xd192e819d6ef5218#64, 0xd69906245565a910#64, 0xf40e35855771202a#64, 0x106aa07032bbd1b8#64] ++
  [0x19a4c116b8d2d0c8#64, 0x1e376c085141ab53#64, 0x2748774cdf8eeb99#64, 0x34b0bcb5e19b48a8#64,
   0x391c0cb3c5c95a63#64, 0x4ed8aa4ae3418acb#64, 0x5b9cca4f7763e373#64, 0x682e6ff3d6b2b8a3#64,
   0x748f82ee5defb2fc#64, 0x78a5636f43172f60#64, 0x84c87814a1f0ab72#64, 0x8cc702081a6439ec#64,
   0x90befffa23631e28#64, 0xa4506cebde82bde9#64, 0xbef9a3f7b2c67915#64, 0xc67178f2e372532b#64] ++
  [0xca273eceea26619c#64, 0xd186b8c721c0c207#64, 0xeada7dd6cde0eb1e#64, 0xf57d4f7fee6ed178#64,
   0x06f067aa72176fba#64, 0x0a637dc5a2c898a6#64, 0x113f9804bef90dae#64, 0x1b710b35131c471b#64,
   0x28db77f523047d84#64, 0x32caab7b40c72493#64, 0x3c9ebe0a15c9bebc#64, 0x431d67c49c100d4c#64,
   0x4cc5d4becb3e42b6#64, 0x597f299cfc657e2a#64, 0x5fcb6fab3ad6faec#64, 0x6c44198c4a475817#64]

/-- The initial hash value of SHA-512 (R308). -/
def sha512Initial : Hash8 64 where
  a := 0x6a09e667f3bcc908#64
  b := 0xbb67ae8584caa73b#64
  c := 0x3c6ef372fe94f82b#64
  d := 0xa54ff53a5f1d36f1#64
  e := 0x510e527fade682d1#64
  f := 0x9b05688c2b3e6c1f#64
  g := 0x1f83d9abfb41bd6b#64
  h := 0x5be0cd19137e2179#64

/-- SHA-512 (R306 to R310). -/
def sha512Params : Sha2 64 where
  wordBytes := 8
  lengthBytes := 16
  bigSigma0 x := rotr 28 x ^^^ rotr 34 x ^^^ rotr 39 x
  bigSigma1 x := rotr 14 x ^^^ rotr 18 x ^^^ rotr 41 x
  smallSigma0 x := rotr 1 x ^^^ rotr 8 x ^^^ (x >>> 7)
  smallSigma1 x := rotr 19 x ^^^ rotr 61 x ^^^ (x >>> 6)
  initial := sha512Initial
  constants := sha512Constants

/-- `SHA512(M)`, 64 bytes (R310). -/
def sha512 (m : List Byte) : List Byte := sha2 sha512Params m

/-! ## HMAC-SHA512 and PBKDF2 -/

/-- Bytewise XOR of two byte strings of one length. -/
def xorBytes (x y : List Byte) : List Byte := List.zipWith (· ^^^ ·) x y

/-- `K0`: the key, hashed first when longer than a block, padded with zeros to 128 bytes (R312). -/
def hmacKey (key : List Byte) : List Byte :=
  let k := if key.length > 128 then sha512 key else key
  k ++ List.replicate (128 - k.length) 0#8

/-- `HMAC512(K, M)`, 64 bytes (R312). -/
def hmac512 (key msg : List Byte) : List Byte :=
  let k0 := hmacKey key
  let ipad := List.replicate 128 0x36#8
  let opad := List.replicate 128 0x5C#8
  sha512 (xorBytes k0 opad ++ sha512 (xorBytes k0 ipad ++ msg))

/-- The second line of R314: from `U_j` and `U_1 ⊕ … ⊕ U_j`, `n` more iterations. -/
def pbkdf2Iterate (password : List Byte) : (n : Nat) → (u t : List Byte) → List Byte
  | 0, _, t => t
  | n + 1, u, t =>
    let u' := hmac512 password u
    pbkdf2Iterate password n u' (xorBytes t u')

/-- `PBKDF2(P, S, c)` for c ≥ 1, 64 bytes (R314). -/
def pbkdf2 (password salt : List Byte) (c : Nat) : List Byte :=
  let u1 := hmac512 password (salt ++ beBytes 4 1)
  pbkdf2Iterate password (c - 1) u1 u1

end Sys2Proof.Machine
end

