-- ==== Sys2Proof/Machine/Hash.lean ====
section
/-! DEFINITION. The hash instructions SHA256, SHA512, HMAC512, PBKDF2 (42_hash.md, R330 to R335): one-shot over whole
regions, sources checked before the destination, every source read before the write. -/

namespace Sys2Proof.Machine

/-- `SHA256 rd, rs, rl` (R330). -/
def execSha256 (rd rs rl : RReg) (s : State) : Result :=
  withRegions [(getReg rs s, regNat rl s), (getReg rd s, 32)]
    (fun s => .next (seqNext (memWrite (regNat rd s) (sha256 (memRead (regNat rs s) (regNat rl s) s)) s))) s

/-- `SHA512 rd, rs, rl` (R331). -/
def execSha512 (rd rs rl : RReg) (s : State) : Result :=
  withRegions [(getReg rs s, regNat rl s), (getReg rd s, 64)]
    (fun s => .next (seqNext (memWrite (regNat rd s) (sha512 (memRead (regNat rs s) (regNat rl s) s)) s))) s

/-- `HMAC512 rd, rk, rkl, rm, rml` (R332). -/
def execHmac512 (rd rk rkl rm rml : RReg) (s : State) : Result :=
  withRegions [(getReg rk s, regNat rkl s), (getReg rm s, regNat rml s), (getReg rd s, 64)]
    (fun s =>
      .next (seqNext (memWrite (regNat rd s)
        (hmac512 (memRead (regNat rk s) (regNat rkl s) s) (memRead (regNat rm s) (regNat rml s) s)) s))) s

/-- The checked error ConfigurationError (R502). -/
def configurationError : Byte := 0x08#8

/-- `PBKDF2 rd, rp, rpl, rs, rsl, rc`: a count of 0 is ConfigurationError, checked before the regions (R333). -/
def execPbkdf2 (rd rp rpl rs rsl rc : RReg) (s : State) : Result :=
  if regNat rc s = 0 then .next (seqNext (setChecked configurationError s))
  else
    withRegions [(getReg rp s, regNat rpl s), (getReg rs s, regNat rsl s), (getReg rd s, 64)]
      (fun s =>
        .next (seqNext (setChecked 0#8 (memWrite (regNat rd s)
          (pbkdf2 (memRead (regNat rp s) (regNat rpl s) s) (memRead (regNat rs s) (regNat rsl s) s) (regNat rc s))
          s)))) s

end Sys2Proof.Machine
end

