-- ==== Sys2Proof/Machine/Bip39.lean ====
section
/-! DEFINITION. The BIP39 bit-packer: the packing rule and its inverse on bit sequences (44_bip39.md, R401 to R404), and the
instructions B39ENC and B39DEC (R405, R406). -/

namespace Sys2Proof.Machine

/-! ## Bit sequences (R10) -/

/-- The low `n` bits of an integer, most significant first. -/
def bitsMsb : (n : Nat) → (v : Nat) → List Bool
  | 0, _ => []
  | n + 1, v => v.testBit n :: bitsMsb n v

/-- `bits(B)`: each byte's bits most significant first (R10). -/
def bitsOf (bs : List Byte) : List Bool := bs.flatMap (fun b => bitsMsb 8 b.toNat)

/-- A bit sequence read most significant first as an unsigned integer (R401). -/
def natOfBits (bits : List Bool) : Nat := bits.foldl (fun acc b => 2 * acc + b.toNat) 0

/-! ## The packing rule and its inverse -/

/-- The legal entropy lengths in bytes (R402). -/
def entropyLengths : List Nat := [16, 20, 24, 28, 32]

/-- The legal word counts (R402). -/
def wordCounts : List Nat := [12, 15, 18, 21, 24]

/-- The first `cs` bits of `bits(SHA256(E))` (R401). -/
def checksumBits (entropy : List Byte) (cs : Nat) : List Bool := (bitsOf (sha256 entropy)).take cs

/-- The word indices of entropy `E` (R401). -/
def packIndices (entropy : List Byte) : List Nat :=
  let ent := 8 * entropy.length
  let cs := ent / 32
  let combined := bitsOf entropy ++ checksumBits entropy cs
  (pieces 11 ((ent + cs) / 11) combined).map natOfBits

/-- `combined` of a list of word indices: 11 bits each, most significant first (R403). -/
def combinedBits (idx : List Nat) : List Bool := idx.flatMap (bitsMsb 11)

/-- `entropyBitsLen` of `W` words (R403). -/
def entropyBitsLen (words : Nat) : Nat := 32 * words / 3

/-- The entropy of a list of word indices (R403). -/
def unpackEntropy (idx : List Nat) : List Byte :=
  (pieces 8 (entropyBitsLen idx.length / 8) (combinedBits idx)).map (fun bits => BitVec.ofNat 8 (natOfBits bits))

/-- `valid`: the checksum bits equal the leading bits of the hash of the entropy (R403). -/
def checksumOk (idx : List Nat) : Bool :=
  let ent := entropyBitsLen idx.length
  let cs := ent / 32
  ((combinedBits idx).drop ent).take cs == checksumBits (unpackEntropy idx) cs

/-- Word indices as big-endian index halfwords (R404). -/
def halfwords (idx : List Nat) : List Byte := idx.flatMap (beBytes 2)

/-- The values of a string of `count` index halfwords (R404). -/
def halfwordValues (count : Nat) (bs : List Byte) : List Nat := (pieces 2 count bs).map intBE

/-! ## Instructions -/

/-- The checked error MnemonicLengthInvalid (R502). -/
def mnemonicLengthInvalid : Byte := 0x05#8

/-- The checked error WordNotInList (R502). -/
def wordNotInList : Byte := 0x06#8

/-- The checked error ChecksumMismatch (R502). -/
def checksumMismatch : Byte := 0x07#8

/-- A packer instruction ends with a checked error: no memory write, V clear (R405, R406). -/
def packerError (code : Byte) (s : State) : State := seqNext (setValid false (setChecked code s))

/-- A packer instruction ends well: its bytes written, ERR 0, V set (R405, R406). -/
def packerDone (a : Nat) (bs : List Byte) (s : State) : State :=
  seqNext (setValid true (setChecked 0#8 (memWrite a bs s)))

/-- `B39ENC rd, rs, rl` (R405). -/
def execB39enc (rd rs rl : RReg) (s : State) : Result :=
  if regNat rl s ∈ entropyLengths then
    withRegions [(getReg rs s, regNat rl s), (getReg rd s, 2 * (3 * regNat rl s / 4))]
      (fun s => .next (packerDone (regNat rd s) (halfwords (packIndices (memRead (regNat rs s) (regNat rl s) s))) s)) s
  else .next (packerError configurationError s)

/-- What B39DEC does with the index halfwords it has read, in the order of its checks (R406). -/
def unpackInto (a : Nat) (idx : List Nat) (s : State) : State :=
  if idx.any (fun h => decide (h > 2047)) then packerError wordNotInList s
  else if checksumOk idx then packerDone a (unpackEntropy idx) s
  else packerError checksumMismatch s

/-- `B39DEC rd, rs, rw` (R406). -/
def execB39dec (rd rs rw : RReg) (s : State) : Result :=
  if regNat rw s ∈ wordCounts then
    withRegions [(getReg rs s, 2 * regNat rw s), (getReg rd s, 4 * regNat rw s / 3)]
      (fun s =>
        .next (unpackInto (regNat rd s)
          (halfwordValues (regNat rw s) (memRead (regNat rs s) (2 * regNat rw s) s)) s)) s
  else .next (packerError mnemonicLengthInvalid s)

end Sys2Proof.Machine
end

