-- ==== Sys2Proof/Machine/Control.lean ====
section
/-! DEFINITION. The branches BEQ, BNE, BLTU, BGEU, BFS, BFC (41_control_system.md, R240 to R247): no write but pc. -/

namespace Sys2Proof.Machine

/-- `BEQ rs1, rs2, label` (R242). -/
def execBeq (rs1 rs2 : RReg) (off : BitVec 16) (s : State) : Result :=
  .next (branchIf (decide (regNat rs1 s = regNat rs2 s)) off s)

/-- `BNE rs1, rs2, label` (R243). -/
def execBne (rs1 rs2 : RReg) (off : BitVec 16) (s : State) : Result :=
  .next (branchIf (decide (regNat rs1 s ≠ regNat rs2 s)) off s)

/-- `BLTU rs1, rs2, label`, unsigned (R244). -/
def execBltu (rs1 rs2 : RReg) (off : BitVec 16) (s : State) : Result :=
  .next (branchIf (decide (regNat rs1 s < regNat rs2 s)) off s)

/-- `BGEU rs1, rs2, label`, unsigned (R245). -/
def execBgeu (rs1 rs2 : RReg) (off : BitVec 16) (s : State) : Result :=
  .next (branchIf (decide (regNat rs1 s ≥ regNat rs2 s)) off s)

/-- `BFS cond, label`: branch if the flag is 1 (R246). -/
def execBfs (cond : Cond) (off : BitVec 16) (s : State) : Result :=
  .next (branchIf (condFlag cond s.flags) off s)

/-- `BFC cond, label`: branch if the flag is 0 (R247). -/
def execBfc (cond : Cond) (off : BitVec 16) (s : State) : Result :=
  .next (branchIf (!condFlag cond s.flags) off s)

end Sys2Proof.Machine
end

