-- ==== Sys2Proof/Machine/Dmem.lean ====
section
/-! DEFINITION. The data-memory instructions LB, LW, SB, SW, MCPY (40_integer_memory.md, R209 to R214): any alignment,
big-endian, region check first, no flag written. -/

namespace Sys2Proof.Machine

/-- `LB rd, [rb+off]`: zero-extended (R210). -/
def execLb (rd rb : RReg) (off : BitVec 16) (s : State) : Result :=
  let ea := effAddr (getReg rb s) off
  withRegions [(ea, 1)]
    (fun s => .next (seqNext (setReg rd (BitVec.ofNat 32 (intBE (memRead ea.toNat 1 s))) s))) s

/-- `LW rd, [rb+off]` (R211). -/
def execLw (rd rb : RReg) (off : BitVec 16) (s : State) : Result :=
  let ea := effAddr (getReg rb s) off
  withRegions [(ea, 4)]
    (fun s => .next (seqNext (setReg rd (BitVec.ofNat 32 (intBE (memRead ea.toNat 4 s))) s))) s

/-- `SB rt, [rb+off]`: bits 31:8 of rt are ignored (R212). -/
def execSb (rt rb : RReg) (off : BitVec 16) (s : State) : Result :=
  let ea := effAddr (getReg rb s) off
  withRegions [(ea, 1)]
    (fun s => .next (seqNext (memWrite ea.toNat (beBytes 1 (regNat rt s)) s))) s

/-- `SW rt, [rb+off]` (R213). -/
def execSw (rt rb : RReg) (off : BitVec 16) (s : State) : Result :=
  let ea := effAddr (getReg rb s) off
  withRegions [(ea, 4)]
    (fun s => .next (seqNext (memWrite ea.toNat (beBytes 4 (regNat rt s)) s))) s

/-- `MCPY rd, rs, rl`: source region checked first, whole source read before any write (R214). -/
def execMcpy (rd rs rl : RReg) (s : State) : Result :=
  withRegions [(getReg rs s, regNat rl s), (getReg rd s, regNat rl s)]
    (fun s => .next (seqNext (memWrite (regNat rd s) (memRead (regNat rs s) (regNat rl s) s) s))) s

end Sys2Proof.Machine
end

