-- ==== Sys2Proof/Machine/Integer.lean ====
section
/-! DEFINITION. The integer instructions LUI, ORI, ADDI, ADD, SUB (40_integer_memory.md, R199 to R204): 32-bit arithmetic
modulo 2^32, no flag written. -/

namespace Sys2Proof.Machine

/-- `LUI rd, imm16` (R200). -/
def execLui (rd : RReg) (imm : BitVec 16) (s : State) : Result :=
  .next (seqNext (setReg rd (upperImm imm) s))

/-- `ORI rd, rs, imm16` (R201). -/
def execOri (rd rs : RReg) (imm : BitVec 16) (s : State) : Result :=
  .next (seqNext (setReg rd (getReg rs s ||| zextImm imm) s))

/-- `ADDI rd, rs, simm16` (R202). -/
def execAddi (rd rs : RReg) (imm : BitVec 16) (s : State) : Result :=
  .next (seqNext (setReg rd (getReg rs s + sextImm imm) s))

/-- `ADD rd, rs1, rs2` (R203). -/
def execAdd (rd rs1 rs2 : RReg) (s : State) : Result :=
  .next (seqNext (setReg rd (getReg rs1 s + getReg rs2 s) s))

/-- `SUB rd, rs1, rs2` (R204). -/
def execSub (rd rs1 rs2 : RReg) (s : State) : Result :=
  .next (seqNext (setReg rd (getReg rs1 s - getReg rs2 s) s))

end Sys2Proof.Machine
end

