-- ==== Sys2Proof/Machine/Ports.lean ====
section
/-! DEFINITION. The port instructions ENTROPY and PUBK (45_ports.md, R450 to R456). While the collaborator has not
answered, the instruction waits: it is in progress, and the next turn of the engine looks again (log entry 9). -/

namespace Sys2Proof.Machine

/-- What ENTROPY does with the source's answer to a request of `n` bytes (R452). -/
def entropyFill (a n : Nat) (answer : EntropyAnswer) (s : State) : Result :=
  match answer with
  | .waiting => .next (keepWaiting s)
  | .failed => .next (raise .backendFailure 0#32 s)
  | .bytes bs => if bs.length = n then .next (seqNext (memWrite a bs s)) else .refused .answerLength

/-- `ENTROPY rd, rl` (R452): no request for 0 bytes. -/
def execEntropy (rd rl : RReg) (s : State) : Result :=
  withRegions [(getReg rd s, regNat rl s)]
    (fun s =>
      if regNat rl s = 0 then .next (seqNext s)
      else entropyFill (regNat rd s) (regNat rl s) (entropyAnswer (regNat rl s) s) (entropyLooked s)) s

/-- What PUBK does with the curve port's answer (R454): the 33 bytes are `CURVE(k)` (R453). -/
def curveFill (a : Nat) (k : Scalar) (answer : CurveAnswer) (s : State) : State :=
  match answer with
  | .waiting => keepWaiting s
  | .failed => raise .backendFailure 1#32 s
  | .point => seqNext (memWrite a (Config.curve k).toList s)

/-- `PUBK rd, ks` (R454): region, then scalar range, then the request. -/
def execPubk (rd : RReg) (ks : KReg) (s : State) : Result :=
  withRegions [(getReg rd s, 33)]
    (fun s =>
      if 0 < scalarNat ks s ∧ scalarNat ks s < Config.curveOrder then
        .next (curveFill (regNat rd s) (getK ks s) (curveAnswer s) (curveLooked s))
      else .next (raise .scalarRange 0#32 s)) s

end Sys2Proof.Machine
end

