-- ==== Sys2Proof/Machine/System.lean ====
section
/-! DEFINITION. The system instructions HALT, SETERR, CSRR (41_control_system.md, R248 to R253). -/

namespace Sys2Proof.Machine

/-- An instruction whose immediate decode would have found illegal raises ILLEGAL_INSTRUCTION with info 0 before any
effect (R141, R505). The decoder never yields such a term; its meaning is total all the same (log entry 13). -/
def ifLegal (i : Instr) (rest : State → Result) (s : State) : Result :=
  if i.wellFormed then rest s else .next (raise .illegalInstruction 0#32 s)

/-- `HALT rs`: the run ends as DONE with the exit code `x[rs][7:0]`; no next pc is computed (R249, R520). -/
def execHalt (rs : RReg) (s : State) : Result :=
  .next (endDone ((getReg rs s).extractLsb' 0 8) s)

/-- `SETERR code` (R250). -/
def execSeterr (imm : BitVec 16) (s : State) : Result :=
  ifLegal (.seterr imm) (fun s => .next (seqNext (setChecked (imm.extractLsb' 0 8) s))) s

/-- `CSRR rd, csr` (R252). HOSTERR and ABORTREQ are as the host's moves have latched them by now (log entry 5). -/
def execCsrr (rd : RReg) (csr : BitVec 16) (s : State) : Result :=
  ifLegal (.csrr rd csr) (fun s => .next (seqNext (setReg rd (csrValue csr.toNat s) s))) s

end Sys2Proof.Machine
end

