-- ==== Sys2Proof/Machine/Scalar.lean ====
section
/-! DEFINITION. The 256-bit modular arithmetic unit: KLD, KST, KMOV, KLDC, KADD, KADDM, KCMP, KCHK, KRED
(43_modarith.md, R349 to R361). Every result is computed exactly, then reduced as its rule says. -/

namespace Sys2Proof.Machine

/-- `KLD kd, [rb+off]`, big-endian (R350). -/
def execKld (kd : KReg) (rb : RReg) (off : BitVec 16) (s : State) : Result :=
  let ea := effAddr (getReg rb s) off
  withRegions [(ea, 32)]
    (fun s => .next (seqNext (setK kd (BitVec.ofNat 256 (intBE (memRead ea.toNat 32 s))) s))) s

/-- `KST ks, [rb+off]`, big-endian, always 32 bytes (R351). -/
def execKst (ks : KReg) (rb : RReg) (off : BitVec 16) (s : State) : Result :=
  let ea := effAddr (getReg rb s) off
  withRegions [(ea, 32)]
    (fun s => .next (seqNext (memWrite ea.toNat (beBytes 32 (scalarNat ks s)) s))) s

/-- `KMOV kd, ks` (R352). -/
def execKmov (kd ks : KReg) (s : State) : Result := .next (seqNext (setK kd (getK ks s) s))

/-- The constants of `KLDC`: 0 is zero, 1 is the curve order (R356). -/
def scalarConst (sel : Nat) : Nat := if sel = 0 then 0 else Config.curveOrder

/-- `KLDC kd, sel` (R356). -/
def execKldc (kd : KReg) (sel : BitVec 16) (s : State) : Result :=
  ifLegal (.kldc kd sel) (fun s => .next (seqNext (setK kd (BitVec.ofNat 256 (scalarConst sel.toNat)) s))) s

/-- `KADD kd, ka, kb`: modulo 2^256, C the carry (R357). -/
def execKadd (kd ka kb : KReg) (s : State) : Result :=
  let sum := scalarNat ka s + scalarNat kb s
  .next (seqNext (setFlags (kaddFlags sum s.flags) (setK kd (BitVec.ofNat 256 (sum % 2 ^ 256)) s)))

/-- `KADDM kd, ka, kb`: the true residue modulo n of the exact sum (R358). -/
def execKaddm (kd ka kb : KReg) (s : State) : Result :=
  let sum := scalarNat ka s + scalarNat kb s
  .next (seqNext (setFlags (residueFlags sum s.flags) (setK kd (BitVec.ofNat 256 (sum % Config.curveOrder)) s)))

/-- `KCMP ka, kb`, unsigned (R359). -/
def execKcmp (ka kb : KReg) (s : State) : Result :=
  .next (seqNext (setFlags (kcmpFlags (scalarNat ka s) (scalarNat kb s) s.flags) s))

/-- `KCHK ka` (R360). -/
def execKchk (ka : KReg) (s : State) : Result :=
  .next (seqNext (setFlags (kchkFlags (scalarNat ka s) s.flags) s))

/-- `KRED kd, ka` (R361). -/
def execKred (kd ka : KReg) (s : State) : Result :=
  let a := scalarNat ka s
  .next (seqNext (setFlags (residueFlags a s.flags) (setK kd (BitVec.ofNat 256 (a % Config.curveOrder)) s)))

end Sys2Proof.Machine
end

