-- ==== Sys2Proof/Machine/Dispatch.lean ====
section
/-! DEFINITION. The dispatch of the 36 instructions to their meanings, one arm per constructor (R140). -/

namespace Sys2Proof.Machine

def exec (i : Instr) (s : State) : Host.Outcome State Fault Refusal :=
  match i with
  | .lui rd imm => Sys2Proof.Machine.execLui rd imm s
  | .ori rd rs imm => Sys2Proof.Machine.execOri rd rs imm s
  | .addi rd rs imm => Sys2Proof.Machine.execAddi rd rs imm s
  | .add rd rs1 rs2 => Sys2Proof.Machine.execAdd rd rs1 rs2 s
  | .sub rd rs1 rs2 => Sys2Proof.Machine.execSub rd rs1 rs2 s
  | .lb rd rb off => Sys2Proof.Machine.execLb rd rb off s
  | .lw rd rb off => Sys2Proof.Machine.execLw rd rb off s
  | .sb rt rb off => Sys2Proof.Machine.execSb rt rb off s
  | .sw rt rb off => Sys2Proof.Machine.execSw rt rb off s
  | .mcpy rd rs rl => Sys2Proof.Machine.execMcpy rd rs rl s
  | .beq rs1 rs2 off => Sys2Proof.Machine.execBeq rs1 rs2 off s
  | .bne rs1 rs2 off => Sys2Proof.Machine.execBne rs1 rs2 off s
  | .bltu rs1 rs2 off => Sys2Proof.Machine.execBltu rs1 rs2 off s
  | .bgeu rs1 rs2 off => Sys2Proof.Machine.execBgeu rs1 rs2 off s
  | .bfs cond off => Sys2Proof.Machine.execBfs cond off s
  | .bfc cond off => Sys2Proof.Machine.execBfc cond off s
  | .halt rs => Sys2Proof.Machine.execHalt rs s
  | .seterr imm => Sys2Proof.Machine.execSeterr imm s
  | .csrr rd csr => Sys2Proof.Machine.execCsrr rd csr s
  | .kld kd rb off => Sys2Proof.Machine.execKld kd rb off s
  | .kst ks rb off => Sys2Proof.Machine.execKst ks rb off s
  | .kmov kd ks => Sys2Proof.Machine.execKmov kd ks s
  | .kldc kd sel => Sys2Proof.Machine.execKldc kd sel s
  | .kadd kd ka kb => Sys2Proof.Machine.execKadd kd ka kb s
  | .kaddm kd ka kb => Sys2Proof.Machine.execKaddm kd ka kb s
  | .kcmp ka kb => Sys2Proof.Machine.execKcmp ka kb s
  | .kchk ka => Sys2Proof.Machine.execKchk ka s
  | .kred kd ka => Sys2Proof.Machine.execKred kd ka s
  | .sha256 rd rs rl => Sys2Proof.Machine.execSha256 rd rs rl s
  | .sha512 rd rs rl => Sys2Proof.Machine.execSha512 rd rs rl s
  | .hmac512 rd rk rkl rm rml => Sys2Proof.Machine.execHmac512 rd rk rkl rm rml s
  | .pbkdf2 rd rp rpl rs rsl rc => Sys2Proof.Machine.execPbkdf2 rd rp rpl rs rsl rc s
  | .b39enc rd rs rl => Sys2Proof.Machine.execB39enc rd rs rl s
  | .b39dec rd rs rw => Sys2Proof.Machine.execB39dec rd rs rw s
  | .entropy rd rl => Sys2Proof.Machine.execEntropy rd rl s
  | .pubk rd ks => Sys2Proof.Machine.execPubk rd ks s

end Sys2Proof.Machine
end

