-- ==== Sys2Proof/Machine/HostWindow.lean ====
section
/-! DEFINITION. The host register window: its map (R100), the host's reads and writes (R40 to R55, R101 to R105), and the
refusals while BUSY (R104, R512). What a read of `PC` while BUSY shows is an argument, `shown`: it is a draw (R53), given
in RunAhead.lean. -/

namespace Sys2Proof.Machine

/-- What a window offset names (R100). -/
inductive WindowPart where
  /-- CSR number 0 to 13 (R40) -/
  | csr (c : Nat)
  /-- IMEM word index (R103) -/
  | imem (i : Nat)
  /-- the DMEM address of the word's first byte (R102) -/
  | dmem (a : Nat)
  /-- 0x038..0x3FF and 0x800..0xFFF (R55, R105) -/
  | reserved
  deriving DecidableEq, Repr

/-- The map of the window, for word-aligned offsets below 0x2000 (R100). -/
def windowPart (off : Nat) : WindowPart :=
  if off < 0x38 then .csr (off / 4)
  else if off < 0x400 then .reserved
  else if off < 0x800 then .imem ((off - 0x400) / 4)
  else if off < 0x1000 then .reserved
  else .dmem (4 * ((off - 0x1000) / 4))

/-- After a host read of `PC` while BUSY: later reads return pcs from the instruction running now on (R53). -/
def pcAnswered (s : State) : State :=
  { s with pcTrail := [s.pc], env := { s.env with draws := s.env.draws + 1 } }

/-- The data a host read of the window is answered with, and the state after it. -/
def hostAnswer (shown : State → Byte) (off : Nat) (s : State) : Word × State :=
  match windowPart off with
  | .csr c =>
    if c = 11 ∧ s.status.busy then ((shown s).zeroExtend 32, pcAnswered s) else (csrValue c s, s)
  | .imem i => if s.status.busy then (0#32, latchHostErr s) else (imemWord s i, s)
  | .dmem a => if s.status.busy then (0#32, latchHostErr s) else (BitVec.ofNat 32 (intBE (memRead a 4 s)), s)
  | .reserved => (0#32, latchHostErr s)

/-- The state after a host write of the window. Writes to the read-only CSRs are ignored (R44). -/
def hostWrite (off : Nat) (v : Word) (s : State) : State :=
  match windowPart off with
  | .csr c => if c = 1 then writeCtrl v s else if c = 10 then setEntry v s else s
  | .imem i => if s.status.busy then latchHostErr s else setImem i v s
  | .dmem a => if s.status.busy then latchHostErr s else memWrite a (beBytes 4 v.toNat) s
  | .reserved => latchHostErr s

/-- The window offset of a bus address, for a window at `base` (R100). -/
def windowOffset (base addr : Nat) : Option Nat :=
  if base ≤ addr ∧ addr < base + Config.windowSize then some (addr - base) else none

/-- One host access to the window at offset `off`: 32 bits wide and aligned, or the model gives it no move (R101, I10). -/
def windowAccess (shown : State → Byte) (off width : Nat) (value : Option Word) (s : State) : Result :=
  if width = 4 ∧ off % 4 = 0 then
    match value with
    | none => .next (setBusData (hostAnswer shown off s).1 (hostAnswer shown off s).2)
    | some v => .next (hostWrite off v s)
  else .refused .hostAccess

/-- One host access on the bus; one that is not to the window does not reach the HSP (R100; log entry 3). -/
def hostAccess (shown : State → Byte) (a : BusAccess) (s : State) : Result :=
  match windowOffset Config.hspBase a.addr with
  | none => .next s
  | some off => windowAccess shown off a.width a.value s

end Sys2Proof.Machine
end

