-- ==== Sys2Proof/Machine/Engine.lean ====
section
/-! DEFINITION. The engine's turn (R18, R35, R515, R520) and the moves of the machine (log entry 4). -/

namespace Sys2Proof.Machine

/-- The engine runs the instruction at pc: fetch (R92), decode, execute; an illegal word raises ILLEGAL_INSTRUCTION with
info 0 before any effect (R141, R505). -/
def runInstruction (s : State) : Result :=
  match decode (fetchWord s) with
  | .ok i => exec i s
  | .error _ => .next (raise .illegalInstruction 0#32 s)

/-- The engine stands at an instruction boundary with an abort latched (R515). -/
def abortDue (s : State) : Bool := s.status.abortReq && !s.inFlight

/-- The engine's turn. Idle, it changes nothing (R539). At a boundary with an abort latched it takes the ABORTED fault,
before any fetch (R515). Else it ends the instruction in progress, or runs the next one. -/
def engineTurn (s : State) : Result :=
  if s.status.busy then
    if abortDue s then .next (abortEntry s) else runInstruction s
  else .next s

/-- The engine passes the boundary test and begins the instruction at pc; host accesses that follow land while it is in
progress (R515). Idle, or with an instruction in progress already, there is no boundary. -/
def passBoundary (s : State) : State :=
  if s.status.busy then
    if abortDue s then abortEntry s else { s with inFlight := true }
  else s

/-- One move of the machine (log entry 4); `shown` is what a host read of `PC` while BUSY shows. -/
def takeMove (shown : State → Byte) (m : Move) (s : State) : Result :=
  match m with
  | .host a => hostAccess shown a s
  | .reset => .next (hardReset s)
  | .boundary => .next (passBoundary s)
  | .engine => engineTurn s

/-- The next move the schedule of the world outside names, or the engine's turn when it names none (log entry 4). -/
def nextMove (shown : State → Byte) (s : State) : Result :=
  match s.env.inbox with
  | [] => engineTurn s
  | m :: rest => takeMove shown m (setInbox rest s)

end Sys2Proof.Machine
end

