-- ==== Sys2Proof/Machine/RunAhead.lean ====
section
/-! DEFINITION. What a host read of `PC` while BUSY shows (R53, R572, I7): the pc of any instruction of the current run at
or after the one running when the read before was answered, be it already reached or still to come (log entry 6). -/

namespace Sys2Proof.Machine

/-- The machine after `n` more moves of the current run, or where the run ends or the machine stops. The schedule and the
answers of the world outside are those of the state; what reads of `PC` show on the way changes nothing but the data
they are answered with. -/
def runAhead : Nat → State → State
  | 0, s => s
  | n + 1, s =>
    match nextMove (fun _ => 0#8) s with
    | .next t => if t.status.busy then runAhead n t else s
    | .fault _ => s
    | .refused _ => s

/-- Choice `n` among the pcs that R53 allows: those of the trail, then those of the run from here on. -/
def pcAt (n : Nat) (s : State) : Byte :=
  if n < s.pcTrail.length then s.pcTrail.getD n s.pc
  else (runAhead (n - s.pcTrail.length) (pcAnswered s)).pc

/-- The pc that the draw chooses (R53, I7). -/
def drawnPc (s : State) : Byte := pcAt (Config.pcChoice s.env.draws) s

/-- A host read of the window: the data it is answered with, and the state after it. -/
def hostRead (off : Nat) (s : State) : Word × State := hostAnswer drawnPc off s

end Sys2Proof.Machine
end

