-- ==== Sys2Proof/Machine/Step.lean ====
section
/-! DEFINITION. One step of the machine, and the placing of one instruction where it fetches. -/

namespace Sys2Proof.Machine

/-- One step of the machine: its next move (log entry 4), a host read of `PC` while BUSY showing the pc that the draw
chooses (log entry 6). -/
def step (s : State) : Host.Outcome State Fault Refusal := nextMove drawnPc s

/-- `s` with the instruction of bits `w` where the next step fetches (log entry 7). -/
def State.withFetchWord (s : State) (nbits w : Nat) : State := placeWord (BitVec.ofNat 32 (w % 2 ^ nbits)) s

end Sys2Proof.Machine
end

