-- ==== Sys2Proof/Safety.lean ====
section
/-! DEFINITION. The terms the claims use: the invariant of the machine, what an instruction leaves unchanged, what taking
a fault leaves, SHA-2 as the relation its rules give, runs, and the duties of the world outside. -/

namespace Sys2Proof.Machine

/-! ## The invariant -/

/-- What holds of the machine after reset and after every step. -/
structure Inv (s : State) : Prop where
  /-- DMEM is canonical, with no cell outside its 4096 bytes (R56) -/
  dmemWf : Memory.wf Config.dmemSize s.dmem
  /-- IMEM is canonical, with no cell outside its 256 words (R56) -/
  imemWf : Memory.wf Config.imemWords s.imem
  /-- R0's own storage is zero too (R31) -/
  zeroReg : s.regs.get 0 = 0#32
  /-- at most one of BUSY, DONE and FAULT is 1 (R43) -/
  onePhase : ¬(s.status.busy = true ∧ s.status.done = true) ∧ ¬(s.status.busy = true ∧ s.status.fault = true) ∧
    ¬(s.status.done = true ∧ s.status.fault = true)
  /-- IRQ is raised by the end of a run only (R43, R525) -/
  irqAtEnd : s.status.irq = true → s.status.done = true ∨ s.status.fault = true
  /-- an abort is latched only while BUSY (R43, R515) -/
  abortBusy : s.status.abortReq = true → s.status.busy = true
  /-- an instruction is in progress only while BUSY (R57, R520) -/
  flightBusy : s.inFlight = true → s.status.busy = true
  /-- the flag E says ERR is not zero (R37, R501) -/
  errFlag : s.flags.e = decide (s.err ≠ 0#8)
  /-- EXIT is nonzero only after a HALT (R47) -/
  exitDone : s.exitCode ≠ 0#8 → s.status.done = true
  /-- after a fault the cause is recorded and pc is FAULT_PC (R48, R510) -/
  faultRecorded : s.status.fault = true → s.faultRegs.cause ≠ .none ∧ s.faultRegs.pc = s.pc
  /-- without one, the fault registers are clear (R48 to R51, R562) -/
  faultClear : s.status.fault = false → s.faultRegs = noFault
  /-- while BUSY, the instruction at pc is one a host read of PC may return (R53) -/
  pcOnTrail : s.status.busy = true → s.pc ∈ s.pcTrail

/-! ## Frames -/

/-- What no instruction changes by completing, HALT apart: CTRL.IE, STATUS, EXIT, the fault registers, ENTRY, IMEM, and
the world outside. -/
def ControlKept (s t : State) : Prop :=
  t.ie = s.ie ∧ t.status = s.status ∧ t.exitCode = s.exitCode ∧ t.faultRegs = s.faultRegs ∧ t.entry = s.entry ∧
    (∀ i, imemWord t i = imemWord s i) ∧ t.env = s.env

/-- Every general register outside `rs`, every scalar register outside `ks`, and every byte of DMEM outside the `n`
bytes from `a` reads as before. With `n = 0` that is every byte. -/
def DataKept (rs : List RReg) (ks : List KReg) (a n : Nat) (s t : State) : Prop :=
  (∀ r, r ∉ rs → getReg r t = getReg r s) ∧ (∀ k, k ∉ ks → getK k t = getK k s) ∧
    ∀ x, x < a ∨ a + n ≤ x → dmemByte t x = dmemByte s x

/-- The instruction has completed and the next one is at pc + 1. -/
def GoesOn (s t : State) : Prop := t.pc.toNat = s.pc.toNat + 1 ∧ t.inFlight = false

/-- The frame of an instruction that completes in sequence, writing at most the general registers `rs`, the scalar
registers `ks` and `n` bytes from `a`. The flags and ERR are said apart. -/
def Frame (rs : List RReg) (ks : List KReg) (a n : Nat) (s t : State) : Prop :=
  DataKept rs ks a n s t ∧ ControlKept s t ∧ GoesOn s t

/-- Flags and ERR as before. -/
def ResultsKept (s t : State) : Prop := t.flags = s.flags ∧ t.err = s.err

/-- What fault entry leaves (R510): the run ended as FAULT, the four fault registers written, and R, K, the flags, ERR,
EXIT, DMEM, IMEM, ENTRY, CTRL.IE and pc as before. -/
def FaultTaken (cause : FaultCause) (insn info : Word) (s t : State) : Prop :=
  t.status = { s.status with busy := false, fault := true, irq := true, abortReq := false } ∧
    t.faultRegs = { cause := cause, pc := s.pc, insn := insn, info := info } ∧
    t.pc = s.pc ∧ t.inFlight = false ∧ t.exitCode = s.exitCode ∧ ResultsKept s t ∧ DataKept [] [] 0 0 s t ∧
    (∀ i, imemWord t i = imemWord s i) ∧ t.entry = s.entry ∧ t.ie = s.ie

/-! ## What an instruction does when it completes -/

/-- `i` completes: the general register `rd` holds `v` (R0 reads 0), and nothing else has changed but pc. -/
def WritesReg (i : Instr) (rd : RReg) (v : Int) (s : State) : Prop :=
  ∃ t, exec i s = .next t ∧ ((getReg rd t).toNat : Int) = (if rd = 0 then 0 else v) ∧ Frame [rd] [] 0 0 s t ∧
    ResultsKept s t

/-- `i` completes: the scalar register `kd` holds `v`, the flags are `f`, and nothing else has changed but pc. -/
def WritesScalar (i : Instr) (kd : KReg) (v : Nat) (f : Flags) (s : State) : Prop :=
  ∃ t, exec i s = .next t ∧ scalarNat kd t = v ∧ t.flags = f ∧ t.err = s.err ∧ Frame [] [kd] 0 0 s t

/-- `i` completes: the flags are `f`, ERR is `e`, and nothing else has changed but pc. -/
def WritesFlags (i : Instr) (f : Flags) (e : Byte) (s : State) : Prop :=
  ∃ t, exec i s = .next t ∧ t.flags = f ∧ t.err = e ∧ Frame [] [] 0 0 s t

/-- `i` completes: the `n` bytes of DMEM from `a` are `bs`, the flags are `f`, ERR is `e`, and nothing else has changed
but pc. -/
def WritesRegion (i : Instr) (a n : Nat) (bs : List Byte) (f : Flags) (e : Byte) (s : State) : Prop :=
  ∃ t, exec i s = .next t ∧ bs.length = n ∧ (∀ j, j < n → dmemByte t (a + j) = bs.getD j 0#8) ∧ t.flags = f ∧
    t.err = e ∧ Frame [] [] a n s t

/-- The region of `n` bytes from `a` lies in DMEM (R94). -/
def Fits (a : Word) (n : Nat) : Prop := a.toNat + n ≤ 4096

/-- `i` raises a fault, precisely: fault entry is all that happens (R507, R510). No port is asked: the world outside is
as before. -/
def FaultsAt (i : Instr) (cause : FaultCause) (info : Word) (s : State) : Prop :=
  ∃ t, exec i s = .next t ∧ FaultTaken cause (fetchWord s) info s t ∧ t.env = s.env

/-- `i` checks the regions `rs` in order, and the first that does not fit is the DMEM_BOUNDS it reports (R506). -/
def ReportsFirstBad (i : Instr) (rs : List (Word × Nat)) (s : State) : Prop :=
  ∀ ok a n rest, rs = ok ++ (a, n) :: rest → (∀ r ∈ ok, Fits r.1 r.2) → ¬Fits a n → FaultsAt i .dmemBounds a s

/-- `i` is a branch by `off` words, taken when `p` holds: it goes to its target if that is in IMEM, and else raises
PC_RANGE; pc is all it writes (R240, R241). -/
def BranchesOn (i : Instr) (p : Prop) (off : BitVec 16) (s : State) : Prop :=
  ∀ target : Int, (p → target = s.pc.toNat + off.toInt) → (¬p → target = s.pc.toNat + 1) →
    (0 ≤ target ∧ target ≤ 255 → ∃ t, exec i s = .next t ∧ (t.pc.toNat : Int) = target ∧ t.inFlight = false ∧
      DataKept [] [] 0 0 s t ∧ ResultsKept s t ∧ ControlKept s t) ∧
    (target < 0 ∨ 255 < target → FaultsAt i .pcRange (BitVec.ofInt 32 target) s)

/-! ## The opcode table (R132 to R141), as bits of the word -/

/-- A row of the table: its opcode, the bits that must be zero as (lowest bit, count), and the fields with a bound as
(lowest bit, count, bound). -/
structure Row where
  op : Nat
  zeros : List (Nat × Nat)
  bounds : List (Nat × Nat × Nat)
  deriving DecidableEq, Repr

/-- The bits `lo` to `lo + len - 1` of a word. -/
def bitsAt (w : Word) (lo len : Nat) : Nat := w.toNat / 2 ^ lo % 2 ^ len

/-- The 36 rows of R140 with the conditions of R132, R133, R136, R137, R138 and R141. -/
def opcodeRows : List Row :=
  [⟨0x01, [(18, 4), (16, 2)], []⟩, ⟨0x02, [(16, 2)], []⟩, ⟨0x03, [(16, 2)], []⟩, ⟨0x04, [(0, 14)], []⟩,
   ⟨0x05, [(0, 14)], []⟩, ⟨0x08, [(16, 2)], []⟩, ⟨0x09, [(16, 2)], []⟩, ⟨0x0A, [(16, 2)], []⟩, ⟨0x0B, [(16, 2)], []⟩,
   ⟨0x0C, [(0, 14)], []⟩, ⟨0x10, [(16, 2)], []⟩, ⟨0x11, [(16, 2)], []⟩, ⟨0x12, [(16, 2)], []⟩,
   ⟨0x13, [(16, 2)], []⟩] ++
  [⟨0x14, [(18, 4), (16, 2)], [(22, 4, 5)]⟩, ⟨0x15, [(18, 4), (16, 2)], [(22, 4, 5)]⟩, ⟨0x18, [(0, 22)], []⟩,
   ⟨0x19, [(22, 4), (18, 4), (16, 2), (8, 8)], []⟩, ⟨0x1A, [(18, 4), (16, 2)], [(0, 16, 14)]⟩,
   ⟨0x20, [(16, 2)], [(22, 4, 8)]⟩, ⟨0x21, [(16, 2)], [(22, 4, 8)]⟩, ⟨0x22, [(0, 18)], [(22, 4, 8), (18, 4, 8)]⟩,
   ⟨0x23, [(18, 4), (16, 2)], [(22, 4, 8), (0, 16, 2)]⟩, ⟨0x24, [(0, 14)], [(22, 4, 8), (18, 4, 8), (14, 4, 8)]⟩,
   ⟨0x25, [(0, 14)], [(22, 4, 8), (18, 4, 8), (14, 4, 8)]⟩, ⟨0x26, [(0, 18)], [(22, 4, 8), (18, 4, 8)]⟩,
   ⟨0x27, [(0, 22)], [(22, 4, 8)]⟩, ⟨0x28, [(0, 18)], [(22, 4, 8), (18, 4, 8)]⟩] ++
  [⟨0x30, [(0, 14)], []⟩, ⟨0x31, [(0, 14)], []⟩, ⟨0x32, [(0, 6)], []⟩, ⟨0x33, [(0, 2)], []⟩, ⟨0x38, [(0, 14)], []⟩,
   ⟨0x39, [(0, 14)], []⟩, ⟨0x3C, [(0, 18)], []⟩, ⟨0x3D, [(0, 18)], [(18, 4, 8)]⟩]

/-- The word is one that the row admits. -/
def Row.Admits (r : Row) (w : Word) : Prop :=
  bitsAt w 26 6 = r.op ∧ (∀ z ∈ r.zeros, bitsAt w z.1 z.2 = 0) ∧ ∀ b ∈ r.bounds, bitsAt w b.1 b.2.1 < b.2.2

/-! ## SHA-2 as its rules give it (R300 to R310), apart from how the model computes it -/

/-- What R301 to R303 and R306 to R308 fix for one word width: bytes of a word and of the length field, rounds, rotations
of Σ0 and Σ1, rotations and shift of σ0 and σ1, and the initial hash value. -/
structure ShaRule (w : Nat) where
  wordBytes : Nat
  lengthBytes : Nat
  rounds : Nat
  bigSigma0 : Nat × Nat × Nat
  bigSigma1 : Nat × Nat × Nat
  smallSigma0 : Nat × Nat × Nat
  smallSigma1 : Nat × Nat × Nat
  initial : Hash8 w

/-- SHA-256 (R301 to R303, R305). -/
def sha256Rule : ShaRule 32 where
  wordBytes := 4
  lengthBytes := 8
  rounds := 64
  bigSigma0 := (2, 13, 22)
  bigSigma1 := (6, 11, 25)
  smallSigma0 := (7, 18, 3)
  smallSigma1 := (17, 19, 10)
  initial := ⟨0x6a09e667#32, 0xbb67ae85#32, 0x3c6ef372#32, 0xa54ff53a#32, 0x510e527f#32, 0x9b05688c#32, 0x1f83d9ab#32,
    0x5be0cd19#32⟩

/-- SHA-512 (R306 to R308, R310). -/
def sha512Rule : ShaRule 64 where
  wordBytes := 8
  lengthBytes := 16
  rounds := 80
  bigSigma0 := (28, 34, 39)
  bigSigma1 := (14, 18, 41)
  smallSigma0 := (1, 8, 7)
  smallSigma1 := (19, 61, 6)
  initial := ⟨0x6a09e667f3bcc908#64, 0xbb67ae8584caa73b#64, 0x3c6ef372fe94f82b#64, 0xa54ff53a5f1d36f1#64,
    0x510e527fade682d1#64, 0x9b05688c2b3e6c1f#64, 0x1f83d9abfb41bd6b#64, 0x5be0cd19137e2179#64⟩

/-- The primes up to the 80th, by trial division. -/
def firstPrimes : List Nat :=
  (List.range 410).filter (fun p => 2 ≤ p && (List.range p).all (fun d => d < 2 || p % d != 0))

/-- `x` is the first w bits of the fractional part of the cube root of `p` (R304, R309): `a` is its integer part. -/
def IsCubeRootFraction {w : Nat} (p : Nat) (x : BitVec w) : Prop :=
  ∃ a, a < p ∧ (a * 2 ^ w + x.toNat) ^ 3 ≤ p * 2 ^ (3 * w) ∧ p * 2 ^ (3 * w) < (a * 2 ^ w + x.toNat + 1) ^ 3

/-- Σ of the rotations `r` (R300, R301, R306). -/
def bigSigma {w : Nat} (r : Nat × Nat × Nat) (x : BitVec w) : BitVec w :=
  x.rotateRight r.1 ^^^ x.rotateRight r.2.1 ^^^ x.rotateRight r.2.2

/-- σ of two rotations and a shift (R300, R301, R306). -/
def smallSigma {w : Nat} (r : Nat × Nat × Nat) (x : BitVec w) : BitVec w :=
  x.rotateRight r.1 ^^^ x.rotateRight r.2.1 ^^^ x >>> r.2.2

/-- One round, from the working variables `s` to `t` (R305). -/
def IsRound {w : Nat} (r : ShaRule w) (k word : BitVec w) (s t : Hash8 w) : Prop :=
  ∃ t1 t2 : BitVec w,
    t1 = s.h + bigSigma r.bigSigma1 s.e + ((s.e &&& s.f) ^^^ (~~~s.e &&& s.g)) + k + word ∧
    t2 = bigSigma r.bigSigma0 s.a + ((s.a &&& s.b) ^^^ (s.a &&& s.c) ^^^ (s.b &&& s.c)) ∧
    t = ⟨t1 + t2, s.a, s.b, s.c, s.d + t1, s.e, s.f, s.g⟩

/-- `digest` is the digest of the message `m`: there are the padded blocks, the round constants `K`, the hash values `H`, the
schedule words `W` and the working variables `V` of R302 to R305 and R307 to R310. -/
def IsDigest {w : Nat} (r : ShaRule w) (m digest : List Byte) : Prop :=
  ∃ (pad blocks : Nat) (padded : List Byte) (K : Nat → BitVec w) (H : Nat → Hash8 w) (W : Nat → Nat → BitVec w)
    (V : Nat → Nat → Hash8 w),
    padded = m ++ [0x80#8] ++ List.replicate pad 0#8 ++ beBytes r.lengthBytes (8 * m.length) ∧
    padded.length = blocks * (16 * r.wordBytes) ∧
    (∀ q, (m.length + 1 + q + r.lengthBytes) % (16 * r.wordBytes) = 0 → pad ≤ q) ∧
    (∀ t, t < r.rounds → IsCubeRootFraction (firstPrimes.getD t 0) (K t)) ∧
    H 0 = r.initial ∧
    (∀ i, i < blocks →
      (∀ t, t < 16 →
        W i t = BitVec.ofNat w (intBE ((padded.drop (16 * r.wordBytes * i + r.wordBytes * t)).take r.wordBytes))) ∧
      (∀ t, 16 ≤ t → t < r.rounds → W i t =
        smallSigma r.smallSigma1 (W i (t - 2)) + W i (t - 7) + smallSigma r.smallSigma0 (W i (t - 15)) + W i (t - 16)) ∧
      V i 0 = H i ∧
      (∀ t, t < r.rounds → IsRound r (K t) (W i t) (V i t) (V i (t + 1))) ∧
      H (i + 1) = ⟨(H i).a + (V i r.rounds).a, (H i).b + (V i r.rounds).b, (H i).c + (V i r.rounds).c,
        (H i).d + (V i r.rounds).d, (H i).e + (V i r.rounds).e, (H i).f + (V i r.rounds).f, (H i).g + (V i r.rounds).g,
        (H i).h + (V i r.rounds).h⟩) ∧
    digest = [(H blocks).a, (H blocks).b, (H blocks).c, (H blocks).d, (H blocks).e, (H blocks).f, (H blocks).g,
      (H blocks).h].flatMap (fun x => beBytes r.wordBytes x.toNat)

/-! ## The turns of the engine, and runs -/

/-- The engine is due to run the instruction at pc: a run is on, and no abort stands at this boundary. -/
def RunsNow (s : State) : Prop := s.status.busy = true ∧ (s.status.abortReq = false ∨ s.inFlight = true)

/-- `t` is reached from `s` in finitely many steps. -/
inductive Reaches : State → State → Prop where
  | here (s : State) : Reaches s s
  | later {s t u : State} (h : step s = .next t) (k : Reaches t u) : Reaches s u

/-- The current run of `s` is at `p` now or at a later step of it (R53). -/
inductive Ahead : State → Byte → Prop where
  | here (s : State) : Ahead s s.pc
  | later {s t : State} {p : Byte} (h : step s = .next t) (b : t.status.busy = true) (k : Ahead t p) : Ahead s p

/-- From `s` to `u` the steps end `n` instructions, or the run; the others leave an instruction in progress. -/
inductive Completes : Nat → State → State → Prop where
  | here (s : State) : Completes 0 s s
  | waits {n : Nat} {s t u : State} (h : step s = .next t) (w : t.inFlight = true) (k : Completes n t u) : Completes n s u
  | ends {n : Nat} {s t u : State} (h : step s = .next t) (w : t.inFlight = false) (k : Completes n t u) :
    Completes (n + 1) s u

/-! ## The duties of the world outside (R566, R581, I10 to I12) -/

/-- A bus access that is not to the window, or is 32 bits wide and aligned there (R101). -/
def DutifulAccess (a : BusAccess) : Prop :=
  ∀ off, windowOffset Config.hspBase a.addr = some off → a.width = 4 ∧ off % 4 = 0

/-- The instruction at pc asks the entropy source for `n` bytes: it is run, its region fits, and `n` is not 0 (R450,
R452). -/
def RequestsEntropy (n : Nat) (s : State) : Prop :=
  RunsNow s ∧ ∃ rd rl, decode (fetchWord s) = .ok (.entropy rd rl) ∧ n = regNat rl s ∧ n ≠ 0 ∧ Fits (getReg rd s) n

/-- The instruction at pc asks the curve port: it is run, its region fits, and its scalar is in range (R450, R454). -/
def RequestsCurve (s : State) : Prop :=
  RunsNow s ∧ ∃ rd ks, decode (fetchWord s) = .ok (.pubk rd ks) ∧ Fits (getReg rd s) 33 ∧ 0 < scalarNat ks s ∧
    scalarNat ks s < Config.curveOrder

/-- The entropy source answers a request of `n` bytes that stands now: at some look from now on there is a failure or `n`
bytes, supplied or drawn, after looks that found nothing (R450, R451, R566). -/
def AnswersEntropy (n : Nat) (s : State) : Prop :=
  ∃ k, (∀ a ∈ s.env.entropyIn.take k, a = .waiting) ∧
    match s.env.entropyIn[k]? with
    | some a => a = .failed ∨ ∃ bs, a = .bytes bs ∧ bs.length = n
    | none => Config.portAnswers (s.env.draws + k) = true

/-- The curve port answers a request that stands now, at some look from now on (R450, R453). -/
def AnswersCurve (s : State) : Prop :=
  ∃ k, match s.env.curveIn[k]? with
    | some a => a ≠ .waiting
    | none => Config.portAnswers (s.env.draws + k) = true

/-- The request of the instruction at pc, if it makes one, is answered eventually (R581). -/
def RequestAnswered (s : State) : Prop :=
  (∀ n, RequestsEntropy n s → AnswersEntropy n s) ∧ (RequestsCurve s → AnswersCurve s)

/-- The weak-fairness premise of R581, of everything that follows `s`: the collaborators answer every request that
stands until it is answered. A schedule is finite, so such a request stands when it is used up; one that a scheduled
hardware reset abandons needs no answer (R560). -/
def Fair (s : State) : Prop := ∀ t, Reaches s t → t.env.inbox = [] → RequestAnswered t

end Sys2Proof.Machine
end

