-- ==== Sys2Proof/Certificates/Slice0/Obligations.lean ====
section
/-! DEFINITION. The statements for the provers, in the order of the spec's files. Each docstring names the rules of spec/
it rests on. -/

open Sys2Proof Sys2Proof.Machine

/-! ## Encoding (30_encoding.md) -/

/-- R136, R140: the one word of a legal instruction decodes to it, with every operand at every value. -/
def Obligations.DecodingAnEncodingGivesTheInstruction : Prop :=
  ∀ i : Instr, i.wellFormed = true → decode (encode i) = .ok i

/-- R142: a word is the single encoding of one legal instruction, or it is illegal and the engine faults on it. -/
def Obligations.EveryWordIsOneInstructionOrFaults : Prop :=
  ∀ w : Word,
    (∃ i, decode w = .ok i ∧ i.wellFormed = true ∧ encode i = w ∧
      ∀ j : Instr, j.wellFormed = true → encode j = w → j = i) ∨
    ((∀ j : Instr, j.wellFormed = true → encode j ≠ w) ∧
      ∀ s, RunsNow s → fetchWord s = w → ∃ t, engineTurn s = .next t ∧
        FaultTaken .illegalInstruction w 0#32 s t ∧ t.env = s.env)

/-- R141, with R132, R133, R136 to R138 and R140: the decoder accepts exactly the words that a row of the table admits. -/
def Obligations.DecoderAcceptsExactlyTheTable : Prop :=
  ∀ w : Word, (∃ i, decode w = .ok i) ↔ ∃ r ∈ opcodeRows, r.Admits w

/-- R146: the spec's worked encodings, and its illegal words. -/
def Obligations.SpecExampleWordsDecode : Prop :=
  decode 0x10000000#32 = .ok (.add 0 0 0) ∧ decode 0x05004269#32 = .ok (.lui 4 0x4269#16) ∧
  decode 0x09107463#32 = .ok (.ori 4 4 0x7463#16) ∧ decode 0x0C44FFFF#32 = .ok (.addi 1 1 0xFFFF#16) ∧
  decode 0x2D000100#32 = .ok (.sw 4 0 0x0100#16) ∧ decode 0x208CFFFC#32 = .ok (.lb 2 3 0xFFFC#16) ∧
  decode 0x44400000#32 = .ok (.bne 1 0 0#16) ∧ decode 0x54C0FFFF#32 = .ok (.bfc .v 0xFFFF#16) ∧
  decode 0xCA159C40#32 = .ok (.hmac512 8 5 6 7 1) ∧ decode 0xCE048D14#32 = .ok (.pbkdf2 8 1 2 3 4 5) ∧
  decode 0x94804000#32 = .ok (.kaddm 2 0 1) ∧ decode 0x80200020#32 = .ok (.kld 0 8 0x0020#16) ∧
  decode 0x8DC00001#32 = .ok (.kldc 7 1#16) ∧ decode 0x6B000004#32 = .ok (.csrr 12 4#16) ∧
  decode 0x64000004#32 = .ok (.seterr 4#16) ∧ decode 0x63000000#32 = .ok (.halt 12) ∧
  decode 0xE66AC000#32 = .ok (.b39dec 9 10 11) ∧ decode 0xF64C0000#32 = .ok (.pubk 9 3) ∧
  decode 0x80000000#32 = .ok (.kld 0 0 0#16) ∧
  ∀ w ∈ [0x00000000#32, 0xFFFFFFFF#32, 0x10000001#32, 0x04010000#32], ∀ i, decode w ≠ .ok i

/-! ## The engine's turn -/

/-- R18, R35, R92: at a state where the engine is due to run the instruction at pc, a step is that instruction, whether
the schedule names no move or the engine's own (log entry 4). -/
def Obligations.StepRunsTheDecodedInstruction : Prop :=
  ∀ (s : State) (i : Instr), RunsNow s → decode (fetchWord s) = .ok i →
    (s.env.inbox = [] → step s = exec i s) ∧
    (∀ rest, s.env.inbox = .engine :: rest → step s = exec i (setInbox rest s))

/-- An idle machine keeps all its state, and indefinitely, where the world outside does nothing (R539). That the engine's
turn is then a step that changes nothing is read from the rule (log entry 12, DEDUCED); the schedule's own engine move
and the boundary move, which change nothing either, are the model's choice of form (log entry 4, DESIGN CHOICE). -/
def Obligations.IdleMachineKeepsItsState : Prop :=
  ∀ s : State, s.status.busy = false →
    engineTurn s = .next s ∧
    (s.env.inbox = [] → step s = .next s ∧ ∀ t, Reaches s t → t = s) ∧
    ∀ rest, s.env.inbox = .engine :: rest ∨ s.env.inbox = .boundary :: rest →
      step s = .next { s with env := { s.env with inbox := rest } }

/-! ## Registers (10_state.md) -/

/-- R31: R0 reads 0, a write to it has no effect, and each of the eight instructions that write a general register may
name it: that word decodes to it. -/
def Obligations.RegisterZeroIsHardwired : Prop :=
  (∀ (s : State) (v : Word), getReg 0 s = 0#32 ∧ setReg 0 v s = s) ∧
  ∀ (a b : RReg) (imm : BitVec 16) (i : Instr),
    i ∈ [.lui 0 imm, .ori 0 a imm, .addi 0 a imm, .add 0 a b, .sub 0 a b, .lb 0 a imm, .lw 0 a imm] ∨
      (i = .csrr 0 imm ∧ imm.toNat ≤ 13) → decode (encode i) = .ok i

/-- R32, R34: only LUI, ORI, ADDI, ADD, SUB, LB, LW and CSRR write a general register, and only KLD, KMOV, KLDC, KADD,
KADDM and KRED a scalar register; each its own destination alone. -/
def Obligations.OnlyListedInstructionsWriteRegisters : Prop :=
  ∀ (i : Instr) (s t : State), exec i s = .next t →
    (∀ r : RReg, getReg r t ≠ getReg r s → (∃ imm, i = .lui r imm) ∨ (∃ rs imm, i = .ori r rs imm) ∨ (∃ rs imm, i = .addi r rs imm) ∨
    (∃ a b, i = .add r a b) ∨ (∃ a b, i = .sub r a b) ∨ (∃ rb off, i = .lb r rb off) ∨
    (∃ rb off, i = .lw r rb off) ∨ ∃ csr, i = .csrr r csr) ∧
    (∀ k : KReg, getK k t ≠ getK k s →
    (∃ rb off, i = .kld k rb off) ∨ (∃ ks, i = .kmov k ks) ∨ (∃ sel, i = .kldc k sel) ∨ (∃ a b, i = .kadd k a b) ∨
    (∃ a b, i = .kaddm k a b) ∨ ∃ a, i = .kred k a)

/-- R38, R46: which instructions may change each flag and ERR; every other instruction leaves it as it was. -/
def Obligations.OnlyListedInstructionsWriteFlagsAndErr : Prop :=
  ∀ (i : Instr) (s t : State), exec i s = .next t →
    (t.flags.z ≠ s.flags.z → (∃ d a b, i = .kadd d a b) ∨ (∃ d a b, i = .kaddm d a b) ∨ (∃ a b, i = .kcmp a b) ∨
      (∃ a, i = .kchk a) ∨ ∃ d a, i = .kred d a) ∧
    (t.flags.c ≠ s.flags.c → (∃ d a b, i = .kadd d a b) ∨ (∃ d a b, i = .kaddm d a b) ∨ ∃ d a, i = .kred d a) ∧
    (t.flags.lt ≠ s.flags.lt → (∃ a b, i = .kcmp a b) ∨ ∃ a, i = .kchk a) ∧
    (t.flags.v ≠ s.flags.v → (∃ a, i = .kchk a) ∨ (∃ d a l, i = .b39enc d a l) ∨ ∃ d a w, i = .b39dec d a w) ∧
    (t.flags.e ≠ s.flags.e ∨ t.err ≠ s.err → (∃ d a b c e f, i = .pbkdf2 d a b c e f) ∨
      (∃ d a l, i = .b39enc d a l) ∨ (∃ d a w, i = .b39dec d a w) ∨ ∃ imm, i = .seterr imm)

/-- R92, R253: no instruction changes IMEM or a register the host writes (`ENTRY`, `CTRL.IE`), nor HOSTERR. -/
def Obligations.NoInstructionWritesTheHostsState : Prop :=
  ∀ (i : Instr) (s t : State), exec i s = .next t →
    (∀ n, imemWord t n = imemWord s n) ∧ t.entry = s.entry ∧ t.ie = s.ie ∧ t.status.hostErr = s.status.hostErr

/-! ## Integer instructions (40_integer_memory.md) -/

/-- R199 to R204: results modulo 2^32, on the exact integers; R0 as destination discards. Below index 255. -/
def Obligations.IntegerInstructionsWriteTheirResult : Prop :=
  ∀ (s : State) (rd rs rs2 : RReg) (imm : BitVec 16), s.pc.toNat < 255 →
    WritesReg (.lui rd imm) rd (imm.toNat * 2 ^ 16) s ∧
    WritesReg (.ori rd rs imm) rd (regNat rs s ||| imm.toNat : Nat) s ∧
    WritesReg (.addi rd rs imm) rd (((regNat rs s : Int) + imm.toInt) % 2 ^ 32) s ∧
    WritesReg (.add rd rs rs2) rd (((regNat rs s : Int) + regNat rs2 s) % 2 ^ 32) s ∧
    WritesReg (.sub rd rs rs2) rd (((regNat rs s : Int) - regNat rs2 s) % 2 ^ 32) s

/-! ## Data memory (20_memory.md, 40_integer_memory.md) -/

/-- R209: the effective address on exact integers, register plus signed offset modulo 2^32. -/
def Obligations.EffectiveAddressWraps : Prop :=
  ∀ (base : Word) (off : BitVec 16), ((effAddr base off).toNat : Int) = ((base.toNat : Int) + off.toInt) % 2 ^ 32

/-- R210, R211, R95, R98: LB zero-extends a byte; LW reads four bytes, most significant first, at any alignment. -/
def Obligations.LoadsReadBigEndian : Prop :=
  ∀ (s : State) (rd rb : RReg) (off : BitVec 16), s.pc.toNat < 255 →
    (Fits (effAddr (getReg rb s) off) 1 →
      WritesReg (.lb rd rb off) rd (dmemByte s (effAddr (getReg rb s) off).toNat).toNat s) ∧
    (Fits (effAddr (getReg rb s) off) 4 →
      WritesReg (.lw rd rb off) rd
        ((dmemByte s (effAddr (getReg rb s) off).toNat).toNat * 2 ^ 24 +
          (dmemByte s ((effAddr (getReg rb s) off).toNat + 1)).toNat * 2 ^ 16 +
          (dmemByte s ((effAddr (getReg rb s) off).toNat + 2)).toNat * 2 ^ 8 +
          (dmemByte s ((effAddr (getReg rb s) off).toNat + 3)).toNat) s)

/-- R212, R213, R95, R98: SB stores bits 7:0; SW stores four bytes, most significant first, at any alignment; every other
byte and everything else but pc is kept. -/
def Obligations.StoresWriteBigEndian : Prop :=
  ∀ (s : State) (rt rb : RReg) (off : BitVec 16), s.pc.toNat < 255 →
    (Fits (effAddr (getReg rb s) off) 1 →
      WritesRegion (.sb rt rb off) (effAddr (getReg rb s) off).toNat 1 [BitVec.ofNat 8 (regNat rt s)] s.flags s.err s) ∧
    (Fits (effAddr (getReg rb s) off) 4 →
      WritesRegion (.sw rt rb off) (effAddr (getReg rb s) off).toNat 4
        [BitVec.ofNat 8 (regNat rt s / 2 ^ 24), BitVec.ofNat 8 (regNat rt s / 2 ^ 16),
          BitVec.ofNat 8 (regNat rt s / 2 ^ 8), BitVec.ofNat 8 (regNat rt s)] s.flags s.err s)

/-- R214: MCPY moves the old source bytes, whatever the overlap, and every byte outside the destination is kept. -/
def Obligations.McpyCopiesTheOldSource : Prop :=
  ∀ (s : State) (rd rs rl : RReg), s.pc.toNat < 255 → Fits (getReg rs s) (regNat rl s) →
    Fits (getReg rd s) (regNat rl s) →
    ∃ t, exec (.mcpy rd rs rl) s = .next t ∧
      (∀ j, j < regNat rl s → dmemByte t (regNat rd s + j) = dmemByte s (regNat rs s + j)) ∧
      Frame [] [] (regNat rd s) (regNat rl s) s t ∧ ResultsKept s t

/-- R97: a byte stored by SB at `a` is byte `a - b` of a later LW or KLD whose region starts at `b` and covers `a`. -/
def Obligations.LaterLoadsSeeTheStoredByte : Prop :=
  ∀ (s t : State) (rt rb rd rb2 : RReg) (kd : KReg) (off off2 : BitVec 16), s.pc.toNat < 254 →
    Fits (effAddr (getReg rb s) off) 1 → exec (.sb rt rb off) s = .next t →
    ∀ a b : Nat, a = (effAddr (getReg rb s) off).toNat → b = (effAddr (getReg rb2 t) off2).toNat → b ≤ a →
      (a < b + 4 → b + 4 ≤ 4096 → ∃ u, exec (.lw rd rb2 off2) t = .next u ∧
        (rd ≠ 0 → regNat rd u / 256 ^ (3 - (a - b)) % 256 = regNat rt s % 256)) ∧
      (a < b + 32 → b + 32 ≤ 4096 → ∃ u, exec (.kld kd rb2 off2) t = .next u ∧
        scalarNat kd u / 256 ^ (31 - (a - b)) % 256 = regNat rt s % 256)

/-- R94, R507, R209: an access by effective address that leaves DMEM raises DMEM_BOUNDS with its address, and writes
nothing; the load into R0 too (R210). -/
def Obligations.OutOfBoundsAccessFaultsPrecisely : Prop :=
  ∀ (s : State) (rd rb : RReg) (k : KReg) (off : BitVec 16),
    (¬Fits (effAddr (getReg rb s) off) 1 →
      FaultsAt (.lb rd rb off) .dmemBounds (effAddr (getReg rb s) off) s ∧
      FaultsAt (.sb rd rb off) .dmemBounds (effAddr (getReg rb s) off) s) ∧
    (¬Fits (effAddr (getReg rb s) off) 4 →
      FaultsAt (.lw rd rb off) .dmemBounds (effAddr (getReg rb s) off) s ∧
      FaultsAt (.sw rd rb off) .dmemBounds (effAddr (getReg rb s) off) s) ∧
    (¬Fits (effAddr (getReg rb s) off) 32 →
      FaultsAt (.kld k rb off) .dmemBounds (effAddr (getReg rb s) off) s ∧
      FaultsAt (.kst k rb off) .dmemBounds (effAddr (getReg rb s) off) s)

/-- R506 with the pseudocode of R214, R330 to R333, R405, R406, R452 and R454: the instructions over regions check the
sources before the destination, and report the first that fails; ENTROPY and PUBK then make no request. -/
def Obligations.FirstFailingRegionIsReported : Prop :=
  ∀ (s : State) (a b c d e f : RReg) (k : KReg),
    ReportsFirstBad (.mcpy a b c) [(getReg b s, regNat c s), (getReg a s, regNat c s)] s ∧
    ReportsFirstBad (.sha256 a b c) [(getReg b s, regNat c s), (getReg a s, 32)] s ∧
    ReportsFirstBad (.sha512 a b c) [(getReg b s, regNat c s), (getReg a s, 64)] s ∧
    ReportsFirstBad (.hmac512 a b c d e)
      [(getReg b s, regNat c s), (getReg d s, regNat e s), (getReg a s, 64)] s ∧
    (regNat f s ≠ 0 → ReportsFirstBad (.pbkdf2 a b c d e f)
      [(getReg b s, regNat c s), (getReg d s, regNat e s), (getReg a s, 64)] s) ∧
    (regNat c s ∈ [16, 20, 24, 28, 32] → ReportsFirstBad (.b39enc a b c)
      [(getReg b s, regNat c s), (getReg a s, 2 * (3 * regNat c s / 4))] s) ∧
    (regNat c s ∈ [12, 15, 18, 21, 24] → ReportsFirstBad (.b39dec a b c)
      [(getReg b s, 2 * regNat c s), (getReg a s, 4 * regNat c s / 3)] s) ∧
    ReportsFirstBad (.entropy a b) [(getReg a s, regNat b s)] s ∧
    ReportsFirstBad (.pubk a k) [(getReg a s, 33)] s

/-! ## Control transfer and system instructions (41_control_system.md) -/

/-- R240 to R247: the six branches go to pc + offset when their condition holds and to pc + 1 when not; a target outside
IMEM raises PC_RANGE and nothing is written. -/
def Obligations.BranchesGoWhereTheyPoint : Prop :=
  ∀ (s : State) (rs1 rs2 : RReg) (cond : Cond) (off : BitVec 16),
    BranchesOn (.beq rs1 rs2 off) (regNat rs1 s = regNat rs2 s) off s ∧
    BranchesOn (.bne rs1 rs2 off) (regNat rs1 s ≠ regNat rs2 s) off s ∧
    BranchesOn (.bltu rs1 rs2 off) (regNat rs1 s < regNat rs2 s) off s ∧
    BranchesOn (.bgeu rs1 rs2 off) (regNat rs2 s ≤ regNat rs1 s) off s ∧
    BranchesOn (.bfs cond off) ((flagsWord s.flags).getLsbD (condField cond).toNat = true) off s ∧
    BranchesOn (.bfc cond off) ((flagsWord s.flags).getLsbD (condField cond).toNat = false) off s

/-- R240: the instruction at index 255 that goes on to the next index keeps its writes and then raises PC_RANGE. Its
writes are those it makes at a lower index `p`, but for CSRR of PC, which reads its own index. -/
def Obligations.LastIndexKeepsTheWritesThenFaults : Prop :=
  (∀ (i : Instr) (s t' : State) (p : Byte), s.pc = 255#8 → p.toNat < 255 → (∀ rd, i ≠ .csrr rd 11#16) →
    exec i { s with pc := p } = .next t' → t'.pc.toNat = p.toNat + 1 →
    ∃ t, exec i s = .next t ∧ (∀ r, getReg r t = getReg r t') ∧ (∀ k, getK k t = getK k t') ∧
      (∀ a, dmemByte t a = dmemByte t' a) ∧ t.flags = t'.flags ∧ t.err = t'.err ∧ t.env = t'.env ∧
      t.status = { s.status with busy := false, fault := true, irq := true, abortReq := false } ∧
      t.faultRegs = { cause := .pcRange, pc := 255#8, insn := fetchWord s, info := 0x100#32 } ∧ t.pc = 255#8) ∧
  (∀ (s : State) (rd : RReg), s.pc = 255#8 →
    ∃ t, exec (.csrr rd 11#16) s = .next t ∧ (getReg rd t).toNat = (if rd = 0 then 0 else 255) ∧
      DataKept [rd] [] 0 0 s t ∧ ResultsKept s t ∧
      t.faultRegs = { cause := .pcRange, pc := 255#8, insn := fetchWord s, info := 0x100#32 } ∧
      t.status = { s.status with busy := false, fault := true, irq := true, abortReq := false })

/-- R249, R520: HALT ends the run as DONE with the exit code of its register's low byte; pc stays at the HALT. -/
def Obligations.HaltEndsTheRunAsDone : Prop :=
  ∀ (s : State) (rs : RReg), ∃ t, exec (.halt rs) s = .next t ∧
    t.status = { s.status with busy := false, done := true, irq := true, abortReq := false } ∧
    t.exitCode.toNat = regNat rs s % 256 ∧ t.pc = s.pc ∧ t.inFlight = false ∧ DataKept [] [] 0 0 s t ∧
    ResultsKept s t ∧ t.ie = s.ie ∧ t.faultRegs = s.faultRegs ∧ t.entry = s.entry ∧
    (∀ n, imemWord t n = imemWord s n) ∧ t.env = s.env

/-- R250, R501: SETERR writes ERR and the flag E. -/
def Obligations.SeterrRecordsTheCode : Prop :=
  ∀ (s : State) (imm : BitVec 16), s.pc.toNat < 255 → imm.toNat < 256 →
    WritesFlags (.seterr imm) { s.flags with e := decide (imm.toNat ≠ 0) } (BitVec.ofNat 8 imm.toNat) s

/-- R252, R40 to R54: what CSRR reads of each of the fourteen registers while a run is on; EXIT and FAULT_* are 0, DONE,
FAULT and IRQ too, by the invariant. HOSTERR and ABORTREQ are as latched. -/
def Obligations.CsrrReadsEachRegister : Prop :=
  ∀ (s : State) (rd : RReg), Inv s → s.status.busy = true → s.pc.toNat < 255 →
    WritesReg (.csrr rd 0#16) rd 0x48535031 s ∧
    WritesReg (.csrr rd 1#16) rd (8 * s.ie.toNat : Nat) s ∧
    WritesReg (.csrr rd 2#16) rd (1 + 16 * s.status.hostErr.toNat + 32 * s.status.abortReq.toNat : Nat) s ∧
    WritesReg (.csrr rd 3#16) rd (s.flags.z.toNat + 2 * s.flags.c.toNat + 4 * s.flags.lt.toNat +
      8 * s.flags.v.toNat + 16 * s.flags.e.toNat : Nat) s ∧
    WritesReg (.csrr rd 4#16) rd s.err.toNat s ∧
    WritesReg (.csrr rd 5#16) rd 0 s ∧
    WritesReg (.csrr rd 6#16) rd 0 s ∧
    WritesReg (.csrr rd 7#16) rd 0 s ∧
    WritesReg (.csrr rd 8#16) rd 0 s ∧
    WritesReg (.csrr rd 9#16) rd 0 s ∧
    WritesReg (.csrr rd 10#16) rd s.entry.toNat s ∧
    WritesReg (.csrr rd 11#16) rd s.pc.toNat s ∧
    WritesReg (.csrr rd 12#16) rd 4096 s ∧
    WritesReg (.csrr rd 13#16) rd 256 s

/-! ## The modular arithmetic unit (43_modarith.md) -/

/-- R350, R351, R95: KLD reads and KST writes 32 bytes, most significant first, leading zeros included; KST keeps every
other byte. -/
def Obligations.ScalarLoadsAndStoresAreBigEndian : Prop :=
  ∀ (s : State) (k : KReg) (rb : RReg) (off : BitVec 16), s.pc.toNat < 255 →
    Fits (effAddr (getReg rb s) off) 32 →
    (∃ v, WritesScalar (.kld k rb off) k v s.flags s ∧ v < 2 ^ 256 ∧
      ∀ j, j < 32 → v / 256 ^ (31 - j) % 256 = (dmemByte s ((effAddr (getReg rb s) off).toNat + j)).toNat) ∧
    (∃ bs, WritesRegion (.kst k rb off) (effAddr (getReg rb s) off).toNat 32 bs s.flags s.err s ∧
      ∀ j, j < 32 → (bs.getD j 0#8).toNat = scalarNat k s / 256 ^ (31 - j) % 256)

/-- R352, R356: KMOV copies; KLDC loads zero or the curve order. No flag. -/
def Obligations.ScalarMovesWriteTheirValue : Prop :=
  ∀ (s : State) (kd ks : KReg), s.pc.toNat < 255 →
    WritesScalar (.kmov kd ks) kd (scalarNat ks s) s.flags s ∧
    WritesScalar (.kldc kd 0#16) kd 0 s.flags s ∧
    WritesScalar (.kldc kd 1#16) kd 0xFFFFFFFFFFFFFFFFFFFFFFFFFFFFFFFEBAAEDCE6AF48A03BBFD25E8CD0364141 s.flags s

/-- R357: the 256-bit sum, C the carry out, Z the zero result. -/
def Obligations.KaddAddsWithCarry : Prop :=
  ∀ (s : State) (kd ka kb : KReg), s.pc.toNat < 255 →
    ∃ v carry, carry ≤ 1 ∧ v < 2 ^ 256 ∧ scalarNat ka s + scalarNat kb s = carry * 2 ^ 256 + v ∧
      WritesScalar (.kadd kd ka kb) kd v { s.flags with c := decide (carry = 1), z := decide (v = 0) } s

/-- R358, R361: KADDM and KRED give the residue below n, by at most two subtractions of n and at most one; C says the
input was not below n. -/
def Obligations.ReductionsGiveTheResidue : Prop :=
  ∀ (s : State) (kd ka kb : KReg), s.pc.toNat < 255 →
    (∃ v q, q ≤ 2 ∧ v < Config.curveOrder ∧ scalarNat ka s + scalarNat kb s = q * Config.curveOrder + v ∧
      WritesScalar (.kaddm kd ka kb) kd v { s.flags with c := decide (q ≠ 0), z := decide (v = 0) } s) ∧
    (∃ v q, q ≤ 1 ∧ v < Config.curveOrder ∧ scalarNat ka s = q * Config.curveOrder + v ∧
      WritesScalar (.kred kd ka) kd v { s.flags with c := decide (q ≠ 0), z := decide (v = 0) } s)

/-- R359, R360: the unsigned compare and the private-key range check write their flags and nothing else. -/
def Obligations.ScalarComparesWriteTheirFlags : Prop :=
  ∀ (s : State) (ka kb : KReg), s.pc.toNat < 255 →
    WritesFlags (.kcmp ka kb)
      { s.flags with
        z := decide (scalarNat ka s = scalarNat kb s), lt := decide (scalarNat ka s < scalarNat kb s) } s.err s ∧
    WritesFlags (.kchk ka)
      { s.flags with
        z := decide (scalarNat ka s = 0), lt := decide (scalarNat ka s < Config.curveOrder)
        v := decide (0 < scalarNat ka s ∧ scalarNat ka s < Config.curveOrder) } s.err s

/-! ## Hash units (42_hash.md) -/

/-- R302, R307: the padded message is the message, 0x80, the least number of zeros that fills whole blocks, and the bit
length, for SHA-256 and SHA-512. -/
def Obligations.PaddingFillsWholeBlocksWithTheLeastZeros : Prop :=
  ∀ m : List Byte,
    (∃ p, padMessage sha256Params m = m ++ [0x80#8] ++ List.replicate p 0#8 ++ beBytes 8 (8 * m.length) ∧
      (m.length + 1 + p + 8) % 64 = 0 ∧ ∀ q, (m.length + 1 + q + 8) % 64 = 0 → p ≤ q) ∧
    (∃ p, padMessage sha512Params m = m ++ [0x80#8] ++ List.replicate p 0#8 ++ beBytes 16 (8 * m.length) ∧
      (m.length + 1 + p + 16) % 128 = 0 ∧ ∀ q, (m.length + 1 + q + 16) % 128 = 0 → p ≤ q)

/-- R300 to R310: the digest of every message, for SHA-256 and SHA-512, is the one their rules give: the padded blocks, the
words and the recurrence of the schedule, the functions, the round constants as fractional parts of cube roots of
primes, the rounds, and the sum into the hash value from the initial one. The schedule words that the model computes
for a block are those of the recurrence too: 64 and 80. -/
def Obligations.DigestsFollowScheduleAndRounds : Prop :=
  (∀ m : List Byte, IsDigest sha256Rule m (sha256 m) ∧ IsDigest sha512Rule m (sha512 m)) ∧
  ∀ block : List Byte,
    ((scheduleWords sha256Params block).length = 64 ∧
      (∀ t, t < 16 → (scheduleWords sha256Params block).getD t 0#32 =
        BitVec.ofNat 32 (intBE ((block.drop (4 * t)).take 4))) ∧
      ∀ t, 16 ≤ t → t < 64 → (scheduleWords sha256Params block).getD t 0#32 =
        sha256Params.smallSigma1 ((scheduleWords sha256Params block).getD (t - 2) 0#32) +
          (scheduleWords sha256Params block).getD (t - 7) 0#32 +
          sha256Params.smallSigma0 ((scheduleWords sha256Params block).getD (t - 15) 0#32) +
          (scheduleWords sha256Params block).getD (t - 16) 0#32) ∧
    ((scheduleWords sha512Params block).length = 80 ∧
      (∀ t, t < 16 → (scheduleWords sha512Params block).getD t 0#64 =
        BitVec.ofNat 64 (intBE ((block.drop (8 * t)).take 8))) ∧
      ∀ t, 16 ≤ t → t < 80 → (scheduleWords sha512Params block).getD t 0#64 =
        sha512Params.smallSigma1 ((scheduleWords sha512Params block).getD (t - 2) 0#64) +
          (scheduleWords sha512Params block).getD (t - 7) 0#64 +
          sha512Params.smallSigma0 ((scheduleWords sha512Params block).getD (t - 15) 0#64) +
          (scheduleWords sha512Params block).getD (t - 16) 0#64)

/-- R312: HMAC512 is the two nested hashes under the padded key; a key of 129 bytes or more is hashed first. -/
def Obligations.HmacNestsTwoHashes : Prop :=
  ∀ key msg : List Byte, ∃ k0 : List Byte, k0.length = 128 ∧
    (key.length ≤ 128 → k0 = key ++ List.replicate (128 - key.length) 0#8) ∧
    (128 < key.length → k0 = sha512 key ++ List.replicate 64 0#8) ∧
    hmac512 key msg = sha512 (k0.map (· ^^^ 0x5C#8) ++ sha512 (k0.map (· ^^^ 0x36#8) ++ msg)) ∧
    (hmac512 key msg).length = 64

/-- R314: PBKDF2 is the XOR of the c chained HMACs, the first over salt and block index 1. -/
def Obligations.PbkdfIsTheXorOfTheChain : Prop :=
  ∀ (password salt : List Byte) (c : Nat) (u : Nat → List Byte), 1 ≤ c →
    u 1 = hmac512 password (salt ++ [0#8, 0#8, 0#8, 1#8]) →
    (∀ j, 1 ≤ j → j < c → u (j + 1) = hmac512 password (u j)) →
    (pbkdf2 password salt c).length = 64 ∧
    ∀ i, i < 64 → (pbkdf2 password salt c).getD i 0#8 =
      (List.range c).foldl (fun x j => x ^^^ (u (j + 1)).getD i 0#8) 0#8

/-- R330 to R332: the three hash instructions write the digest of the old source bytes and nothing else. -/
def Obligations.HashInstructionsWriteTheDigest : Prop :=
  ∀ (s : State) (rd rs rl rm rml : RReg), s.pc.toNat < 255 → Fits (getReg rs s) (regNat rl s) →
    (Fits (getReg rd s) 32 → WritesRegion (.sha256 rd rs rl) (regNat rd s) 32
      (sha256 (memRead (regNat rs s) (regNat rl s) s)) s.flags s.err s) ∧
    (Fits (getReg rd s) 64 → WritesRegion (.sha512 rd rs rl) (regNat rd s) 64
      (sha512 (memRead (regNat rs s) (regNat rl s) s)) s.flags s.err s) ∧
    (Fits (getReg rd s) 64 → Fits (getReg rm s) (regNat rml s) →
      WritesRegion (.hmac512 rd rs rl rm rml) (regNat rd s) 64
        (hmac512 (memRead (regNat rs s) (regNat rl s) s) (memRead (regNat rm s) (regNat rml s) s)) s.flags s.err s)

/-- R333, R501: a count of 0 is ConfigurationError with no memory access, whatever the regions; else PBKDF2 writes its 64
bytes, ERR 0 and E 0. -/
def Obligations.PbkdfInstructionCompletes : Prop :=
  ∀ (s : State) (rd rp rpl rs rsl rc : RReg), s.pc.toNat < 255 →
    (regNat rc s = 0 →
      WritesFlags (.pbkdf2 rd rp rpl rs rsl rc) { s.flags with e := true } 0x08#8 s) ∧
    (regNat rc s ≠ 0 → Fits (getReg rp s) (regNat rpl s) → Fits (getReg rs s) (regNat rsl s) →
      Fits (getReg rd s) 64 →
      WritesRegion (.pbkdf2 rd rp rpl rs rsl rc) (regNat rd s) 64
        (pbkdf2 (memRead (regNat rp s) (regNat rpl s) s) (memRead (regNat rs s) (regNat rsl s) s) (regNat rc s))
        { s.flags with e := false } 0#8 s)

/-! ## The BIP39 bit-packer (44_bip39.md) -/

/-- R405, R401, R404: B39ENC of a legal length writes the index halfwords: halfword i is the i-th group of 11 bits of the
entropy followed by the leading bits of its SHA-256; V is set and E clear. Another length is ConfigurationError, with no
memory access. -/
def Obligations.B39encPacksEntropyIntoIndices : Prop :=
  ∀ (s : State) (rd rs rl : RReg), s.pc.toNat < 255 →
    (regNat rl s ∉ [16, 20, 24, 28, 32] →
      WritesFlags (.b39enc rd rs rl) { s.flags with v := false, e := true } 0x08#8 s) ∧
    (regNat rl s ∈ [16, 20, 24, 28, 32] → Fits (getReg rs s) (regNat rl s) →
      Fits (getReg rd s) (2 * (3 * regNat rl s / 4)) →
      ∀ (entropy : List Byte) (len words cs combined : Nat), len = regNat rl s →
        entropy = memRead (regNat rs s) len s → words = 3 * len / 4 → cs = len / 4 →
        combined = intBE entropy * 2 ^ cs + ((sha256 entropy).getD 0 0#8).toNat / 2 ^ (8 - cs) →
        ∃ t, exec (.b39enc rd rs rl) s = .next t ∧
          (∀ i, i < words → (dmemByte t (regNat rd s + 2 * i)).toNat * 256 +
            (dmemByte t (regNat rd s + 2 * i + 1)).toNat = combined / 2 ^ (11 * (words - 1 - i)) % 2048) ∧
          t.flags = { s.flags with v := true, e := false } ∧ t.err = 0#8 ∧ Frame [] [] (regNat rd s) (2 * words) s t)

/-- R406, R403, R404: B39DEC of `words` halfwords `h`, read before any write. A bad count, a halfword above 2047, and
checksum bits that are not those of the entropy's SHA-256 are the three checked errors, in this order and with no write;
else the entropy is written. V is set exactly on success, E exactly on an error. -/
def Obligations.B39decChecksThenUnpacks : Prop :=
  ∀ (s : State) (rd rs rw : RReg), s.pc.toNat < 255 →
    (regNat rw s ∉ [12, 15, 18, 21, 24] →
      WritesFlags (.b39dec rd rs rw) { s.flags with v := false, e := true } 0x05#8 s) ∧
    (regNat rw s ∈ [12, 15, 18, 21, 24] → Fits (getReg rs s) (2 * regNat rw s) →
      Fits (getReg rd s) (4 * regNat rw s / 3) →
      ∀ (h : List Nat) (words len cs combined : Nat) (entropy : List Byte), words = regNat rw s → h.length = words →
        (∀ i, i < words → h.getD i 0 = (dmemByte s (regNat rs s + 2 * i)).toNat * 256 +
          (dmemByte s (regNat rs s + 2 * i + 1)).toNat) →
        len = 4 * words / 3 → cs = words / 3 → combined = h.foldl (fun acc x => acc * 2048 + x) 0 →
        entropy = beBytes len (combined / 2 ^ cs) →
        ((∃ x ∈ h, 2047 < x) →
          WritesFlags (.b39dec rd rs rw) { s.flags with v := false, e := true } 0x06#8 s) ∧
        ((∀ x ∈ h, x ≤ 2047) → combined % 2 ^ cs ≠ ((sha256 entropy).getD 0 0#8).toNat / 2 ^ (8 - cs) →
          WritesFlags (.b39dec rd rs rw) { s.flags with v := false, e := true } 0x07#8 s) ∧
        ((∀ x ∈ h, x ≤ 2047) → combined % 2 ^ cs = ((sha256 entropy).getD 0 0#8).toNat / 2 ^ (8 - cs) →
          WritesRegion (.b39dec rd rs rw) (regNat rd s) len entropy { s.flags with v := true, e := false } 0#8 s))

/-- R403: the packing rule and its inverse are exact inverses, on legal entropy and on valid index lists. -/
def Obligations.PackingAndUnpackingAreInverse : Prop :=
  (∀ entropy : List Byte, entropy.length ∈ [16, 20, 24, 28, 32] →
    unpackEntropy (packIndices entropy) = entropy ∧ checksumOk (packIndices entropy) = true ∧
      (packIndices entropy).length = 3 * entropy.length / 4 ∧ ∀ x ∈ packIndices entropy, x < 2048) ∧
  (∀ idx : List Nat, idx.length ∈ [12, 15, 18, 21, 24] → (∀ x ∈ idx, x < 2048) → checksumOk idx = true →
    packIndices (unpackEntropy idx) = idx)

/-- R403, R405, R406: on the machine, B39DEC of what B39ENC wrote gives the entropy back, with V set and ERR 0, wherever
the three regions lie. -/
def Obligations.B39decUndoesB39enc : Prop :=
  ∀ (s t : State) (rd rs rl rd2 rs2 rw : RReg), s.pc.toNat < 254 → regNat rl s ∈ [16, 20, 24, 28, 32] →
    Fits (getReg rs s) (regNat rl s) → Fits (getReg rd s) (2 * (3 * regNat rl s / 4)) →
    exec (.b39enc rd rs rl) s = .next t →
    getReg rs2 s = getReg rd s → regNat rw s = 3 * regNat rl s / 4 → Fits (getReg rd2 s) (regNat rl s) →
    ∃ u, exec (.b39dec rd2 rs2 rw) t = .next u ∧ u.flags.v = true ∧ u.flags.e = false ∧ u.err = 0#8 ∧
      ∀ j, j < regNat rl s → dmemByte u (regNat rd2 s + j) = dmemByte s (regNat rs s + j)

/-! ## Ports (45_ports.md) -/

/-- R452, R450, R451: ENTROPY of no bytes completes with no request. With a request, bytes of the length asked for are
written as they come, a failure is BACKEND_FAILURE 0, and no answer yet leaves the instruction waiting with nothing
written. The answer is the one that the world outside supplies (log entry 1). -/
def Obligations.EntropyFillsItsRegion : Prop :=
  ∀ (s : State) (rd rl : RReg), s.pc.toNat < 255 → Fits (getReg rd s) (regNat rl s) →
    (regNat rl s = 0 → WritesRegion (.entropy rd rl) (regNat rd s) 0 [] s.flags s.err s) ∧
    (regNat rl s ≠ 0 → ∀ rest,
      (∀ bs : List Byte, bs.length = regNat rl s → s.env.entropyIn = .bytes bs :: rest →
        ∃ t, exec (.entropy rd rl) s = .next t ∧ memRead (regNat rd s) (regNat rl s) t = bs ∧
          Frame [] [] (regNat rd s) (regNat rl s) { s with env := t.env } t ∧ ResultsKept s t ∧
          t.env = { s.env with entropyIn := rest, draws := s.env.draws + 1 }) ∧
      (s.env.entropyIn = .failed :: rest →
        ∃ t, exec (.entropy rd rl) s = .next t ∧ FaultTaken .backendFailure (fetchWord s) 0#32 s t ∧
          t.env = { s.env with entropyIn := rest, draws := s.env.draws + 1 }) ∧
      (s.env.entropyIn = .waiting :: rest →
        exec (.entropy rd rl) s = .next
          { s with inFlight := true, env := { s.env with entropyIn := rest, draws := s.env.draws + 1 } }))

/-- R454, R453, R450: PUBK of a scalar in range writes the 33 bytes of CURVE; a failure is BACKEND_FAILURE 1; no answer
yet leaves it waiting. A scalar out of range is SCALAR_RANGE before any request: no answer and no draw is used. -/
def Obligations.PubkWritesTheCurvePoint : Prop :=
  ∀ (s : State) (rd : RReg) (ks : KReg), s.pc.toNat < 255 → Fits (getReg rd s) 33 →
    (scalarNat ks s = 0 ∨ Config.curveOrder ≤ scalarNat ks s → FaultsAt (.pubk rd ks) .scalarRange 0#32 s) ∧
    (0 < scalarNat ks s ∧ scalarNat ks s < Config.curveOrder → ∀ rest,
      (s.env.curveIn = .point :: rest →
        ∃ t, exec (.pubk rd ks) s = .next t ∧ memRead (regNat rd s) 33 t = (Config.curve (getK ks s)).toList ∧
          Frame [] [] (regNat rd s) 33 { s with env := t.env } t ∧ ResultsKept s t ∧
          t.env = { s.env with curveIn := rest, draws := s.env.draws + 1 }) ∧
      (s.env.curveIn = .failed :: rest →
        ∃ t, exec (.pubk rd ks) s = .next t ∧ FaultTaken .backendFailure (fetchWord s) 1#32 s t ∧
          t.env = { s.env with curveIn := rest, draws := s.env.draws + 1 }) ∧
      (s.env.curveIn = .waiting :: rest →
        exec (.pubk rd ks) s = .next
          { s with inFlight := true, env := { s.env with curveIn := rest, draws := s.env.draws + 1 } }))

/-- R456: every instruction but ENTROPY and PUBK is a function of the HSP's own state: another world outside changes
nothing it does, and it does nothing to the world. -/
def Obligations.OtherInstructionsIgnoreTheWorld : Prop :=
  ∀ (i : Instr) (s t : State) (e : Env), (∀ rd rl, i ≠ .entropy rd rl) → (∀ rd ks, i ≠ .pubk rd ks) →
    exec i s = .next t → t.env = s.env ∧ exec i { s with env := e } = .next { t with env := e }

/-! ## Faults, aborts, the end of a run (60_exceptions.md) -/

/-- R510: fault entry records the fault, for the host to read in the FAULT_* registers with the codes of R505, and ends
the run as FAULT, everything else kept; the engine then executes nothing: from any idle state only the START of a CTRL
write makes the machine BUSY. That its turn is a step that changes nothing is log entry 12 (DEDUCED), and the schedule's
own engine move is the model's choice of form (log entry 4, DESIGN CHOICE). -/
def Obligations.FaultEntryEndsTheRun : Prop :=
  (∀ (s : State) (cause : FaultCause) (info : Word), FaultTaken cause (fetchWord s) info s (raise cause info s) ∧
    FaultTaken .aborted 0#32 0#32 s (abortEntry s) ∧ (raise cause info s).env = s.env ∧ (abortEntry s).env = s.env ∧
    (Inv s → s.status.busy = true → (raise cause info s).exitCode = 0#8) ∧
    (∀ p ∈ [(FaultCause.illegalInstruction, 1), (.dmemBounds, 2), (.pcRange, 3), (.backendFailure, 4), (.scalarRange, 5),
        (.aborted, 6)], (hostRead 0x18 (raise p.1 info s)).1 = BitVec.ofNat 32 p.2) ∧
    (hostRead 0x1C (raise cause info s)).1 = BitVec.ofNat 32 s.pc.toNat ∧
    (hostRead 0x20 (raise cause info s)).1 = fetchWord s ∧ (hostRead 0x24 (raise cause info s)).1 = info ∧
    engineTurn (raise cause info s) = .next (raise cause info s) ∧
    (s.env.inbox = [] → step (raise cause info s) = .next (raise cause info s)) ∧
    ∀ rest, s.env.inbox = .engine :: rest →
      step (raise cause info s) = .next (raise cause info { s with env := { s.env with inbox := rest } })) ∧
  ∀ s t : State, s.status.busy = false → step s = .next t → t.status.busy = true →
    ∃ a rest v, s.env.inbox = .host a :: rest ∧ a.addr = Config.hspBase + 4 ∧ a.value = some v ∧ v.getLsbD 0 = true

/-- R515: writing ABORT (with no other command) latches ABORTREQ while BUSY and has no effect otherwise; HOSTERR is not
set by it. At a boundary with ABORTREQ set the engine takes the ABORTED fault, with the next pc as FAULT_PC and 0 as
FAULT_INSN, whatever word stands there; an instruction that has begun goes on, and the request stands until it has ended: the
end of the run in it, by a HALT or another fault, drops the request. So it is for the engine's turn where the schedule is
empty, and where it names that turn. The move that passes the boundary alone (log entry
4) makes the same test, and else begins the instruction with no other effect; it is none while idle. -/
def Obligations.AbortActsAtABoundaryOnly : Prop :=
  (∀ (s : State) (v : Word), v.getLsbD 1 = true → v.getLsbD 0 = false → v.getLsbD 2 = false → v.getLsbD 4 = false →
    v.getLsbD 5 = false →
    hostWrite 4 v s =
      { s with ie := v.getLsbD 3, status := { s.status with abortReq := s.status.abortReq || s.status.busy } }) ∧
  (∀ (s : State) (rest : List Move), (s.env.inbox = [] ∧ rest = []) ∨ s.env.inbox = .engine :: rest →
    s.status.busy = true → s.status.abortReq = true →
    (s.inFlight = false → ∃ t, step s = .next t ∧ FaultTaken .aborted 0#32 0#32 s t ∧
      t.env = { s.env with inbox := rest }) ∧
    (s.inFlight = true →
      (∀ i, decode (fetchWord s) = .ok i → step s = exec i { s with env := { s.env with inbox := rest } }) ∧
      ∀ t, step s = .next t → t.status.abortReq = t.status.busy ∧
        (t.faultRegs.cause = .aborted → s.faultRegs.cause = .aborted))) ∧
  (∀ (s : State) (rest : List Move), s.env.inbox = .boundary :: rest →
    (s.status.busy = true → s.status.abortReq = true → s.inFlight = false →
      ∃ t, step s = .next t ∧ FaultTaken .aborted 0#32 0#32 s t ∧ t.env = { s.env with inbox := rest }) ∧
    (RunsNow s → step s = .next { s with inFlight := true, env := { s.env with inbox := rest } }) ∧
    (s.status.busy = false → step s = .next { s with env := { s.env with inbox := rest } }))

/-- R520: without a hardware reset, BUSY falls in a step only by a HALT at pc, as DONE, or by a fault, as FAULT; each sets
IRQ and drops an abort request. -/
def Obligations.ARunEndsByHaltOrFaultOnly : Prop :=
  ∀ s t : State, Inv s → (∀ rest, s.env.inbox ≠ .reset :: rest) → step s = .next t → s.status.busy = true →
    t.status.busy = false → t.status.irq = true ∧ t.status.abortReq = false ∧ t.pc = s.pc ∧
      ((t.status.done = true ∧ t.status.fault = false ∧ ∃ rs, decode (fetchWord s) = .ok (.halt rs) ∧
          t.exitCode.toNat = regNat rs s % 256) ∨
        (t.status.fault = true ∧ t.status.done = false ∧ t.faultRegs.cause ≠ .none ∧ t.exitCode = 0#8))

/-- R525: `irq` is IRQ and IE. The end of every run sets IRQ; IRQ_CLR, START, ZEROIZE and reset clear it, and no read
does. IE gates the line without touching STATUS.IRQ. -/
def Obligations.IrqLineFollowsIrqAndIe : Prop :=
  ∀ (s : State) (v : Word) (off : Nat) (cause : FaultCause) (insn info : Word) (code : Byte),
    irqLine s = (s.status.irq && s.ie) ∧
    (faultEntry cause insn info s).status.irq = true ∧ (endDone code s).status.irq = true ∧
    (v.getLsbD 0 = false → v.getLsbD 2 = false →
      (hostWrite 4 v s).status.irq = (s.status.irq && !v.getLsbD 4) ∧ (hostWrite 4 v s).ie = v.getLsbD 3) ∧
    (s.status.busy = false → v.getLsbD 0 = true ∨ v.getLsbD 2 = true → (hostWrite 4 v s).status.irq = false) ∧
    (hardReset s).status.irq = false ∧ (hostRead off s).2.status.irq = s.status.irq

/-! ## The host window (10_state.md, 20_memory.md) -/

/-- R100, R101: a 32-bit aligned access in the window is one step of the machine, the read or the write of its offset; of
another width or misaligned the model gives it no move; outside the window it does not reach the machine (log entry 3). -/
def Obligations.HostAccessesAreSteps : Prop :=
  ∀ (s : State) (a : BusAccess) (rest : List Move), s.env.inbox = .host a :: rest →
    (∀ off, a.addr = Config.hspBase + off → off < 0x2000 →
      (off % 4 = 0 → a.width = 4 →
        (a.value = none → step s =
          .next (setBusData (hostRead off (setInbox rest s)).1 (hostRead off (setInbox rest s)).2)) ∧
        (∀ v, a.value = some v → step s = .next (hostWrite off v (setInbox rest s)))) ∧
      (off % 4 ≠ 0 ∨ a.width ≠ 4 → step s = .refused .hostAccess)) ∧
    (a.addr < Config.hspBase ∨ Config.hspBase + 0x2000 ≤ a.addr → step s = .next (setInbox rest s))

/-- R102: while idle, a host word of DMEM is its four bytes, most significant first, as LW and SW see them. -/
def Obligations.HostDmemLanesAreBigEndian : Prop :=
  ∀ (s : State) (j : Nat) (v : Word), s.status.busy = false → j < 1024 →
    hostRead (0x1000 + 4 * j) s =
      (dmemByte s (4 * j) ++ dmemByte s (4 * j + 1) ++ dmemByte s (4 * j + 2) ++ dmemByte s (4 * j + 3), s) ∧
    dmemByte (hostWrite (0x1000 + 4 * j) v s) (4 * j) = v.extractLsb' 24 8 ∧
    dmemByte (hostWrite (0x1000 + 4 * j) v s) (4 * j + 1) = v.extractLsb' 16 8 ∧
    dmemByte (hostWrite (0x1000 + 4 * j) v s) (4 * j + 2) = v.extractLsb' 8 8 ∧
    dmemByte (hostWrite (0x1000 + 4 * j) v s) (4 * j + 3) = v.extractLsb' 0 8 ∧
    (∀ a, a < 4 * j ∨ 4 * j + 4 ≤ a → dmemByte (hostWrite (0x1000 + 4 * j) v s) a = dmemByte s a) ∧
    { hostWrite (0x1000 + 4 * j) v s with dmem := s.dmem } = s ∧
    (∀ rd : RReg, s.pc.toNat < 255 →
      WritesReg (.lw rd 0 (BitVec.ofNat 16 (4 * j))) rd (hostRead (0x1000 + 4 * j) s).1.toNat s) ∧
    ∀ rt : RReg, ∃ t, exec (.sw rt 0 (BitVec.ofNat 16 (4 * j))) s = .next t ∧
      ∀ a, dmemByte t a = dmemByte (hostWrite (0x1000 + 4 * j) (getReg rt s) s) a

/-- R103: while idle, the host reads and writes IMEM word i at offset 0x0400 + 4·i. -/
def Obligations.HostReadsAndWritesImem : Prop :=
  ∀ (s : State) (i : Nat) (v : Word), s.status.busy = false → i < 256 →
    hostRead (0x400 + 4 * i) s = (imemWord s i, s) ∧
    (∀ n, imemWord (hostWrite (0x400 + 4 * i) v s) n = if n = i then v else imemWord s n) ∧
    { hostWrite (0x400 + 4 * i) v s with imem := s.imem } = s

/-- R104: while BUSY, every access to IMEM or DMEM is refused: a read returns 0, a write is discarded, HOSTERR is set and
nothing else changes. No read of a CSR is refused, nor a write to a read-only one, which is ignored (R44), nor a write to CTRL
without START and ZEROIZE, which acts as R42 says; of the CSR writes, ENTRY (R52), START and ZEROIZE (R562, R563) are
refused. -/
def Obligations.MemoriesAreRefusedWhileBusy : Prop :=
  ∀ (s : State) (off : Nat) (v : Word), s.status.busy = true → off % 4 = 0 →
    ((0x400 ≤ off ∧ off < 0x800) ∨ (0x1000 ≤ off ∧ off < 0x2000) →
      hostRead off s = (0#32, { s with status := { s.status with hostErr := true } }) ∧
      hostWrite off v s = { s with status := { s.status with hostErr := true } }) ∧
    (off < 0x38 → (hostRead off s).2.status = s.status) ∧
    (off < 0x38 → off ≠ 0x2C → (hostRead off s).1 = csrValue (off / 4) s) ∧
    (off < 0x38 → off ≠ 4 → off ≠ 0x28 → hostWrite off v s = s) ∧
    hostWrite 0x28 v s = { s with status := { s.status with hostErr := true } } ∧
    (v.getLsbD 0 = false → v.getLsbD 2 = false → hostWrite 4 v s =
      { s with
        ie := v.getLsbD 3
        status := { s.status with
          irq := s.status.irq && !v.getLsbD 4
          hostErr := s.status.hostErr && !v.getLsbD 5
          abortReq := s.status.abortReq || v.getLsbD 1 } }) ∧
    (v.getLsbD 0 = true ∨ v.getLsbD 2 = true → (hostWrite 4 v s).status.hostErr = true)

/-- R55, R105: accesses to the reserved offsets return 0 or are discarded, and set HOSTERR, with no other effect. -/
def Obligations.ReservedOffsetsAreRefused : Prop :=
  ∀ (s : State) (off : Nat) (v : Word), off % 4 = 0 → (0x38 ≤ off ∧ off < 0x400) ∨ (0x800 ≤ off ∧ off < 0x1000) →
    hostRead off s = (0#32, { s with status := { s.status with hostErr := true } }) ∧
    hostWrite off v s = { s with status := { s.status with hostErr := true } }

/-- R40, R43 to R51, R54, and the 'collect' row of R566: what a host read of each CSR returns, idle or BUSY, and that it
changes nothing; PC while idle (R53 gives it while BUSY). STATUS has BUSY, DONE, FAULT, IRQ, HOSTERR and ABORTREQ in bits
0 to 5. R44: a host write to a read-only CSR changes nothing and is no host error. -/
def Obligations.HostReadsShowTheCsrsAndReadOnlyWritesAreIgnored : Prop :=
  ∀ s : State,
    hostRead 0x00 s = (0x48535031#32, s) ∧
    hostRead 0x04 s = (BitVec.ofNat 32 (8 * s.ie.toNat), s) ∧
    hostRead 0x08 s = (BitVec.ofNat 32 (s.status.busy.toNat + 2 * s.status.done.toNat + 4 * s.status.fault.toNat +
      8 * s.status.irq.toNat + 16 * s.status.hostErr.toNat + 32 * s.status.abortReq.toNat), s) ∧
    hostRead 0x0C s = (BitVec.ofNat 32 (s.flags.z.toNat + 2 * s.flags.c.toNat + 4 * s.flags.lt.toNat +
      8 * s.flags.v.toNat + 16 * s.flags.e.toNat), s) ∧
    hostRead 0x10 s = (BitVec.ofNat 32 s.err.toNat, s) ∧
    hostRead 0x14 s = (BitVec.ofNat 32 s.exitCode.toNat, s) ∧
    (∀ p ∈ [(FaultCause.none, 0), (.illegalInstruction, 1), (.dmemBounds, 2), (.pcRange, 3), (.backendFailure, 4),
        (.scalarRange, 5), (.aborted, 6)], s.faultRegs.cause = p.1 → hostRead 0x18 s = (BitVec.ofNat 32 p.2, s)) ∧
    hostRead 0x1C s = (BitVec.ofNat 32 s.faultRegs.pc.toNat, s) ∧
    hostRead 0x20 s = (s.faultRegs.insn, s) ∧
    hostRead 0x24 s = (s.faultRegs.info, s) ∧
    hostRead 0x28 s = (BitVec.ofNat 32 s.entry.toNat, s) ∧
    (s.status.busy = false → hostRead 0x2C s = (BitVec.ofNat 32 s.pc.toNat, s)) ∧
    hostRead 0x30 s = (4096#32, s) ∧
    hostRead 0x34 s = (256#32, s) ∧
    ∀ (c : Nat) (v : Word), c < 14 → c ≠ 1 → c ≠ 10 → hostWrite (4 * c) v s = s

/-- R52: ENTRY keeps the low 8 bits of a write made while idle; while BUSY the write is discarded and sets HOSTERR. START
begins there, it reads back, and it is 0 after reset. -/
def Obligations.EntryKeepsEightBitsWhileIdle : Prop :=
  ∀ (s : State) (v : Word),
    (s.status.busy = false → hostWrite 0x28 v s = { s with entry := BitVec.ofNat 8 (v.toNat % 256) }) ∧
    (s.status.busy = true → hostWrite 0x28 v s = { s with status := { s.status with hostErr := true } }) ∧
    (s.status.busy = false → (hostWrite 4 1#32 (hostWrite 0x28 v s)).pc = BitVec.ofNat 8 (v.toNat % 256)) ∧
    hostRead 0x28 s = (BitVec.ofNat 32 s.entry.toNat, s) ∧ State.reset.entry = 0#8

/-- R53, R572, I7: a read of PC while idle returns pc. While BUSY it returns any pc of the current run at or after the one
running when the read before was answered, reached already (the trail) or still to come: every choice is such a pc, every
such pc is a choice, and the choice taken is the draw. The trail is what it is said to be: START begins it at ENTRY; every
step of the run adds the pc it reaches and no other, and drops none but at an answered read, which cuts it to the pc
running. The form of the draw is the model's (log entry 6). -/
def Obligations.PcReadsStayOnTheTrail : Prop :=
  (∀ s : State, Inv s →
    (s.status.busy = false → hostRead 0x2C s = (BitVec.ofNat 32 s.pc.toNat, s)) ∧
    (s.status.busy = true →
      (hostRead 0x2C s).1 = BitVec.ofNat 32 (pcAt (Config.pcChoice s.env.draws) s).toNat ∧
      (∀ p, (∃ n, pcAt n s = p) ↔ p ∈ s.pcTrail ∨ Ahead (hostRead 0x2C s).2 p) ∧
      (hostRead 0x2C s).2.pcTrail = [s.pc] ∧
      { (hostRead 0x2C s).2 with pcTrail := s.pcTrail, env := s.env } = s)) ∧
  (∀ (s : State) (v : Word), s.status.busy = false → v.getLsbD 0 = true → (hostWrite 4 v s).pcTrail = [s.entry]) ∧
  ∀ s t : State, Inv s → s.status.busy = true → step s = .next t → t.status.busy = true →
    t.pc ∈ t.pcTrail ∧ (∀ p ∈ t.pcTrail, p ∈ s.pcTrail ∨ p = t.pc) ∧
      ((∀ p ∈ s.pcTrail, p ∈ t.pcTrail) ∨ ∃ a rest, s.env.inbox = .host a :: rest ∧ a.value = none ∧
        a.addr = Config.hspBase + 0x2C ∧ t.pcTrail = [s.pc])

/-- R42, R43, R515, R562, R563: what a host write of any value to CTRL leaves, its commands acting in the order IE,
IRQ_CLR, HOSTERR_CLR, ABORT, ZEROIZE, START. While idle ABORT is no request, and ZEROIZE with START zeroizes and then
starts. While BUSY a refused START or ZEROIZE leaves HOSTERR 1, HOSTERR_CLR or not. CTRL reads IE alone. -/
def Obligations.CtrlCommandsActInOrder : Prop :=
  ∀ (s : State) (v : Word) (start zero : Bool), start = v.getLsbD 0 → zero = v.getLsbD 2 →
    (s.status.busy = true → hostWrite 4 v s =
      { s with
        ie := v.getLsbD 3
        status := { s.status with
          irq := s.status.irq && !v.getLsbD 4
          hostErr := (s.status.hostErr && !v.getLsbD 5) || zero || start
          abortReq := s.status.abortReq || v.getLsbD 1 } }) ∧
    (s.status.busy = false →
      (hostWrite 4 v s).status =
        { busy := start
          done := s.status.done && !zero && !start
          fault := s.status.fault && !zero && !start
          irq := s.status.irq && !v.getLsbD 4 && !zero && !start
          hostErr := s.status.hostErr && !v.getLsbD 5
          abortReq := s.status.abortReq && !start } ∧
      (hostWrite 4 v s).ie = v.getLsbD 3 ∧
      (hostWrite 4 v s).pc = (if start then s.entry else if zero then 0#8 else s.pc) ∧
      (hostWrite 4 v s).flags = (if start || zero then ⟨false, false, false, false, false⟩ else s.flags) ∧
      (hostWrite 4 v s).err = (if start || zero then 0#8 else s.err) ∧
      (hostWrite 4 v s).exitCode = (if start || zero then 0#8 else s.exitCode) ∧
      (hostWrite 4 v s).faultRegs = (if start || zero then ⟨.none, 0#8, 0#32, 0#32⟩ else s.faultRegs) ∧
      (∀ r, getReg r (hostWrite 4 v s) = if zero then 0#32 else getReg r s) ∧
      (∀ k, getK k (hostWrite 4 v s) = if zero then 0#256 else getK k s) ∧
      (∀ a, dmemByte (hostWrite 4 v s) a = if zero then 0#8 else dmemByte s a) ∧
      (∀ n, imemWord (hostWrite 4 v s) n = imemWord s n) ∧ (hostWrite 4 v s).entry = s.entry ∧
      (hostWrite 4 v s).env = s.env) ∧
    hostRead 4 (hostWrite 4 v s) = (BitVec.ofNat 32 (8 * (v.getLsbD 3).toNat), hostWrite 4 v s)

/-! ## Reset, START, ZEROIZE (70_reset_and_hazards.md) -/

/-- R58: every piece of state after reset. R560: hardware reset, at any moment, gives that state, so that a run and a port
request in flight are abandoned. That the schedule, the answers and the draws of the world outside go on is the model's
choice (log entry 4). -/
def Obligations.ResetGivesEveryValueOfTheTable : Prop :=
  (∀ r, getReg r State.reset = 0#32) ∧ (∀ k, getK k State.reset = 0#256) ∧ State.reset.pc = 0#8 ∧
  State.reset.flags = ⟨false, false, false, false, false⟩ ∧ State.reset.ie = false ∧
  statusWord State.reset.status = 0#32 ∧ State.reset.err = 0#8 ∧ State.reset.exitCode = 0#8 ∧
  State.reset.faultRegs = ⟨.none, 0#8, 0#32, 0#32⟩ ∧ State.reset.entry = 0#8 ∧
  csrValue 0 State.reset = 0x48535031#32 ∧ csrValue 12 State.reset = 4096#32 ∧ csrValue 13 State.reset = 256#32 ∧
  (∀ a, dmemByte State.reset a = 0#8) ∧ (∀ n, imemWord State.reset n = 0#32) ∧
  (∃ e, decode (0#32) = .error e) ∧ irqLine State.reset = false ∧
  ∀ (s : State) (rest : List Move), s.env.inbox = .reset :: rest →
    step s = .next { State.reset with env := { s.env with inbox := rest } }

/-- R562: START refused while BUSY sets HOSTERR alone; while idle a run begins at ENTRY, flags and result registers clear,
everything else kept. `v` has no ZEROIZE, IRQ_CLR or HOSTERR_CLR, and stores IE. -/
def Obligations.StartBeginsARunAtEntry : Prop :=
  ∀ (s : State) (v : Word), v.getLsbD 0 = true → v.getLsbD 1 = false → v.getLsbD 2 = false → v.getLsbD 4 = false →
    v.getLsbD 5 = false →
    (s.status.busy = true →
      hostWrite 4 v s = { s with ie := v.getLsbD 3, status := { s.status with hostErr := true } }) ∧
    (s.status.busy = false →
      (hostWrite 4 v s).pc = s.entry ∧
      (hostWrite 4 v s).status = ⟨true, false, false, false, s.status.hostErr, false⟩ ∧
      (hostWrite 4 v s).flags = ⟨false, false, false, false, false⟩ ∧ (hostWrite 4 v s).err = 0#8 ∧
      (hostWrite 4 v s).exitCode = 0#8 ∧ (hostWrite 4 v s).faultRegs = ⟨.none, 0#8, 0#32, 0#32⟩ ∧
      (hostWrite 4 v s).ie = v.getLsbD 3 ∧ (hostWrite 4 v s).inFlight = false ∧
      (hostWrite 4 v s).entry = s.entry ∧ DataKept [] [] 0 0 s (hostWrite 4 v s) ∧
      (∀ n, imemWord (hostWrite 4 v s) n = imemWord s n) ∧
      (s.env.inbox = [] → ∀ i, decode (imemWord s s.entry.toNat) = .ok i →
        step (hostWrite 4 v s) = exec i (hostWrite 4 v s)))

/-- R563: ZEROIZE refused while BUSY sets HOSTERR alone; while idle it clears key material and results, and keeps IMEM,
ENTRY, IE as written, and HOSTERR. -/
def Obligations.ZeroizeClearsKeyMaterial : Prop :=
  ∀ (s : State) (v : Word), v.getLsbD 2 = true → v.getLsbD 0 = false → v.getLsbD 1 = false → v.getLsbD 4 = false →
    v.getLsbD 5 = false →
    (s.status.busy = true →
      hostWrite 4 v s = { s with ie := v.getLsbD 3, status := { s.status with hostErr := true } }) ∧
    (s.status.busy = false →
      (∀ a, dmemByte (hostWrite 4 v s) a = 0#8) ∧ (∀ r, getReg r (hostWrite 4 v s) = 0#32) ∧
      (∀ k, getK k (hostWrite 4 v s) = 0#256) ∧ (hostWrite 4 v s).pc = 0#8 ∧
      (hostWrite 4 v s).flags = ⟨false, false, false, false, false⟩ ∧ (hostWrite 4 v s).err = 0#8 ∧
      (hostWrite 4 v s).exitCode = 0#8 ∧ (hostWrite 4 v s).faultRegs = ⟨.none, 0#8, 0#32, 0#32⟩ ∧
      (hostWrite 4 v s).status = { s.status with done := false, fault := false, irq := false } ∧
      (∀ n, imemWord (hostWrite 4 v s) n = imemWord s n) ∧ (hostWrite 4 v s).entry = s.entry ∧
      (hostWrite 4 v s).ie = v.getLsbD 3)

/-! ## The whole machine -/

/-- The machine right after reset meets the invariant (R43, R58). -/
def Obligations.ResetMeetsTheInvariant : Prop := Inv State.reset

/-- Every step, of the engine, of the host or of reset, keeps the invariant (R31, R37, R43, R47 to R51, R53, R56, R91,
R92). -/
def Obligations.EveryStepKeepsTheInvariant : Prop :=
  ∀ s t : State, Inv s → step s = .next t → Inv t

/-- Only a broken duty of the world outside stops the machine. A step is refused only for a host access that the model gives
no move (R101, I10), or an entropy answer of the wrong length (R566, I11). And, left alone by the host, a run goes on
where the collaborators answer (R581): every instruction but ENTROPY and PUBK ends in its step, and so do these where they
make no request (R452, R454); an instruction whose request, if it makes one, is answered eventually ends, having done
nothing but wait before; an abort then ends the run; and under the weak-fairness premise, which is about requests that
are made, the run ends or any number of its instructions complete. -/
def Obligations.OnlyABrokenDutyStopsTheMachine : Prop :=
  (∀ s : State, (∃ t, step s = .next t) ∨
    (step s = .refused .hostAccess ∧ ∃ a rest, s.env.inbox = .host a :: rest ∧ ¬DutifulAccess a) ∨
    (step s = .refused .answerLength ∧ ∃ bs rest rd rl, s.env.entropyIn = .bytes bs :: rest ∧
      decode (fetchWord s) = .ok (.entropy rd rl) ∧ bs.length ≠ regNat rl s)) ∧
  ∀ s : State, s.env.inbox = [] → s.status.busy = true →
    (RunsNow s → ∀ i, decode (fetchWord s) = .ok i → (∀ rd rl, i ≠ .entropy rd rl) → (∀ rd ks, i ≠ .pubk rd ks) →
      ∃ u, step s = .next u ∧ u.inFlight = false) ∧
    (RunsNow s → (∀ n, ¬RequestsEntropy n s) → ¬RequestsCurve s → ∃ u, step s = .next u ∧ u.inFlight = false) ∧
    (RunsNow s → RequestAnswered s → ∃ t u, Reaches s t ∧ t = { s with env := t.env, inFlight := t.inFlight } ∧
      step t = .next u ∧ u.inFlight = false) ∧
    (s.status.abortReq = true → RequestAnswered s → ∃ u, Reaches s u ∧ u.status.busy = false) ∧
    (Fair s → ∀ n, ∃ m u, m ≤ n ∧ Completes m s u ∧ (u.status.busy = false ∨ m = n))
end

