-- ==== Sys2Proof/Laws/Bytes.lean ====
section
/-! SUPPORT. The laws of the big-endian codings, of bit sequences and pieces, and the lengths of the hash results. -/

namespace Sys2Proof.Machine

/-! ## Big-endian codings (R11) -/

@[simp] theorem length_beBytes (n v : Nat) : (beBytes n v).length = n := by
  induction n with
  | zero => rfl
  | succ n ih => simp [beBytes, ih]

theorem foldl_bytes (acc : Nat) (bs : List Byte) :
    bs.foldl (fun a b => a * 256 + b.toNat) acc = acc * 256 ^ bs.length + intBE bs := by
  induction bs generalizing acc with
  | nil => simp [intBE]
  | cons b bs ih =>
    simp only [List.foldl_cons, List.length_cons, intBE]
    rw [ih, ih (0 * 256 + b.toNat)]
    ring

theorem intBE_nil : intBE [] = 0 := rfl

theorem intBE_cons (b : Byte) (bs : List Byte) : intBE (b :: bs) = b.toNat * 256 ^ bs.length + intBE bs := by
  rw [intBE, List.foldl_cons, foldl_bytes]
  simp

theorem intBE_append (xs ys : List Byte) : intBE (xs ++ ys) = intBE xs * 256 ^ ys.length + intBE ys := by
  rw [intBE, List.foldl_append, foldl_bytes]
  rfl

/-- A byte string's integer fits its length. -/
theorem intBE_lt (bs : List Byte) : intBE bs < 256 ^ bs.length := by
  induction bs with
  | nil => simp [intBE]
  | cons b bs ih =>
    rw [intBE_cons, List.length_cons, pow_succ]
    have := b.isLt
    nlinarith [Nat.pos_of_ne_zero (pow_ne_zero bs.length (by norm_num : (256 : Nat) ≠ 0))]

/-- `intBE(BE_n(v))` is v modulo 2^(8n). -/
theorem intBE_beBytes (n v : Nat) : intBE (beBytes n v) = v % 2 ^ (8 * n) := by
  induction n with
  | zero => simp [beBytes, intBE, Nat.mod_one]
  | succ n ih =>
    rw [beBytes, intBE_cons, ih, length_beBytes, BitVec.toNat_ofNat, show (256 : Nat) = 2 ^ 8 by norm_num, ← pow_mul,
      show 8 * (n + 1) = 8 * n + 8 by ring, pow_add, Nat.mod_mul]
    ring

/-- `BE_n(intBE(B))` is B, for a string of n bytes. -/
theorem beBytes_intBE (bs : List Byte) : beBytes bs.length (intBE bs) = bs := by
  induction bs with
  | nil => rfl
  | cons b bs ih =>
    have hlt := intBE_lt bs
    have hp : (2 : Nat) ^ (8 * bs.length) = 256 ^ bs.length := by
      rw [show (256 : Nat) = 2 ^ 8 by norm_num, ← pow_mul]
    have hmod : ∀ n v k, beBytes n (k * 2 ^ (8 * n) + v) = beBytes n v := by
      intro n
      induction n with
      | zero => intros; rfl
      | succ n ih' =>
        intro v k
        rw [beBytes, beBytes]
        congr 1
        · apply BitVec.eq_of_toNat_eq
          rw [BitVec.toNat_ofNat, BitVec.toNat_ofNat, show 8 * (n + 1) = 8 * n + 8 by ring, pow_add,
            show k * (2 ^ (8 * n) * 2 ^ 8) + v = v + 2 ^ (8 * n) * (k * 2 ^ 8) by ring,
            Nat.add_mul_div_left _ _ (by positivity), Nat.add_mul_mod_self_right]
        · rw [show k * 2 ^ (8 * (n + 1)) + v = (k * 2 ^ 8) * 2 ^ (8 * n) + v by
            rw [show 8 * (n + 1) = 8 * n + 8 by ring, pow_add]; ring, ih']
    rw [List.length_cons, beBytes, intBE_cons, ← hp, hmod, ih]
    congr 1
    apply BitVec.eq_of_toNat_eq
    rw [BitVec.toNat_ofNat, Nat.add_comm, Nat.add_mul_div_right _ _ (by positivity),
      Nat.div_eq_of_lt (by rw [hp]; exact hlt), Nat.zero_add]
    exact Nat.mod_eq_of_lt b.isLt

/-! ## Pieces -/

@[simp] theorem length_pieces {α : Type} (n count : Nat) (l : List α) : (pieces n count l).length = count := by
  induction count generalizing l with
  | zero => rfl
  | succ c ih => simp [pieces, ih]

theorem length_of_mem_pieces {α : Type} {n count : Nat} {l p : List α} (hl : n * count ≤ l.length)
    (hp : p ∈ pieces n count l) : p.length = n := by
  induction count generalizing l with
  | zero => simp [pieces] at hp
  | succ c ih =>
    rw [Nat.mul_succ] at hl
    rcases List.mem_cons.1 hp with rfl | hp
    · simp; omega
    · exact ih (by simp; omega) hp

/-- The pieces of a list, joined, are its beginning. -/
theorem flatten_pieces {α : Type} (n count : Nat) (l : List α) :
    (pieces n count l).flatten = l.take (n * count) := by
  induction count generalizing l with
  | zero => simp [pieces]
  | succ c ih => rw [pieces, List.flatten_cons, ih, Nat.mul_succ, Nat.add_comm (n * c) n, List.take_add]

/-- The pieces of joined strings of one length are the strings. -/
theorem pieces_flatten {α : Type} {n : Nat} {ps : List (List α)} (h : ∀ p ∈ ps, p.length = n) :
    pieces n ps.length ps.flatten = ps := by
  induction ps with
  | nil => rfl
  | cons p ps ih =>
    have hp := h p (by simp)
    rw [List.length_cons, pieces, List.flatten_cons, ← hp, List.take_left, List.drop_left, hp,
      ih fun q hq => h q (by simp [hq])]

/-! ## Bit sequences (R10, R401) -/

@[simp] theorem length_bitsMsb (n v : Nat) : (bitsMsb n v).length = n := by
  induction n with
  | zero => rfl
  | succ n ih => simp [bitsMsb, ih]

theorem foldl_bits (acc : Nat) (bits : List Bool) :
    bits.foldl (fun a b => 2 * a + b.toNat) acc = acc * 2 ^ bits.length + natOfBits bits := by
  induction bits generalizing acc with
  | nil => simp [natOfBits]
  | cons b bits ih =>
    simp only [List.foldl_cons, List.length_cons, natOfBits]
    rw [ih, ih (2 * 0 + b.toNat)]
    ring

theorem natOfBits_cons (b : Bool) (bits : List Bool) :
    natOfBits (b :: bits) = b.toNat * 2 ^ bits.length + natOfBits bits := by
  rw [natOfBits, List.foldl_cons, foldl_bits]
  simp

theorem natOfBits_lt (bits : List Bool) : natOfBits bits < 2 ^ bits.length := by
  induction bits with
  | nil => simp [natOfBits]
  | cons b bits ih =>
    rw [natOfBits_cons, List.length_cons, pow_succ]
    cases b <;> simp <;> omega

/-- Reading back the low n bits of v gives v modulo 2^n. -/
theorem natOfBits_bitsMsb (n v : Nat) : natOfBits (bitsMsb n v) = v % 2 ^ n := by
  induction n with
  | zero => simp [bitsMsb, natOfBits, Nat.mod_one]
  | succ n ih =>
    rw [bitsMsb, natOfBits_cons, ih, length_bitsMsb, Nat.mod_pow_succ, Nat.toNat_testBit]
    ring

/-- Writing a bit string's integer in as many bits gives the string. -/
theorem bitsMsb_natOfBits (bits : List Bool) : bitsMsb bits.length (natOfBits bits) = bits := by
  induction bits with
  | nil => rfl
  | cons b bits ih =>
    have hlt := natOfBits_lt bits
    have hmod : ∀ n v k, bitsMsb n (k * 2 ^ n + v) = bitsMsb n v := by
      intro n
      induction n with
      | zero => intros; rfl
      | succ n ih' =>
        intro v k
        rw [bitsMsb, bitsMsb]
        congr 1
        · rw [Nat.testBit_eq_decide_div_mod_eq, Nat.testBit_eq_decide_div_mod_eq,
            show k * 2 ^ (n + 1) + v = v + 2 ^ n * (2 * k) by ring, Nat.add_mul_div_left _ _ (by positivity),
            Nat.add_mul_mod_self_left]
        · rw [show k * 2 ^ (n + 1) + v = (2 * k) * 2 ^ n + v by ring, ih']
    rw [List.length_cons, bitsMsb, natOfBits_cons, hmod, ih]
    congr 1
    rw [Nat.testBit_eq_decide_div_mod_eq, Nat.add_comm, Nat.add_mul_div_right _ _ (by positivity),
      Nat.div_eq_of_lt hlt]
    cases b <;> simp

theorem length_bitsOf (bs : List Byte) : (bitsOf bs).length = 8 * bs.length := by
  induction bs with
  | nil => rfl
  | cons b bs ih =>
    have : bitsOf (b :: bs) = bitsMsb 8 b.toNat ++ bitsOf bs := rfl
    rw [this, List.length_append, ih, length_bitsMsb, List.length_cons]
    ring

/-! ## Lengths of the results -/

@[simp] theorem length_hashWords {w : Nat} (h : Hash8 w) : (hashWords h).length = 8 := rfl

theorem length_sha2 {w : Nat} (p : Sha2 w) (m : List Byte) : (sha2 p m).length = 8 * p.wordBytes := by
  simp only [sha2, hashWords, List.flatMap_cons, List.flatMap_nil, List.length_append, length_beBytes, List.length_nil]
  ring

/-- A SHA-256 digest is 32 bytes (R305). -/
@[simp] theorem length_sha256 (m : List Byte) : (sha256 m).length = 32 := length_sha2 _ m

/-- A SHA-512 digest is 64 bytes (R310). -/
@[simp] theorem length_sha512 (m : List Byte) : (sha512 m).length = 64 := length_sha2 _ m

/-- An HMAC-SHA512 result is 64 bytes (R312). -/
@[simp] theorem length_hmac512 (key msg : List Byte) : (hmac512 key msg).length = 64 := length_sha512 _

theorem length_hmacKey (key : List Byte) : (hmacKey key).length = 128 := by
  simp only [hmacKey, List.length_append, List.length_replicate]
  split
  · simp
  · omega

@[simp] theorem length_xorBytes (x y : List Byte) : (xorBytes x y).length = min x.length y.length := by
  simp [xorBytes]

theorem length_pbkdf2Iterate (p : List Byte) (n : Nat) (u t : List Byte) (ht : t.length = 64) :
    (pbkdf2Iterate p n u t).length = 64 := by
  induction n generalizing u t with
  | zero => exact ht
  | succ n ih => exact ih _ _ (by simp [ht])

/-- A PBKDF2 result is 64 bytes (R314). -/
@[simp] theorem length_pbkdf2 (p s : List Byte) (c : Nat) : (pbkdf2 p s c).length = 64 :=
  length_pbkdf2Iterate p _ _ _ (by simp)

theorem length_halfwords (idx : List Nat) : (halfwords idx).length = 2 * idx.length := by
  induction idx with
  | nil => rfl
  | cons i idx ih =>
    have : halfwords (i :: idx) = beBytes 2 i ++ halfwords idx := rfl
    rw [this, List.length_append, ih, length_beBytes, List.length_cons]
    ring

/-- The word count of R401. -/
theorem length_packIndices (entropy : List Byte) :
    (packIndices entropy).length = (8 * entropy.length + 8 * entropy.length / 32) / 11 := by
  simp [packIndices]

/-- The entropy length of R403. -/
theorem length_unpackEntropy (idx : List Nat) : (unpackEntropy idx).length = 32 * idx.length / 3 / 8 := by
  simp [unpackEntropy, entropyBitsLen]

@[simp] theorem length_halfwordValues (n : Nat) (bs : List Byte) : (halfwordValues n bs).length = n := by
  simp [halfwordValues]

/-- The values of index halfwords read back (R404). -/
theorem halfwordValues_halfwords {idx : List Nat} (h : ∀ i ∈ idx, i < 65536) :
    halfwordValues idx.length (halfwords idx) = idx := by
  have hp : ∀ p ∈ idx.map (beBytes 2), p.length = 2 := by
    intro p hp
    obtain ⟨i, _, rfl⟩ := List.mem_map.1 hp
    simp
  have : pieces 2 idx.length (halfwords idx) = idx.map (beBytes 2) := by
    have := pieces_flatten hp
    rwa [List.length_map] at this
  rw [halfwordValues, this, List.map_map]
  conv_rhs => rw [← List.map_id idx]
  refine List.map_congr_left fun i hi => ?_
  rw [Function.comp, intBE_beBytes]
  exact Nat.mod_eq_of_lt (h i hi)

end Sys2Proof.Machine
end

