-- ==== Sys2Proof/Laws/Bits.lean ====
section
/-! SUPPORT. Bit sequences as integers: joining, cutting, and the groups the bit-packer reads (R10, R401, R403). -/

namespace Sys2Proof.Machine

theorem natOfBits_append (x y : List Bool) : natOfBits (x ++ y) = natOfBits x * 2 ^ y.length + natOfBits y := by
  rw [natOfBits, List.foldl_append, foldl_bits]
  rfl

/-- The leading bits, as an integer, are the high part. -/
theorem natOfBits_take (l : List Bool) (n : Nat) :
    natOfBits (l.take n) = natOfBits l / 2 ^ (l.length - n) := by
  conv_rhs => rw [← List.take_append_drop n l, natOfBits_append]
  have hd : (l.drop n).length = l.length - n := by simp
  have hlt := natOfBits_lt (l.drop n)
  rw [List.take_append_drop, hd] at *
  rw [Nat.add_comm, Nat.add_mul_div_right _ _ (by positivity), Nat.div_eq_of_lt hlt, Nat.zero_add]

/-- The trailing bits, as an integer, are the low part. -/
theorem natOfBits_drop (l : List Bool) (n : Nat) :
    natOfBits (l.drop n) = natOfBits l % 2 ^ (l.length - n) := by
  conv_rhs => rw [← List.take_append_drop n l, natOfBits_append]
  have hd : (l.drop n).length = l.length - n := by simp
  have hlt := natOfBits_lt (l.drop n)
  rw [List.take_append_drop, hd] at *
  rw [Nat.mul_add_mod_self_right, Nat.mod_eq_of_lt hlt]

/-- Piece t of a list is its `n` elements from `n * t`. -/
theorem pieces_getD {α : Type} {n : Nat} (count : Nat) (l : List α) (t : Nat) (h : t < count) :
    (pieces n count l).getD t [] = (l.drop (n * t)).take n := by
  induction count generalizing l t with
  | zero => omega
  | succ c ih =>
    cases t with
    | zero => simp [pieces]
    | succ t =>
      simp only [pieces, List.getD_cons_succ, ih _ t (by omega), List.drop_drop]
      congr 2
      ring

/-- Group t of `count` groups of `n` bits, as an integer. -/
theorem natOfBits_piece {n count : Nat} {l : List Bool} (hl : l.length = n * count) {t : Nat} (h : t < count) :
    natOfBits ((pieces n count l).getD t []) = natOfBits l / 2 ^ (n * (count - 1 - t)) % 2 ^ n := by
  have h1 : n * t + n ≤ n * count := by
    rw [← Nat.mul_succ]
    exact Nat.mul_le_mul_left n h
  have h2 : n * (count - 1 - t) = n * count - (n * t + n) := by
    rw [Nat.mul_sub, Nat.mul_sub, Nat.mul_one]
    omega
  rw [pieces_getD _ _ _ h, List.take_drop, natOfBits_drop, natOfBits_take, List.length_take,
    Nat.min_eq_left (by omega), hl, h2, Nat.add_sub_cancel_left]

/-- The bits of a byte string, read most significant first, are its big-endian integer. -/
theorem natOfBits_bitsOf (bs : List Byte) : natOfBits (bitsOf bs) = intBE bs := by
  induction bs with
  | nil => rfl
  | cons b bs ih =>
    have : bitsOf (b :: bs) = bitsMsb 8 b.toNat ++ bitsOf bs := rfl
    rw [this, natOfBits_append, natOfBits_bitsMsb, ih, intBE_cons, length_bitsOf, Nat.mod_eq_of_lt b.isLt, Nat.pow_mul]

/-- Two bit strings of one length with one integer are equal. -/
theorem bits_ext {x y : List Bool} (hl : x.length = y.length) (h : natOfBits x = natOfBits y) : x = y := by
  rw [← bitsMsb_natOfBits x, ← bitsMsb_natOfBits y, hl, h]

theorem length_combinedBits (idx : List Nat) : (combinedBits idx).length = 11 * idx.length := by
  induction idx with
  | nil => rfl
  | cons i idx ih =>
    have : combinedBits (i :: idx) = bitsMsb 11 i ++ combinedBits idx := rfl
    rw [this, List.length_append, ih, length_bitsMsb, List.length_cons]
    ring

/-- The integer of joined 11-bit groups, for word indices in range. -/
theorem natOfBits_combinedBits {idx : List Nat} (h : ∀ i ∈ idx, i < 2048) :
    natOfBits (combinedBits idx) = idx.foldl (fun acc x => acc * 2048 + x) 0 := by
  have key : ∀ (idx : List Nat) (acc : Nat), (∀ i ∈ idx, i < 2048) →
      idx.foldl (fun acc x => acc * 2048 + x) acc = acc * 2 ^ (11 * idx.length) + natOfBits (combinedBits idx) := by
    intro idx
    induction idx with
    | nil => intro acc _; simp [combinedBits, natOfBits]
    | cons i idx ih =>
      intro acc h
      have hc : combinedBits (i :: idx) = bitsMsb 11 i ++ combinedBits idx := rfl
      have hi : i % 2 ^ 11 = i := Nat.mod_eq_of_lt (h i (.head _))
      rw [List.foldl_cons, ih _ fun j hj => h j (.tail _ hj), hc, natOfBits_append, natOfBits_bitsMsb,
        length_combinedBits, hi, List.length_cons,
        show 11 * (idx.length + 1) = 11 * idx.length + 11 by ring, Nat.pow_add]
      ring
  rw [key idx 0 h]
  simp

/-- Cutting a bit string into groups and joining the groups again. -/
theorem combinedBits_pieces {l : List Bool} {count : Nat} (hl : l.length = 11 * count) :
    combinedBits ((pieces 11 count l).map natOfBits) = l := by
  have : combinedBits ((pieces 11 count l).map natOfBits) = (pieces 11 count l).flatten := by
    rw [combinedBits, List.flatMap_map, List.flatMap_def]
    conv_rhs => rw [← List.map_id (pieces 11 count l)]
    congr 1
    refine List.map_congr_left fun p hp => ?_
    have := length_of_mem_pieces (by omega) hp
    simpa [this] using bitsMsb_natOfBits p
  rw [this, flatten_pieces, ← hl, List.take_length]

/-- The groups of joined word indices in range are the word indices. -/
theorem pieces_combinedBits {idx : List Nat} (h : ∀ i ∈ idx, i < 2048) :
    (pieces 11 idx.length (combinedBits idx)).map natOfBits = idx := by
  have hp : ∀ p ∈ idx.map (bitsMsb 11), p.length = 11 := by
    intro p hp
    obtain ⟨i, _, rfl⟩ := List.mem_map.1 hp
    simp
  have hf := pieces_flatten hp
  rw [List.length_map, ← List.flatMap_def] at hf
  rw [combinedBits, hf, List.map_map]
  conv_rhs => rw [← List.map_id idx]
  refine List.map_congr_left fun i hi => ?_
  rw [Function.comp, natOfBits_bitsMsb]
  exact Nat.mod_eq_of_lt (h i hi)

/-- The bytes cut from the bits of a byte string, whatever bits follow, are the byte string. -/
theorem bytes_of_bits (bs : List Byte) (rest : List Bool) :
    (pieces 8 bs.length (bitsOf bs ++ rest)).map (fun bits => BitVec.ofNat 8 (natOfBits bits)) = bs := by
  induction bs with
  | nil => rfl
  | cons b bs ih =>
    have hb : bitsOf (b :: bs) = bitsMsb 8 b.toNat ++ bitsOf bs := rfl
    have h8 : (bitsMsb 8 b.toNat).length = 8 := length_bitsMsb ..
    rw [hb, List.length_cons, pieces, List.append_assoc, List.map_cons]
    rw [List.take_left' h8, List.drop_left' h8, ih, natOfBits_bitsMsb]
    congr 1
    exact BitVec.eq_of_toNat_eq (by simpa using b.isLt)

/-- The bits of the bytes cut from a bit string are that many of its bits. -/
theorem bits_of_bytes (count : Nat) (l : List Bool) (h : 8 * count ≤ l.length) :
    bitsOf ((pieces 8 count l).map (fun bits => BitVec.ofNat 8 (natOfBits bits))) = l.take (8 * count) := by
  rw [bitsOf, List.flatMap_map, List.flatMap_def, ← flatten_pieces]
  conv_rhs => rw [← List.map_id (pieces 8 count l)]
  congr 1
  refine List.map_congr_left fun p hp => ?_
  have hl := length_of_mem_pieces h hp
  have hlt := natOfBits_lt p
  rw [hl] at hlt
  rw [BitVec.toNat_ofNat, Nat.mod_eq_of_lt hlt]
  simpa [hl] using bitsMsb_natOfBits p

end Sys2Proof.Machine
end

