-- ==== Sys2Proof/Laws/Decode.lean ====
section
/-! SUPPORT. The fields of a word that the encoder puts together, for the decoder: each field reads back, and the bits
that must be zero are zero; and the codings of register, scalar and condition numbers read back. -/

namespace Sys2Proof

theorem toNat_append {n m : Nat} (x : BitVec n) (y : BitVec m) : (x ++ y).toNat = x.toNat * 2 ^ m + y.toNat := by
  rw [BitVec.toNat_append, ← Nat.shiftLeft_add_eq_or_of_lt y.isLt, Nat.shiftLeft_eq]

/-- A field of a word, as a number. -/
theorem toNat_field {n : Nat} (w : BitVec n) (lo len : Nat) :
    (w.extractLsb' lo len).toNat = w.toNat / 2 ^ lo % 2 ^ len := by
  rw [BitVec.extractLsb'_toNat, Nat.shiftRight_eq_div_pow]

section FormatR

variable (op : BitVec 6) (a b c d e f : BitVec 4)

theorem toNat_wordR : (wordR op a b c d e f).toNat =
    op.toNat * 67108864 + a.toNat * 4194304 + b.toNat * 262144 + c.toNat * 16384 + d.toNat * 1024 + e.toNat * 64
      + f.toNat * 4 := by
  simp only [wordR, toNat_append, BitVec.toNat_ofNat]
  omega

@[simp] theorem opcode_wordR : opcode (wordR op a b c d e f) = op := by
  apply BitVec.eq_of_toNat_eq
  simp only [opcode, toNat_field, toNat_wordR]
  omega

@[simp] theorem fieldA_wordR : fieldA (wordR op a b c d e f) = a := by
  apply BitVec.eq_of_toNat_eq
  simp only [fieldA, toNat_field, toNat_wordR]
  omega

@[simp] theorem fieldB_wordR : fieldB (wordR op a b c d e f) = b := by
  apply BitVec.eq_of_toNat_eq
  simp only [fieldB, toNat_field, toNat_wordR]
  omega

@[simp] theorem fieldC_wordR : fieldC (wordR op a b c d e f) = c := by
  apply BitVec.eq_of_toNat_eq
  simp only [fieldC, toNat_field, toNat_wordR]
  omega

@[simp] theorem fieldD_wordR : fieldD (wordR op a b c d e f) = d := by
  apply BitVec.eq_of_toNat_eq
  simp only [fieldD, toNat_field, toNat_wordR]
  omega

@[simp] theorem fieldE_wordR : fieldE (wordR op a b c d e f) = e := by
  apply BitVec.eq_of_toNat_eq
  simp only [fieldE, toNat_field, toNat_wordR]
  omega

@[simp] theorem fieldF_wordR : fieldF (wordR op a b c d e f) = f := by
  apply BitVec.eq_of_toNat_eq
  simp only [fieldF, toNat_field, toNat_wordR]
  omega

/-- The bits of a word of format R below bit `lo`. -/
theorem low_wordR (lo : Nat) : ((wordR op a b c d e f).extractLsb' 0 lo).toNat =
    (op.toNat * 67108864 + a.toNat * 4194304 + b.toNat * 262144 + c.toNat * 16384 + d.toNat * 1024 + e.toNat * 64
      + f.toNat * 4) % 2 ^ lo := by
  simp only [toNat_field, toNat_wordR, pow_zero, Nat.div_one]

/-- Bits 1:0 are zero (R132). -/
@[simp] theorem mustBeZero_wordR_2 : mustBeZero (wordR op a b c d e f) 0 2 = .ok () := by
  refine if_pos (BitVec.eq_of_toNat_eq ?_)
  rw [low_wordR]
  simp only [BitVec.toNat_ofNat]
  omega

/-- Field F is unused. -/
@[simp] theorem mustBeZero_wordR_6 : mustBeZero (wordR op a b c d e 0#4) 0 6 = .ok () := by
  refine if_pos (BitVec.eq_of_toNat_eq ?_)
  rw [low_wordR]
  simp only [BitVec.toNat_ofNat]
  omega

/-- Fields D to F are unused. -/
@[simp] theorem mustBeZero_wordR_14 : mustBeZero (wordR op a b c 0#4 0#4 0#4) 0 14 = .ok () := by
  refine if_pos (BitVec.eq_of_toNat_eq ?_)
  rw [low_wordR]
  simp only [BitVec.toNat_ofNat]
  omega

/-- Fields C to F are unused. -/
@[simp] theorem mustBeZero_wordR_18 : mustBeZero (wordR op a b 0#4 0#4 0#4 0#4) 0 18 = .ok () := by
  refine if_pos (BitVec.eq_of_toNat_eq ?_)
  rw [low_wordR]
  simp only [BitVec.toNat_ofNat]
  omega

/-- Fields B to F are unused. -/
@[simp] theorem mustBeZero_wordR_22 : mustBeZero (wordR op a 0#4 0#4 0#4 0#4 0#4) 0 22 = .ok () := by
  refine if_pos (BitVec.eq_of_toNat_eq ?_)
  rw [low_wordR]
  simp only [BitVec.toNat_ofNat]
  omega

end FormatR

section FormatI

variable (op : BitVec 6) (a b : BitVec 4) (imm : BitVec 16)

theorem toNat_wordI : (wordI op a b imm).toNat =
    op.toNat * 67108864 + a.toNat * 4194304 + b.toNat * 262144 + imm.toNat := by
  simp only [wordI, toNat_append, BitVec.toNat_ofNat]
  omega

@[simp] theorem opcode_wordI : opcode (wordI op a b imm) = op := by
  apply BitVec.eq_of_toNat_eq
  simp only [opcode, toNat_field, toNat_wordI]
  omega

@[simp] theorem fieldA_wordI : fieldA (wordI op a b imm) = a := by
  apply BitVec.eq_of_toNat_eq
  simp only [fieldA, toNat_field, toNat_wordI]
  omega

@[simp] theorem fieldB_wordI : fieldB (wordI op a b imm) = b := by
  apply BitVec.eq_of_toNat_eq
  simp only [fieldB, toNat_field, toNat_wordI]
  omega

@[simp] theorem imm16_wordI : imm16 (wordI op a b imm) = imm := by
  apply BitVec.eq_of_toNat_eq
  simp only [imm16, toNat_field, toNat_wordI]
  omega

/-- Bits 17:16 are zero (R133). -/
@[simp] theorem mustBeZero_wordI_2 : mustBeZero (wordI op a b imm) 16 2 = .ok () := by
  refine if_pos (BitVec.eq_of_toNat_eq ?_)
  simp only [toNat_field, toNat_wordI, BitVec.toNat_ofNat]
  omega

/-- Field B is unused. -/
@[simp] theorem mustBeZero_wordI_6 : mustBeZero (wordI op a 0#4 imm) 16 6 = .ok () := by
  refine if_pos (BitVec.eq_of_toNat_eq ?_)
  simp only [toNat_field, toNat_wordI, BitVec.toNat_ofNat]
  omega

/-- Fields A and B are unused. -/
@[simp] theorem mustBeZero_wordI_10 : mustBeZero (wordI op 0#4 0#4 imm) 16 10 = .ok () := by
  refine if_pos (BitVec.eq_of_toNat_eq ?_)
  simp only [toNat_field, toNat_wordI, BitVec.toNat_ofNat]
  omega

end FormatI

/-! ## Codings of register, scalar and condition numbers -/

@[simp] theorem asReg_regField (r : RReg) : asReg (regField r) = r := by revert r; decide

@[simp] theorem asScalar_scalarField (k : KReg) : asScalar (scalarField k) = .ok k := by revert k; decide

@[simp] theorem asCond_condField (cond : Cond) : asCond (condField cond) = .ok cond := by cases cond <;> rfl

@[simp] theorem regField_asReg (f : BitVec 4) : regField (asReg f) = f := by revert f; decide

theorem scalarField_of_asScalar {f : BitVec 4} {k : KReg} (h : asScalar f = .ok k) : scalarField k = f := by
  revert f k; decide

theorem condField_of_asCond {f : BitVec 4} {cond : Cond} (h : asCond f = .ok cond) : condField cond = f := by
  revert f; cases cond <;> decide

/-- What `legalIf` answers: the instruction itself, when it is well-formed. -/
theorem legalIf_ok {i j : Instr} {why : Illegal} : legalIf i why = .ok j ↔ i.wellFormed = true ∧ i = j := by
  unfold legalIf
  split
  · simp_all
  · simp_all

/-- What `mustBeZero` answers. -/
theorem mustBeZero_ok {w : Word} {lo len : Nat} :
    mustBeZero w lo len = .ok () ↔ w.toNat / 2 ^ lo % 2 ^ len = 0 := by
  have h : w.extractLsb' lo len = 0#len ↔ w.toNat / 2 ^ lo % 2 ^ len = 0 := by
    rw [← toNat_field, ← BitVec.toNat_inj, BitVec.toNat_zero]
  unfold mustBeZero
  split <;> simp_all

/-! ## What each format answers -/

theorem bind_ok {ε α β : Type} {x : Except ε α} {f : α → Except ε β} {b : β} :
    (x >>= f) = .ok b ↔ ∃ a, x = .ok a ∧ f a = .ok b := by
  cases x <;> simp [bind, Except.bind]

theorem mustBeZero_bind_ok {w : Word} {lo len : Nat} {f : Unit → Except Illegal Instr} {i : Instr} :
    (mustBeZero w lo len >>= f) = .ok i ↔ w.toNat / 2 ^ lo % 2 ^ len = 0 ∧ f () = .ok i := by
  rw [bind_ok]
  constructor
  · rintro ⟨_, h, h'⟩
    exact ⟨mustBeZero_ok.1 h, h'⟩
  · rintro ⟨h, h'⟩
    exact ⟨(), mustBeZero_ok.2 h, h'⟩

variable {w : Word} {i : Instr}

theorem formatAB_ok {k : RReg → RReg → BitVec 16 → Instr} : formatAB w k = .ok i ↔
    w.toNat / 2 ^ 16 % 2 ^ 2 = 0 ∧ k (asReg (fieldA w)) (asReg (fieldB w)) (imm16 w) = i := by
  simp only [formatAB, mustBeZero_bind_ok, pure, Except.pure, Except.ok.injEq]

theorem formatKB_ok {k : KReg → RReg → BitVec 16 → Instr} : formatKB w k = .ok i ↔
    w.toNat / 2 ^ 16 % 2 ^ 2 = 0 ∧ ∃ a, asScalar (fieldA w) = .ok a ∧ k a (asReg (fieldB w)) (imm16 w) = i := by
  simp only [formatKB, mustBeZero_bind_ok]
  simp only [bind_ok, pure, Except.pure, Except.ok.injEq]

theorem formatCond_ok {k : Cond → BitVec 16 → Instr} : formatCond w k = .ok i ↔
    w.toNat / 2 ^ 16 % 2 ^ 6 = 0 ∧ ∃ cond, asCond (fieldA w) = .ok cond ∧ k cond (imm16 w) = i := by
  simp only [formatCond, mustBeZero_bind_ok]
  simp only [bind_ok, pure, Except.pure, Except.ok.injEq]

theorem formatABC_ok {k : RReg → RReg → RReg → Instr} : formatABC w k = .ok i ↔
    w.toNat / 2 ^ 0 % 2 ^ 14 = 0 ∧ k (asReg (fieldA w)) (asReg (fieldB w)) (asReg (fieldC w)) = i := by
  simp only [formatABC, mustBeZero_bind_ok, pure, Except.pure, Except.ok.injEq]

theorem formatKKK_ok {k : KReg → KReg → KReg → Instr} : formatKKK w k = .ok i ↔
    w.toNat / 2 ^ 0 % 2 ^ 14 = 0 ∧ ∃ a, asScalar (fieldA w) = .ok a ∧ ∃ b, asScalar (fieldB w) = .ok b ∧
      ∃ c, asScalar (fieldC w) = .ok c ∧ k a b c = i := by
  simp only [formatKKK, mustBeZero_bind_ok]
  simp only [bind_ok, pure, Except.pure, Except.ok.injEq]

theorem formatKK_ok {k : KReg → KReg → Instr} : formatKK w k = .ok i ↔
    w.toNat / 2 ^ 0 % 2 ^ 18 = 0 ∧ ∃ a, asScalar (fieldA w) = .ok a ∧ ∃ b, asScalar (fieldB w) = .ok b ∧
      k a b = i := by
  simp only [formatKK, mustBeZero_bind_ok]
  simp only [bind_ok, pure, Except.pure, Except.ok.injEq]

/-- A word is the format R word of its own fields, when bits 1:0 are zero. -/
theorem wordR_fields (h : w.toNat % 4 = 0) :
    wordR (opcode w) (fieldA w) (fieldB w) (fieldC w) (fieldD w) (fieldE w) (fieldF w) = w := by
  apply BitVec.eq_of_toNat_eq
  simp only [toNat_wordR, opcode, fieldA, fieldB, fieldC, fieldD, fieldE, fieldF, toNat_field]
  have := w.isLt
  omega

/-- A word is the format I word of its own fields, when bits 17:16 are zero. -/
theorem wordI_fields (h : w.toNat / 65536 % 4 = 0) : wordI (opcode w) (fieldA w) (fieldB w) (imm16 w) = w := by
  apply BitVec.eq_of_toNat_eq
  simp only [toNat_wordI, opcode, fieldA, fieldB, imm16, toNat_field]
  have := w.isLt
  omega

end Sys2Proof
end

