-- ==== Sys2Proof/Laws/Memory.lean ====
section
/-! SUPPORT. The laws of the memories: what a cell reads after a write, the canonical form is kept by every write, and two
canonical memories that read alike are equal. -/

namespace Sys2Proof.Machine

variable {w : Nat}

@[simp] theorem readCell_nil (x : Nat) : readCell ([] : List (Nat × BitVec w)) x = unlisted := rfl

theorem readCell_cons (c : Nat × BitVec w) (m : List (Nat × BitVec w)) (x : Nat) :
    readCell (c :: m) x = if c.1 = x then c.2 else readCell m x := rfl

/-- A cell that no entry lists reads as unlisted. -/
theorem readCell_of_absent {m : List (Nat × BitVec w)} {x : Nat} (h : ∀ c ∈ m, c.1 ≠ x) :
    readCell m x = unlisted := by
  induction m with
  | nil => rfl
  | cons c m ih =>
    rw [readCell_cons, if_neg (h c (by simp)), ih fun d hd => h d (by simp [hd])]

theorem readCell_append {m₁ m₂ : List (Nat × BitVec w)} {x : Nat} (h : ∀ c ∈ m₁, c.1 ≠ x) :
    readCell (m₁ ++ m₂) x = readCell m₂ x := by
  induction m₁ with
  | nil => rfl
  | cons c m ih =>
    rw [List.cons_append, readCell_cons, if_neg (h c (by simp)), ih fun d hd => h d (by simp [hd])]

theorem readCell_append_absent {m₁ m₂ : List (Nat × BitVec w)} {x : Nat} (h : ∀ c ∈ m₂, c.1 ≠ x) :
    readCell (m₁ ++ m₂) x = readCell m₁ x := by
  induction m₁ with
  | nil => simpa using readCell_of_absent h
  | cons c m ih => simp only [List.cons_append, readCell_cons, ih]

theorem readCell_filter (m : List (Nat × BitVec w)) (p : Nat → Bool) (x : Nat) :
    readCell (m.filter fun c => p c.1) x = if p x then readCell m x else unlisted := by
  induction m with
  | nil => simp
  | cons c m ih =>
    by_cases hc : c.1 = x
    · subst hc
      by_cases hp : p c.1 = true
      · simp [hp, readCell_cons]
      · simpa [hp] using ih
    · by_cases hp : p c.1 = true
      · simp [hp, readCell_cons, hc, ih]
      · simp [hp, readCell_cons, hc, ih]

theorem cellsFrom_range {a : Nat} {vs : List (BitVec w)} {c : Nat × BitVec w} (h : c ∈ cellsFrom a vs) :
    a ≤ c.1 ∧ c.1 < a + vs.length := by
  induction vs generalizing a with
  | nil => simp [cellsFrom] at h
  | cons v vs ih =>
    rw [cellsFrom] at h
    split at h
    · have := ih h
      simp only [List.length_cons]
      omega
    · rcases List.mem_cons.1 h with rfl | h
      · simp
      · have := ih h
        simp only [List.length_cons]
        omega

theorem cellsFrom_listed {a : Nat} {vs : List (BitVec w)} {c : Nat × BitVec w} (h : c ∈ cellsFrom a vs) :
    c.2 ≠ unlisted := by
  induction vs generalizing a with
  | nil => simp [cellsFrom] at h
  | cons v vs ih =>
    rw [cellsFrom] at h
    split at h
    · exact ih h
    · rcases List.mem_cons.1 h with rfl | h
      · assumption
      · exact ih h

theorem cellsFrom_sorted (a : Nat) (vs : List (BitVec w)) :
    (cellsFrom a vs).Pairwise fun c d => c.1 < d.1 := by
  induction vs generalizing a with
  | nil => simp [cellsFrom]
  | cons v vs ih =>
    rw [cellsFrom]
    split
    · exact ih _
    · refine List.pairwise_cons.2 ⟨fun d hd => ?_, ih _⟩
      have := cellsFrom_range hd
      simp only
      omega

theorem readCell_cellsFrom (a : Nat) (vs : List (BitVec w)) (x : Nat) :
    readCell (cellsFrom a vs) x = if a ≤ x ∧ x < a + vs.length then vs.getD (x - a) unlisted else unlisted := by
  induction vs generalizing a with
  | nil => simp [cellsFrom]
  | cons v vs ih =>
    have hx : readCell (cellsFrom a (v :: vs)) x = if a = x then v else readCell (cellsFrom (a + 1) vs) x := by
      rw [cellsFrom]
      split
      · rename_i hv
        split
        · rename_i h
          subst h
          rw [hv]
          exact readCell_of_absent fun c hc => by have := cellsFrom_range hc; omega
        · rfl
      · rw [readCell_cons]
    rw [hx, ih]
    by_cases h : a = x
    · subst h; simp
    · rw [if_neg h]
      by_cases h1 : a + 1 ≤ x ∧ x < a + 1 + vs.length
      · have h2 : a ≤ x ∧ x < a + (v :: vs).length := by simp only [List.length_cons]; omega
        rw [if_pos h1, if_pos h2, show x - a = (x - (a + 1)) + 1 by omega, List.getD_cons_succ]
      · have h2 : ¬(a ≤ x ∧ x < a + (v :: vs).length) := by simp only [List.length_cons]; omega
        rw [if_neg h1, if_neg h2]

/-- What a cell reads after a write: the written value inside, the old one outside. -/
theorem readCell_writeCells (m : List (Nat × BitVec w)) (a : Nat) (vs : List (BitVec w)) (x : Nat) :
    readCell (writeCells m a vs) x =
      if a ≤ x ∧ x < a + vs.length then vs.getD (x - a) unlisted else readCell m x := by
  have hlo : readCell (m.filter fun c => decide (c.1 < a)) x = if x < a then readCell m x else unlisted := by
    simpa using readCell_filter m (fun y => decide (y < a)) x
  have hhi : readCell (m.filter fun c => decide (a + vs.length ≤ c.1)) x =
      if a + vs.length ≤ x then readCell m x else unlisted := by
    simpa using readCell_filter m (fun y => decide (a + vs.length ≤ y)) x
  unfold writeCells
  rw [List.append_assoc]
  by_cases h1 : x < a
  · rw [if_neg (by omega), readCell_append_absent, hlo, if_pos h1]
    intro c hc
    rcases List.mem_append.1 hc with hc | hc
    · have := cellsFrom_range hc; omega
    · have := of_decide_eq_true (List.mem_filter.1 hc).2; omega
  · rw [readCell_append fun c hc => by have := of_decide_eq_true (List.mem_filter.1 hc).2; omega]
    by_cases h2 : x < a + vs.length
    · rw [if_pos ⟨by omega, h2⟩, readCell_append_absent, readCell_cellsFrom, if_pos ⟨by omega, h2⟩]
      intro c hc
      have := of_decide_eq_true (List.mem_filter.1 hc).2
      omega
    · rw [if_neg (by omega), readCell_append, hhi, if_pos (by omega)]
      intro c hc
      have := cellsFrom_range hc
      omega

theorem readCell_writeCells_outside {m : List (Nat × BitVec w)} {a : Nat} {vs : List (BitVec w)} {x : Nat}
    (h : x < a ∨ a + vs.length ≤ x) : readCell (writeCells m a vs) x = readCell m x := by
  rw [readCell_writeCells, if_neg (by omega)]

theorem readCell_writeCells_inside {m : List (Nat × BitVec w)} {a : Nat} {vs : List (BitVec w)} {i : Nat}
    (h : i < vs.length) : readCell (writeCells m a vs) (a + i) = vs[i] := by
  rw [readCell_writeCells, if_pos ⟨by omega, by omega⟩]
  simp [h]

@[simp] theorem length_readCells (m : List (Nat × BitVec w)) (a n : Nat) : (readCells m a n).length = n := by
  induction n generalizing a with
  | zero => rfl
  | succ n ih => simp [readCells, ih]

theorem getElem_readCells (m : List (Nat × BitVec w)) (a n i : Nat) (h : i < (readCells m a n).length) :
    (readCells m a n)[i] = readCell m (a + i) := by
  induction n generalizing a i with
  | zero => simp [readCells] at h
  | succ n ih =>
    cases i with
    | zero => simp [readCells]
    | succ i =>
      simp only [readCells, List.getElem_cons_succ]
      rw [ih]
      congr 1
      omega

/-- Two memories that read alike in a region give the same values there. -/
theorem readCells_congr {m m' : List (Nat × BitVec w)} {a n : Nat}
    (h : ∀ x, a ≤ x → x < a + n → readCell m x = readCell m' x) : readCells m a n = readCells m' a n := by
  refine List.ext_getElem (by simp) fun i h₁ h₂ => ?_
  rw [getElem_readCells, getElem_readCells]
  exact h _ (by omega) (by simpa using h₁)

/-- A region reads back what was written to it. -/
theorem readCells_writeCells (m : List (Nat × BitVec w)) (a : Nat) (vs : List (BitVec w)) :
    readCells (writeCells m a vs) a vs.length = vs := by
  refine List.ext_getElem (by simp) fun i h₁ h₂ => ?_
  rw [getElem_readCells, readCell_writeCells_inside h₂]

/-- Every write keeps the canonical form, if it stays inside the memory. -/
theorem writeCells_wf {size : Nat} {m : List (Nat × BitVec w)} {a : Nat} {vs : List (BitVec w)}
    (h : Memory.wf size m) (hb : vs = [] ∨ a + vs.length ≤ size) : Memory.wf size (writeCells m a vs) := by
  have hin : ∀ c ∈ cellsFrom a vs, c.1 < size := fun c hc => by
    have hr := cellsFrom_range hc
    rcases hb with rfl | hb
    · simp at hr; omega
    · omega
  constructor
  · unfold writeCells
    rw [List.append_assoc]
    refine List.pairwise_append.2 ⟨h.1.sublist List.filter_sublist, List.pairwise_append.2
      ⟨cellsFrom_sorted a vs, h.1.sublist List.filter_sublist, fun c hc d hd => ?_⟩, fun c hc d hd => ?_⟩
    · have := cellsFrom_range hc
      have := of_decide_eq_true (List.mem_filter.1 hd).2
      omega
    · have := of_decide_eq_true (List.mem_filter.1 hc).2
      rcases List.mem_append.1 hd with hd | hd
      · have := cellsFrom_range hd; omega
      · have := of_decide_eq_true (List.mem_filter.1 hd).2; omega
  · intro c hc
    unfold writeCells at hc
    rcases List.mem_append.1 hc with hc | hc
    · rcases List.mem_append.1 hc with hc | hc
      · exact h.2 c (List.mem_filter.1 hc).1
      · exact ⟨cellsFrom_listed hc, hin c hc⟩
    · exact h.2 c (List.mem_filter.1 hc).1

/-- A DMEM write of a legal region keeps DMEM canonical. -/
theorem memWrite_wf {s : State} {a : Nat} {bs : List Byte} (h : Memory.wf Config.dmemSize s.dmem)
    (hb : a + bs.length ≤ Config.dmemSize) : Memory.wf Config.dmemSize (memWrite a bs s).dmem :=
  writeCells_wf h (.inr hb)

/-- A host write to an IMEM slot keeps IMEM canonical. -/
theorem setImem_wf {s : State} {i : Nat} {v : Word} (h : Memory.wf Config.imemWords s.imem)
    (hi : i < Config.imemWords) : Memory.wf Config.imemWords (setImem i v s).imem :=
  writeCells_wf h (.inr (by simpa using hi))

theorem placeWord_wf {s : State} {v : Word} (h : Memory.wf Config.imemWords s.imem) :
    Memory.wf Config.imemWords (placeWord v s).imem :=
  writeCells_wf h (.inr (by have := s.pc.isLt; simp only [List.length_singleton, Config.imemWords]; omega))

theorem empty_wf (size : Nat) : Memory.wf size ([] : List (Nat × BitVec w)) := ⟨.nil, by simp⟩

/-- The memories of the machine after reset are canonical. -/
theorem reset_memories_wf :
    Memory.wf Config.dmemSize State.reset.dmem ∧ Memory.wf Config.imemWords State.reset.imem :=
  ⟨empty_wf _, empty_wf _⟩

/-- Canonical memories that read alike are equal: equal memories are equal data. -/
theorem wf_ext {size : Nat} {m m' : List (Nat × BitVec w)} (h : Memory.wf size m) (h' : Memory.wf size m')
    (heq : ∀ x, readCell m x = readCell m' x) : m = m' := by
  induction m generalizing m' with
  | nil =>
    cases m' with
    | nil => rfl
    | cons d m' =>
      have := heq d.1
      rw [readCell_nil, readCell_cons, if_pos rfl] at this
      exact absurd this.symm (h'.2 d (by simp)).1
  | cons c m ih =>
    cases m' with
    | nil =>
      have := heq c.1
      rw [readCell_nil, readCell_cons, if_pos rfl] at this
      exact absurd this (h.2 c (by simp)).1
    | cons d m' =>
      have hc := List.pairwise_cons.1 h.1
      have hd := List.pairwise_cons.1 h'.1
      have hcd : c.1 = d.1 := by
        rcases Nat.lt_trichotomy c.1 d.1 with hlt | he | hlt
        · have := heq c.1
          rw [readCell_cons, if_pos rfl, readCell_cons, if_neg (by omega),
            readCell_of_absent fun e he => by have := hd.1 e he; omega] at this
          exact absurd this (h.2 c (by simp)).1
        · exact he
        · have := heq d.1
          rw [readCell_cons (c := d), if_pos rfl, readCell_cons, if_neg (by omega),
            readCell_of_absent fun e he => by have := hc.1 e he; omega] at this
          exact absurd this.symm (h'.2 d (by simp)).1
      have hv : c.2 = d.2 := by
        have := heq c.1
        rwa [readCell_cons, if_pos rfl, readCell_cons, if_pos hcd.symm] at this
      obtain rfl : c = d := Prod.ext hcd hv
      congr 1
      refine ih ⟨hc.2, fun e he => h.2 e (by simp [he])⟩ ⟨hd.2, fun e he => h'.2 e (by simp [he])⟩ fun x => ?_
      by_cases hx : c.1 = x
      · rw [readCell_of_absent fun e he => by have := hc.1 e he; omega,
          readCell_of_absent fun e he => by have := hd.1 e he; omega]
      · have := heq x
        rwa [readCell_cons, if_neg hx, readCell_cons, if_neg hx] at this

/-! ## DMEM as the meanings use it -/

theorem dmemByte_memWrite (s : State) (a : Nat) (bs : List Byte) (x : Nat) :
    dmemByte (memWrite a bs s) x = if a ≤ x ∧ x < a + bs.length then bs.getD (x - a) unlisted else dmemByte s x :=
  readCell_writeCells s.dmem a bs x

theorem dmemByte_memWrite_outside {s : State} {a : Nat} {bs : List Byte} {x : Nat}
    (h : x < a ∨ a + bs.length ≤ x) : dmemByte (memWrite a bs s) x = dmemByte s x :=
  readCell_writeCells_outside h

@[simp] theorem memRead_memWrite_same (s : State) (a : Nat) (bs : List Byte) :
    memRead a bs.length (memWrite a bs s) = bs :=
  readCells_writeCells s.dmem a bs

@[simp] theorem length_memRead (a n : Nat) (s : State) : (memRead a n s).length = n := length_readCells ..

theorem imemWord_setImem (s : State) (i : Nat) (v : Word) (x : Nat) :
    imemWord (setImem i v s) x = if x = i then v else imemWord s x := by
  simp only [imemWord, setImem, readCell_writeCells, List.length_singleton]
  by_cases h : x = i
  · subst h; simp
  · rw [if_neg (by omega), if_neg h]

theorem fetchWord_placeWord (s : State) (v : Word) : fetchWord (placeWord v s) = v := by
  simp [fetchWord, imemWord, placeWord, readCell_writeCells]

end Sys2Proof.Machine
end

