-- ==== Sys2Proof/Laws/State.lean ====
section
/-! SUPPORT. One lemma per field per update of the state (and per read that the update leaves alone), so that no proof
unfolds a record update. -/

namespace Sys2Proof.Machine

variable (s : State)

/-! ### setReg: a general register write -/

@[simp] theorem setReg_kregs (r : RReg) (v : Word) : (setReg r v s).kregs = s.kregs := by unfold setReg; split <;> rfl
@[simp] theorem setReg_pc (r : RReg) (v : Word) : (setReg r v s).pc = s.pc := by unfold setReg; split <;> rfl
@[simp] theorem setReg_flags (r : RReg) (v : Word) : (setReg r v s).flags = s.flags := by unfold setReg; split <;> rfl
@[simp] theorem setReg_ie (r : RReg) (v : Word) : (setReg r v s).ie = s.ie := by unfold setReg; split <;> rfl
@[simp] theorem setReg_status (r : RReg) (v : Word) : (setReg r v s).status = s.status := by unfold setReg; split <;> rfl
@[simp] theorem setReg_err (r : RReg) (v : Word) : (setReg r v s).err = s.err := by unfold setReg; split <;> rfl
@[simp] theorem setReg_exitCode (r : RReg) (v : Word) : (setReg r v s).exitCode = s.exitCode := by unfold setReg; split <;> rfl
@[simp] theorem setReg_faultRegs (r : RReg) (v : Word) : (setReg r v s).faultRegs = s.faultRegs := by unfold setReg; split <;> rfl
@[simp] theorem setReg_entry (r : RReg) (v : Word) : (setReg r v s).entry = s.entry := by unfold setReg; split <;> rfl
@[simp] theorem setReg_dmem (r : RReg) (v : Word) : (setReg r v s).dmem = s.dmem := by unfold setReg; split <;> rfl
@[simp] theorem setReg_imem (r : RReg) (v : Word) : (setReg r v s).imem = s.imem := by unfold setReg; split <;> rfl
@[simp] theorem setReg_inFlight (r : RReg) (v : Word) : (setReg r v s).inFlight = s.inFlight := by unfold setReg; split <;> rfl
@[simp] theorem setReg_pcTrail (r : RReg) (v : Word) : (setReg r v s).pcTrail = s.pcTrail := by unfold setReg; split <;> rfl
@[simp] theorem setReg_env (r : RReg) (v : Word) : (setReg r v s).env = s.env := by unfold setReg; split <;> rfl
@[simp] theorem getK_setReg (r : RReg) (v : Word) (k' : KReg) : getK k' (setReg r v s) = getK k' s := by simp [getK]
@[simp] theorem scalarNat_setReg (r : RReg) (v : Word) (k' : KReg) : scalarNat k' (setReg r v s) = scalarNat k' s := by simp [scalarNat]
@[simp] theorem memRead_setReg (r : RReg) (v : Word) (x n : Nat) : memRead x n (setReg r v s) = memRead x n s := by simp [memRead]
@[simp] theorem dmemByte_setReg (r : RReg) (v : Word) (x : Nat) : dmemByte (setReg r v s) x = dmemByte s x := by simp [dmemByte]
@[simp] theorem imemWord_setReg (r : RReg) (v : Word) (x : Nat) : imemWord (setReg r v s) x = imemWord s x := by simp [imemWord]
@[simp] theorem fetchWord_setReg (r : RReg) (v : Word) : fetchWord (setReg r v s) = fetchWord s := by simp [fetchWord]

/-! ### setK: a scalar register write -/

@[simp] theorem setK_regs (k : KReg) (v : Scalar) : (setK k v s).regs = s.regs := rfl
@[simp] theorem setK_kregs (k : KReg) (v : Scalar) : (setK k v s).kregs = s.kregs.set k.val v k.isLt := rfl
@[simp] theorem setK_pc (k : KReg) (v : Scalar) : (setK k v s).pc = s.pc := rfl
@[simp] theorem setK_flags (k : KReg) (v : Scalar) : (setK k v s).flags = s.flags := rfl
@[simp] theorem setK_ie (k : KReg) (v : Scalar) : (setK k v s).ie = s.ie := rfl
@[simp] theorem setK_status (k : KReg) (v : Scalar) : (setK k v s).status = s.status := rfl
@[simp] theorem setK_err (k : KReg) (v : Scalar) : (setK k v s).err = s.err := rfl
@[simp] theorem setK_exitCode (k : KReg) (v : Scalar) : (setK k v s).exitCode = s.exitCode := rfl
@[simp] theorem setK_faultRegs (k : KReg) (v : Scalar) : (setK k v s).faultRegs = s.faultRegs := rfl
@[simp] theorem setK_entry (k : KReg) (v : Scalar) : (setK k v s).entry = s.entry := rfl
@[simp] theorem setK_dmem (k : KReg) (v : Scalar) : (setK k v s).dmem = s.dmem := rfl
@[simp] theorem setK_imem (k : KReg) (v : Scalar) : (setK k v s).imem = s.imem := rfl
@[simp] theorem setK_inFlight (k : KReg) (v : Scalar) : (setK k v s).inFlight = s.inFlight := rfl
@[simp] theorem setK_pcTrail (k : KReg) (v : Scalar) : (setK k v s).pcTrail = s.pcTrail := rfl
@[simp] theorem setK_env (k : KReg) (v : Scalar) : (setK k v s).env = s.env := rfl
@[simp] theorem getReg_setK (k : KReg) (v : Scalar) (r' : RReg) : getReg r' (setK k v s) = getReg r' s := rfl
@[simp] theorem regNat_setK (k : KReg) (v : Scalar) (r' : RReg) : regNat r' (setK k v s) = regNat r' s := rfl
@[simp] theorem memRead_setK (k : KReg) (v : Scalar) (x n : Nat) : memRead x n (setK k v s) = memRead x n s := rfl
@[simp] theorem dmemByte_setK (k : KReg) (v : Scalar) (x : Nat) : dmemByte (setK k v s) x = dmemByte s x := rfl
@[simp] theorem imemWord_setK (k : KReg) (v : Scalar) (x : Nat) : imemWord (setK k v s) x = imemWord s x := rfl
@[simp] theorem fetchWord_setK (k : KReg) (v : Scalar) : fetchWord (setK k v s) = fetchWord s := rfl

/-! ### setFlags: a flag write -/

@[simp] theorem setFlags_regs (f : Flags) : (setFlags f s).regs = s.regs := rfl
@[simp] theorem setFlags_kregs (f : Flags) : (setFlags f s).kregs = s.kregs := rfl
@[simp] theorem setFlags_pc (f : Flags) : (setFlags f s).pc = s.pc := rfl
@[simp] theorem setFlags_flags (f : Flags) : (setFlags f s).flags = f := rfl
@[simp] theorem setFlags_ie (f : Flags) : (setFlags f s).ie = s.ie := rfl
@[simp] theorem setFlags_status (f : Flags) : (setFlags f s).status = s.status := rfl
@[simp] theorem setFlags_err (f : Flags) : (setFlags f s).err = s.err := rfl
@[simp] theorem setFlags_exitCode (f : Flags) : (setFlags f s).exitCode = s.exitCode := rfl
@[simp] theorem setFlags_faultRegs (f : Flags) : (setFlags f s).faultRegs = s.faultRegs := rfl
@[simp] theorem setFlags_entry (f : Flags) : (setFlags f s).entry = s.entry := rfl
@[simp] theorem setFlags_dmem (f : Flags) : (setFlags f s).dmem = s.dmem := rfl
@[simp] theorem setFlags_imem (f : Flags) : (setFlags f s).imem = s.imem := rfl
@[simp] theorem setFlags_inFlight (f : Flags) : (setFlags f s).inFlight = s.inFlight := rfl
@[simp] theorem setFlags_pcTrail (f : Flags) : (setFlags f s).pcTrail = s.pcTrail := rfl
@[simp] theorem setFlags_env (f : Flags) : (setFlags f s).env = s.env := rfl
@[simp] theorem getReg_setFlags (f : Flags) (r' : RReg) : getReg r' (setFlags f s) = getReg r' s := rfl
@[simp] theorem regNat_setFlags (f : Flags) (r' : RReg) : regNat r' (setFlags f s) = regNat r' s := rfl
@[simp] theorem getK_setFlags (f : Flags) (k' : KReg) : getK k' (setFlags f s) = getK k' s := rfl
@[simp] theorem scalarNat_setFlags (f : Flags) (k' : KReg) : scalarNat k' (setFlags f s) = scalarNat k' s := rfl
@[simp] theorem memRead_setFlags (f : Flags) (x n : Nat) : memRead x n (setFlags f s) = memRead x n s := rfl
@[simp] theorem dmemByte_setFlags (f : Flags) (x : Nat) : dmemByte (setFlags f s) x = dmemByte s x := rfl
@[simp] theorem imemWord_setFlags (f : Flags) (x : Nat) : imemWord (setFlags f s) x = imemWord s x := rfl
@[simp] theorem fetchWord_setFlags (f : Flags) : fetchWord (setFlags f s) = fetchWord s := rfl

/-! ### setValid: the packer's V -/

@[simp] theorem setValid_regs (b : Bool) : (setValid b s).regs = s.regs := rfl
@[simp] theorem setValid_kregs (b : Bool) : (setValid b s).kregs = s.kregs := rfl
@[simp] theorem setValid_pc (b : Bool) : (setValid b s).pc = s.pc := rfl
@[simp] theorem setValid_flags (b : Bool) : (setValid b s).flags = { s.flags with v := b } := rfl
@[simp] theorem setValid_ie (b : Bool) : (setValid b s).ie = s.ie := rfl
@[simp] theorem setValid_status (b : Bool) : (setValid b s).status = s.status := rfl
@[simp] theorem setValid_err (b : Bool) : (setValid b s).err = s.err := rfl
@[simp] theorem setValid_exitCode (b : Bool) : (setValid b s).exitCode = s.exitCode := rfl
@[simp] theorem setValid_faultRegs (b : Bool) : (setValid b s).faultRegs = s.faultRegs := rfl
@[simp] theorem setValid_entry (b : Bool) : (setValid b s).entry = s.entry := rfl
@[simp] theorem setValid_dmem (b : Bool) : (setValid b s).dmem = s.dmem := rfl
@[simp] theorem setValid_imem (b : Bool) : (setValid b s).imem = s.imem := rfl
@[simp] theorem setValid_inFlight (b : Bool) : (setValid b s).inFlight = s.inFlight := rfl
@[simp] theorem setValid_pcTrail (b : Bool) : (setValid b s).pcTrail = s.pcTrail := rfl
@[simp] theorem setValid_env (b : Bool) : (setValid b s).env = s.env := rfl
@[simp] theorem getReg_setValid (b : Bool) (r' : RReg) : getReg r' (setValid b s) = getReg r' s := rfl
@[simp] theorem regNat_setValid (b : Bool) (r' : RReg) : regNat r' (setValid b s) = regNat r' s := rfl
@[simp] theorem getK_setValid (b : Bool) (k' : KReg) : getK k' (setValid b s) = getK k' s := rfl
@[simp] theorem scalarNat_setValid (b : Bool) (k' : KReg) : scalarNat k' (setValid b s) = scalarNat k' s := rfl
@[simp] theorem memRead_setValid (b : Bool) (x n : Nat) : memRead x n (setValid b s) = memRead x n s := rfl
@[simp] theorem dmemByte_setValid (b : Bool) (x : Nat) : dmemByte (setValid b s) x = dmemByte s x := rfl
@[simp] theorem imemWord_setValid (b : Bool) (x : Nat) : imemWord (setValid b s) x = imemWord s x := rfl
@[simp] theorem fetchWord_setValid (b : Bool) : fetchWord (setValid b s) = fetchWord s := rfl

/-! ### setChecked: `SetChecked` -/

@[simp] theorem setChecked_regs (code : Byte) : (setChecked code s).regs = s.regs := rfl
@[simp] theorem setChecked_kregs (code : Byte) : (setChecked code s).kregs = s.kregs := rfl
@[simp] theorem setChecked_pc (code : Byte) : (setChecked code s).pc = s.pc := rfl
@[simp] theorem setChecked_flags (code : Byte) : (setChecked code s).flags = { s.flags with e := decide (code ≠ 0#8) } := rfl
@[simp] theorem setChecked_ie (code : Byte) : (setChecked code s).ie = s.ie := rfl
@[simp] theorem setChecked_status (code : Byte) : (setChecked code s).status = s.status := rfl
@[simp] theorem setChecked_err (code : Byte) : (setChecked code s).err = code := rfl
@[simp] theorem setChecked_exitCode (code : Byte) : (setChecked code s).exitCode = s.exitCode := rfl
@[simp] theorem setChecked_faultRegs (code : Byte) : (setChecked code s).faultRegs = s.faultRegs := rfl
@[simp] theorem setChecked_entry (code : Byte) : (setChecked code s).entry = s.entry := rfl
@[simp] theorem setChecked_dmem (code : Byte) : (setChecked code s).dmem = s.dmem := rfl
@[simp] theorem setChecked_imem (code : Byte) : (setChecked code s).imem = s.imem := rfl
@[simp] theorem setChecked_inFlight (code : Byte) : (setChecked code s).inFlight = s.inFlight := rfl
@[simp] theorem setChecked_pcTrail (code : Byte) : (setChecked code s).pcTrail = s.pcTrail := rfl
@[simp] theorem setChecked_env (code : Byte) : (setChecked code s).env = s.env := rfl
@[simp] theorem getReg_setChecked (code : Byte) (r' : RReg) : getReg r' (setChecked code s) = getReg r' s := rfl
@[simp] theorem regNat_setChecked (code : Byte) (r' : RReg) : regNat r' (setChecked code s) = regNat r' s := rfl
@[simp] theorem getK_setChecked (code : Byte) (k' : KReg) : getK k' (setChecked code s) = getK k' s := rfl
@[simp] theorem scalarNat_setChecked (code : Byte) (k' : KReg) : scalarNat k' (setChecked code s) = scalarNat k' s := rfl
@[simp] theorem memRead_setChecked (code : Byte) (x n : Nat) : memRead x n (setChecked code s) = memRead x n s := rfl
@[simp] theorem dmemByte_setChecked (code : Byte) (x : Nat) : dmemByte (setChecked code s) x = dmemByte s x := rfl
@[simp] theorem imemWord_setChecked (code : Byte) (x : Nat) : imemWord (setChecked code s) x = imemWord s x := rfl
@[simp] theorem fetchWord_setChecked (code : Byte) : fetchWord (setChecked code s) = fetchWord s := rfl

/-! ### memWrite: a DMEM write -/

@[simp] theorem memWrite_regs (a : Nat) (bs : List Byte) : (memWrite a bs s).regs = s.regs := rfl
@[simp] theorem memWrite_kregs (a : Nat) (bs : List Byte) : (memWrite a bs s).kregs = s.kregs := rfl
@[simp] theorem memWrite_pc (a : Nat) (bs : List Byte) : (memWrite a bs s).pc = s.pc := rfl
@[simp] theorem memWrite_flags (a : Nat) (bs : List Byte) : (memWrite a bs s).flags = s.flags := rfl
@[simp] theorem memWrite_ie (a : Nat) (bs : List Byte) : (memWrite a bs s).ie = s.ie := rfl
@[simp] theorem memWrite_status (a : Nat) (bs : List Byte) : (memWrite a bs s).status = s.status := rfl
@[simp] theorem memWrite_err (a : Nat) (bs : List Byte) : (memWrite a bs s).err = s.err := rfl
@[simp] theorem memWrite_exitCode (a : Nat) (bs : List Byte) : (memWrite a bs s).exitCode = s.exitCode := rfl
@[simp] theorem memWrite_faultRegs (a : Nat) (bs : List Byte) : (memWrite a bs s).faultRegs = s.faultRegs := rfl
@[simp] theorem memWrite_entry (a : Nat) (bs : List Byte) : (memWrite a bs s).entry = s.entry := rfl
@[simp] theorem memWrite_dmem (a : Nat) (bs : List Byte) : (memWrite a bs s).dmem = writeCells s.dmem a bs := rfl
@[simp] theorem memWrite_imem (a : Nat) (bs : List Byte) : (memWrite a bs s).imem = s.imem := rfl
@[simp] theorem memWrite_inFlight (a : Nat) (bs : List Byte) : (memWrite a bs s).inFlight = s.inFlight := rfl
@[simp] theorem memWrite_pcTrail (a : Nat) (bs : List Byte) : (memWrite a bs s).pcTrail = s.pcTrail := rfl
@[simp] theorem memWrite_env (a : Nat) (bs : List Byte) : (memWrite a bs s).env = s.env := rfl
@[simp] theorem getReg_memWrite (a : Nat) (bs : List Byte) (r' : RReg) : getReg r' (memWrite a bs s) = getReg r' s := rfl
@[simp] theorem regNat_memWrite (a : Nat) (bs : List Byte) (r' : RReg) : regNat r' (memWrite a bs s) = regNat r' s := rfl
@[simp] theorem getK_memWrite (a : Nat) (bs : List Byte) (k' : KReg) : getK k' (memWrite a bs s) = getK k' s := rfl
@[simp] theorem scalarNat_memWrite (a : Nat) (bs : List Byte) (k' : KReg) : scalarNat k' (memWrite a bs s) = scalarNat k' s := rfl
@[simp] theorem imemWord_memWrite (a : Nat) (bs : List Byte) (x : Nat) : imemWord (memWrite a bs s) x = imemWord s x := rfl
@[simp] theorem fetchWord_memWrite (a : Nat) (bs : List Byte) : fetchWord (memWrite a bs s) = fetchWord s := rfl

/-! ### setImem: a host write to IMEM -/

@[simp] theorem setImem_regs (i : Nat) (v : Word) : (setImem i v s).regs = s.regs := rfl
@[simp] theorem setImem_kregs (i : Nat) (v : Word) : (setImem i v s).kregs = s.kregs := rfl
@[simp] theorem setImem_pc (i : Nat) (v : Word) : (setImem i v s).pc = s.pc := rfl
@[simp] theorem setImem_flags (i : Nat) (v : Word) : (setImem i v s).flags = s.flags := rfl
@[simp] theorem setImem_ie (i : Nat) (v : Word) : (setImem i v s).ie = s.ie := rfl
@[simp] theorem setImem_status (i : Nat) (v : Word) : (setImem i v s).status = s.status := rfl
@[simp] theorem setImem_err (i : Nat) (v : Word) : (setImem i v s).err = s.err := rfl
@[simp] theorem setImem_exitCode (i : Nat) (v : Word) : (setImem i v s).exitCode = s.exitCode := rfl
@[simp] theorem setImem_faultRegs (i : Nat) (v : Word) : (setImem i v s).faultRegs = s.faultRegs := rfl
@[simp] theorem setImem_entry (i : Nat) (v : Word) : (setImem i v s).entry = s.entry := rfl
@[simp] theorem setImem_dmem (i : Nat) (v : Word) : (setImem i v s).dmem = s.dmem := rfl
@[simp] theorem setImem_imem (i : Nat) (v : Word) : (setImem i v s).imem = writeCells s.imem i [v] := rfl
@[simp] theorem setImem_inFlight (i : Nat) (v : Word) : (setImem i v s).inFlight = s.inFlight := rfl
@[simp] theorem setImem_pcTrail (i : Nat) (v : Word) : (setImem i v s).pcTrail = s.pcTrail := rfl
@[simp] theorem setImem_env (i : Nat) (v : Word) : (setImem i v s).env = s.env := rfl
@[simp] theorem getReg_setImem (i : Nat) (v : Word) (r' : RReg) : getReg r' (setImem i v s) = getReg r' s := rfl
@[simp] theorem regNat_setImem (i : Nat) (v : Word) (r' : RReg) : regNat r' (setImem i v s) = regNat r' s := rfl
@[simp] theorem getK_setImem (i : Nat) (v : Word) (k' : KReg) : getK k' (setImem i v s) = getK k' s := rfl
@[simp] theorem scalarNat_setImem (i : Nat) (v : Word) (k' : KReg) : scalarNat k' (setImem i v s) = scalarNat k' s := rfl
@[simp] theorem memRead_setImem (i : Nat) (v : Word) (x n : Nat) : memRead x n (setImem i v s) = memRead x n s := rfl
@[simp] theorem dmemByte_setImem (i : Nat) (v : Word) (x : Nat) : dmemByte (setImem i v s) x = dmemByte s x := rfl

/-! ### faultEntry: fault entry -/

@[simp] theorem faultEntry_regs (c : FaultCause) (insn info : Word) : (faultEntry c insn info s).regs = s.regs := rfl
@[simp] theorem faultEntry_kregs (c : FaultCause) (insn info : Word) : (faultEntry c insn info s).kregs = s.kregs := rfl
@[simp] theorem faultEntry_pc (c : FaultCause) (insn info : Word) : (faultEntry c insn info s).pc = s.pc := rfl
@[simp] theorem faultEntry_flags (c : FaultCause) (insn info : Word) : (faultEntry c insn info s).flags = s.flags := rfl
@[simp] theorem faultEntry_ie (c : FaultCause) (insn info : Word) : (faultEntry c insn info s).ie = s.ie := rfl
@[simp] theorem faultEntry_status (c : FaultCause) (insn info : Word) : (faultEntry c insn info s).status = { s.status with busy := false, fault := true, irq := true, abortReq := false } := rfl
@[simp] theorem faultEntry_err (c : FaultCause) (insn info : Word) : (faultEntry c insn info s).err = s.err := rfl
@[simp] theorem faultEntry_exitCode (c : FaultCause) (insn info : Word) : (faultEntry c insn info s).exitCode = s.exitCode := rfl
@[simp] theorem faultEntry_faultRegs (c : FaultCause) (insn info : Word) : (faultEntry c insn info s).faultRegs = { cause := c, pc := s.pc, insn := insn, info := info } := rfl
@[simp] theorem faultEntry_entry (c : FaultCause) (insn info : Word) : (faultEntry c insn info s).entry = s.entry := rfl
@[simp] theorem faultEntry_dmem (c : FaultCause) (insn info : Word) : (faultEntry c insn info s).dmem = s.dmem := rfl
@[simp] theorem faultEntry_imem (c : FaultCause) (insn info : Word) : (faultEntry c insn info s).imem = s.imem := rfl
@[simp] theorem faultEntry_inFlight (c : FaultCause) (insn info : Word) : (faultEntry c insn info s).inFlight = false := rfl
@[simp] theorem faultEntry_pcTrail (c : FaultCause) (insn info : Word) : (faultEntry c insn info s).pcTrail = s.pcTrail := rfl
@[simp] theorem faultEntry_env (c : FaultCause) (insn info : Word) : (faultEntry c insn info s).env = s.env := rfl
@[simp] theorem getReg_faultEntry (c : FaultCause) (insn info : Word) (r' : RReg) : getReg r' (faultEntry c insn info s) = getReg r' s := rfl
@[simp] theorem regNat_faultEntry (c : FaultCause) (insn info : Word) (r' : RReg) : regNat r' (faultEntry c insn info s) = regNat r' s := rfl
@[simp] theorem getK_faultEntry (c : FaultCause) (insn info : Word) (k' : KReg) : getK k' (faultEntry c insn info s) = getK k' s := rfl
@[simp] theorem scalarNat_faultEntry (c : FaultCause) (insn info : Word) (k' : KReg) : scalarNat k' (faultEntry c insn info s) = scalarNat k' s := rfl
@[simp] theorem memRead_faultEntry (c : FaultCause) (insn info : Word) (x n : Nat) : memRead x n (faultEntry c insn info s) = memRead x n s := rfl
@[simp] theorem dmemByte_faultEntry (c : FaultCause) (insn info : Word) (x : Nat) : dmemByte (faultEntry c insn info s) x = dmemByte s x := rfl
@[simp] theorem imemWord_faultEntry (c : FaultCause) (insn info : Word) (x : Nat) : imemWord (faultEntry c insn info s) x = imemWord s x := rfl
@[simp] theorem fetchWord_faultEntry (c : FaultCause) (insn info : Word) : fetchWord (faultEntry c insn info s) = fetchWord s := rfl

/-! ### raise: a fault of the instruction at pc -/

@[simp] theorem raise_regs (c : FaultCause) (info : Word) : (raise c info s).regs = s.regs := rfl
@[simp] theorem raise_kregs (c : FaultCause) (info : Word) : (raise c info s).kregs = s.kregs := rfl
@[simp] theorem raise_pc (c : FaultCause) (info : Word) : (raise c info s).pc = s.pc := rfl
@[simp] theorem raise_flags (c : FaultCause) (info : Word) : (raise c info s).flags = s.flags := rfl
@[simp] theorem raise_ie (c : FaultCause) (info : Word) : (raise c info s).ie = s.ie := rfl
@[simp] theorem raise_status (c : FaultCause) (info : Word) : (raise c info s).status = { s.status with busy := false, fault := true, irq := true, abortReq := false } := rfl
@[simp] theorem raise_err (c : FaultCause) (info : Word) : (raise c info s).err = s.err := rfl
@[simp] theorem raise_exitCode (c : FaultCause) (info : Word) : (raise c info s).exitCode = s.exitCode := rfl
@[simp] theorem raise_faultRegs (c : FaultCause) (info : Word) : (raise c info s).faultRegs = { cause := c, pc := s.pc, insn := fetchWord s, info := info } := rfl
@[simp] theorem raise_entry (c : FaultCause) (info : Word) : (raise c info s).entry = s.entry := rfl
@[simp] theorem raise_dmem (c : FaultCause) (info : Word) : (raise c info s).dmem = s.dmem := rfl
@[simp] theorem raise_imem (c : FaultCause) (info : Word) : (raise c info s).imem = s.imem := rfl
@[simp] theorem raise_inFlight (c : FaultCause) (info : Word) : (raise c info s).inFlight = false := rfl
@[simp] theorem raise_pcTrail (c : FaultCause) (info : Word) : (raise c info s).pcTrail = s.pcTrail := rfl
@[simp] theorem raise_env (c : FaultCause) (info : Word) : (raise c info s).env = s.env := rfl
@[simp] theorem getReg_raise (c : FaultCause) (info : Word) (r' : RReg) : getReg r' (raise c info s) = getReg r' s := rfl
@[simp] theorem regNat_raise (c : FaultCause) (info : Word) (r' : RReg) : regNat r' (raise c info s) = regNat r' s := rfl
@[simp] theorem getK_raise (c : FaultCause) (info : Word) (k' : KReg) : getK k' (raise c info s) = getK k' s := rfl
@[simp] theorem scalarNat_raise (c : FaultCause) (info : Word) (k' : KReg) : scalarNat k' (raise c info s) = scalarNat k' s := rfl
@[simp] theorem memRead_raise (c : FaultCause) (info : Word) (x n : Nat) : memRead x n (raise c info s) = memRead x n s := rfl
@[simp] theorem dmemByte_raise (c : FaultCause) (info : Word) (x : Nat) : dmemByte (raise c info s) x = dmemByte s x := rfl
@[simp] theorem imemWord_raise (c : FaultCause) (info : Word) (x : Nat) : imemWord (raise c info s) x = imemWord s x := rfl
@[simp] theorem fetchWord_raise (c : FaultCause) (info : Word) : fetchWord (raise c info s) = fetchWord s := rfl

/-! ### abortEntry: the ABORTED fault -/

@[simp] theorem abortEntry_regs : (abortEntry s).regs = s.regs := rfl
@[simp] theorem abortEntry_kregs : (abortEntry s).kregs = s.kregs := rfl
@[simp] theorem abortEntry_pc : (abortEntry s).pc = s.pc := rfl
@[simp] theorem abortEntry_flags : (abortEntry s).flags = s.flags := rfl
@[simp] theorem abortEntry_ie : (abortEntry s).ie = s.ie := rfl
@[simp] theorem abortEntry_status : (abortEntry s).status = { s.status with busy := false, fault := true, irq := true, abortReq := false } := rfl
@[simp] theorem abortEntry_err : (abortEntry s).err = s.err := rfl
@[simp] theorem abortEntry_exitCode : (abortEntry s).exitCode = s.exitCode := rfl
@[simp] theorem abortEntry_faultRegs : (abortEntry s).faultRegs = { cause := .aborted, pc := s.pc, insn := 0#32, info := 0#32 } := rfl
@[simp] theorem abortEntry_entry : (abortEntry s).entry = s.entry := rfl
@[simp] theorem abortEntry_dmem : (abortEntry s).dmem = s.dmem := rfl
@[simp] theorem abortEntry_imem : (abortEntry s).imem = s.imem := rfl
@[simp] theorem abortEntry_inFlight : (abortEntry s).inFlight = false := rfl
@[simp] theorem abortEntry_pcTrail : (abortEntry s).pcTrail = s.pcTrail := rfl
@[simp] theorem abortEntry_env : (abortEntry s).env = s.env := rfl
@[simp] theorem getReg_abortEntry (r' : RReg) : getReg r' (abortEntry s) = getReg r' s := rfl
@[simp] theorem regNat_abortEntry (r' : RReg) : regNat r' (abortEntry s) = regNat r' s := rfl
@[simp] theorem getK_abortEntry (k' : KReg) : getK k' (abortEntry s) = getK k' s := rfl
@[simp] theorem scalarNat_abortEntry (k' : KReg) : scalarNat k' (abortEntry s) = scalarNat k' s := rfl
@[simp] theorem memRead_abortEntry (x n : Nat) : memRead x n (abortEntry s) = memRead x n s := rfl
@[simp] theorem dmemByte_abortEntry (x : Nat) : dmemByte (abortEntry s) x = dmemByte s x := rfl
@[simp] theorem imemWord_abortEntry (x : Nat) : imemWord (abortEntry s) x = imemWord s x := rfl
@[simp] theorem fetchWord_abortEntry  : fetchWord (abortEntry s) = fetchWord s := rfl

/-! ### endDone: the end of a run as DONE -/

@[simp] theorem endDone_regs (code : Byte) : (endDone code s).regs = s.regs := rfl
@[simp] theorem endDone_kregs (code : Byte) : (endDone code s).kregs = s.kregs := rfl
@[simp] theorem endDone_pc (code : Byte) : (endDone code s).pc = s.pc := rfl
@[simp] theorem endDone_flags (code : Byte) : (endDone code s).flags = s.flags := rfl
@[simp] theorem endDone_ie (code : Byte) : (endDone code s).ie = s.ie := rfl
@[simp] theorem endDone_status (code : Byte) : (endDone code s).status = { s.status with busy := false, done := true, irq := true, abortReq := false } := rfl
@[simp] theorem endDone_err (code : Byte) : (endDone code s).err = s.err := rfl
@[simp] theorem endDone_exitCode (code : Byte) : (endDone code s).exitCode = code := rfl
@[simp] theorem endDone_faultRegs (code : Byte) : (endDone code s).faultRegs = s.faultRegs := rfl
@[simp] theorem endDone_entry (code : Byte) : (endDone code s).entry = s.entry := rfl
@[simp] theorem endDone_dmem (code : Byte) : (endDone code s).dmem = s.dmem := rfl
@[simp] theorem endDone_imem (code : Byte) : (endDone code s).imem = s.imem := rfl
@[simp] theorem endDone_inFlight (code : Byte) : (endDone code s).inFlight = false := rfl
@[simp] theorem endDone_pcTrail (code : Byte) : (endDone code s).pcTrail = s.pcTrail := rfl
@[simp] theorem endDone_env (code : Byte) : (endDone code s).env = s.env := rfl
@[simp] theorem getReg_endDone (code : Byte) (r' : RReg) : getReg r' (endDone code s) = getReg r' s := rfl
@[simp] theorem regNat_endDone (code : Byte) (r' : RReg) : regNat r' (endDone code s) = regNat r' s := rfl
@[simp] theorem getK_endDone (code : Byte) (k' : KReg) : getK k' (endDone code s) = getK k' s := rfl
@[simp] theorem scalarNat_endDone (code : Byte) (k' : KReg) : scalarNat k' (endDone code s) = scalarNat k' s := rfl
@[simp] theorem memRead_endDone (code : Byte) (x n : Nat) : memRead x n (endDone code s) = memRead x n s := rfl
@[simp] theorem dmemByte_endDone (code : Byte) (x : Nat) : dmemByte (endDone code s) x = dmemByte s x := rfl
@[simp] theorem imemWord_endDone (code : Byte) (x : Nat) : imemWord (endDone code s) x = imemWord s x := rfl
@[simp] theorem fetchWord_endDone (code : Byte) : fetchWord (endDone code s) = fetchWord s := rfl

/-! ### arrive: the next pc, in range -/

@[simp] theorem arrive_regs (t : Byte) : (arrive t s).regs = s.regs := rfl
@[simp] theorem arrive_kregs (t : Byte) : (arrive t s).kregs = s.kregs := rfl
@[simp] theorem arrive_pc (t : Byte) : (arrive t s).pc = t := rfl
@[simp] theorem arrive_flags (t : Byte) : (arrive t s).flags = s.flags := rfl
@[simp] theorem arrive_ie (t : Byte) : (arrive t s).ie = s.ie := rfl
@[simp] theorem arrive_status (t : Byte) : (arrive t s).status = s.status := rfl
@[simp] theorem arrive_err (t : Byte) : (arrive t s).err = s.err := rfl
@[simp] theorem arrive_exitCode (t : Byte) : (arrive t s).exitCode = s.exitCode := rfl
@[simp] theorem arrive_faultRegs (t : Byte) : (arrive t s).faultRegs = s.faultRegs := rfl
@[simp] theorem arrive_entry (t : Byte) : (arrive t s).entry = s.entry := rfl
@[simp] theorem arrive_dmem (t : Byte) : (arrive t s).dmem = s.dmem := rfl
@[simp] theorem arrive_imem (t : Byte) : (arrive t s).imem = s.imem := rfl
@[simp] theorem arrive_inFlight (t : Byte) : (arrive t s).inFlight = false := rfl
@[simp] theorem arrive_pcTrail (t : Byte) : (arrive t s).pcTrail = trailAdd t s.pcTrail := rfl
@[simp] theorem arrive_env (t : Byte) : (arrive t s).env = s.env := rfl
@[simp] theorem getReg_arrive (t : Byte) (r' : RReg) : getReg r' (arrive t s) = getReg r' s := rfl
@[simp] theorem regNat_arrive (t : Byte) (r' : RReg) : regNat r' (arrive t s) = regNat r' s := rfl
@[simp] theorem getK_arrive (t : Byte) (k' : KReg) : getK k' (arrive t s) = getK k' s := rfl
@[simp] theorem scalarNat_arrive (t : Byte) (k' : KReg) : scalarNat k' (arrive t s) = scalarNat k' s := rfl
@[simp] theorem memRead_arrive (t : Byte) (x n : Nat) : memRead x n (arrive t s) = memRead x n s := rfl
@[simp] theorem dmemByte_arrive (t : Byte) (x : Nat) : dmemByte (arrive t s) x = dmemByte s x := rfl
@[simp] theorem imemWord_arrive (t : Byte) (x : Nat) : imemWord (arrive t s) x = imemWord s x := rfl

/-! ### goto: the next pc, in range or not -/

@[simp] theorem goto_regs (t : Int) : (goto t s).regs = s.regs := by unfold goto; split <;> rfl
@[simp] theorem goto_kregs (t : Int) : (goto t s).kregs = s.kregs := by unfold goto; split <;> rfl
@[simp] theorem goto_flags (t : Int) : (goto t s).flags = s.flags := by unfold goto; split <;> rfl
@[simp] theorem goto_ie (t : Int) : (goto t s).ie = s.ie := by unfold goto; split <;> rfl
@[simp] theorem goto_err (t : Int) : (goto t s).err = s.err := by unfold goto; split <;> rfl
@[simp] theorem goto_exitCode (t : Int) : (goto t s).exitCode = s.exitCode := by unfold goto; split <;> rfl
@[simp] theorem goto_entry (t : Int) : (goto t s).entry = s.entry := by unfold goto; split <;> rfl
@[simp] theorem goto_dmem (t : Int) : (goto t s).dmem = s.dmem := by unfold goto; split <;> rfl
@[simp] theorem goto_imem (t : Int) : (goto t s).imem = s.imem := by unfold goto; split <;> rfl
@[simp] theorem goto_inFlight (t : Int) : (goto t s).inFlight = false := by unfold goto; split <;> rfl
@[simp] theorem goto_env (t : Int) : (goto t s).env = s.env := by unfold goto; split <;> rfl
@[simp] theorem getReg_goto (t : Int) (r' : RReg) : getReg r' (goto t s) = getReg r' s := by simp [getReg]
@[simp] theorem regNat_goto (t : Int) (r' : RReg) : regNat r' (goto t s) = regNat r' s := by simp [regNat]
@[simp] theorem getK_goto (t : Int) (k' : KReg) : getK k' (goto t s) = getK k' s := by simp [getK]
@[simp] theorem scalarNat_goto (t : Int) (k' : KReg) : scalarNat k' (goto t s) = scalarNat k' s := by simp [scalarNat]
@[simp] theorem memRead_goto (t : Int) (x n : Nat) : memRead x n (goto t s) = memRead x n s := by simp [memRead]
@[simp] theorem dmemByte_goto (t : Int) (x : Nat) : dmemByte (goto t s) x = dmemByte s x := by simp [dmemByte]
@[simp] theorem imemWord_goto (t : Int) (x : Nat) : imemWord (goto t s) x = imemWord s x := by simp [imemWord]

/-! ### seqNext: the next pc of a non-branch -/

@[simp] theorem seqNext_regs : (seqNext s).regs = s.regs := goto_regs s _
@[simp] theorem seqNext_kregs : (seqNext s).kregs = s.kregs := goto_kregs s _
@[simp] theorem seqNext_flags : (seqNext s).flags = s.flags := goto_flags s _
@[simp] theorem seqNext_ie : (seqNext s).ie = s.ie := goto_ie s _
@[simp] theorem seqNext_err : (seqNext s).err = s.err := goto_err s _
@[simp] theorem seqNext_exitCode : (seqNext s).exitCode = s.exitCode := goto_exitCode s _
@[simp] theorem seqNext_entry : (seqNext s).entry = s.entry := goto_entry s _
@[simp] theorem seqNext_dmem : (seqNext s).dmem = s.dmem := goto_dmem s _
@[simp] theorem seqNext_imem : (seqNext s).imem = s.imem := goto_imem s _
@[simp] theorem seqNext_inFlight : (seqNext s).inFlight = false := goto_inFlight s _
@[simp] theorem seqNext_env : (seqNext s).env = s.env := goto_env s _
@[simp] theorem getReg_seqNext (r' : RReg) : getReg r' (seqNext s) = getReg r' s := by simp [getReg]
@[simp] theorem regNat_seqNext (r' : RReg) : regNat r' (seqNext s) = regNat r' s := by simp [regNat]
@[simp] theorem getK_seqNext (k' : KReg) : getK k' (seqNext s) = getK k' s := by simp [getK]
@[simp] theorem scalarNat_seqNext (k' : KReg) : scalarNat k' (seqNext s) = scalarNat k' s := by simp [scalarNat]
@[simp] theorem memRead_seqNext (x n : Nat) : memRead x n (seqNext s) = memRead x n s := by simp [memRead]
@[simp] theorem dmemByte_seqNext (x : Nat) : dmemByte (seqNext s) x = dmemByte s x := by simp [dmemByte]
@[simp] theorem imemWord_seqNext (x : Nat) : imemWord (seqNext s) x = imemWord s x := by simp [imemWord]

/-! ### branchIf: the next pc of a branch -/

@[simp] theorem branchIf_regs (p : Bool) (off : BitVec 16) : (branchIf p off s).regs = s.regs := by unfold branchIf; split <;> simp
@[simp] theorem branchIf_kregs (p : Bool) (off : BitVec 16) : (branchIf p off s).kregs = s.kregs := by unfold branchIf; split <;> simp
@[simp] theorem branchIf_flags (p : Bool) (off : BitVec 16) : (branchIf p off s).flags = s.flags := by unfold branchIf; split <;> simp
@[simp] theorem branchIf_ie (p : Bool) (off : BitVec 16) : (branchIf p off s).ie = s.ie := by unfold branchIf; split <;> simp
@[simp] theorem branchIf_err (p : Bool) (off : BitVec 16) : (branchIf p off s).err = s.err := by unfold branchIf; split <;> simp
@[simp] theorem branchIf_exitCode (p : Bool) (off : BitVec 16) : (branchIf p off s).exitCode = s.exitCode := by unfold branchIf; split <;> simp
@[simp] theorem branchIf_entry (p : Bool) (off : BitVec 16) : (branchIf p off s).entry = s.entry := by unfold branchIf; split <;> simp
@[simp] theorem branchIf_dmem (p : Bool) (off : BitVec 16) : (branchIf p off s).dmem = s.dmem := by unfold branchIf; split <;> simp
@[simp] theorem branchIf_imem (p : Bool) (off : BitVec 16) : (branchIf p off s).imem = s.imem := by unfold branchIf; split <;> simp
@[simp] theorem branchIf_inFlight (p : Bool) (off : BitVec 16) : (branchIf p off s).inFlight = false := by unfold branchIf; split <;> simp
@[simp] theorem branchIf_env (p : Bool) (off : BitVec 16) : (branchIf p off s).env = s.env := by unfold branchIf; split <;> simp
@[simp] theorem getReg_branchIf (p : Bool) (off : BitVec 16) (r' : RReg) : getReg r' (branchIf p off s) = getReg r' s := by simp [getReg]
@[simp] theorem regNat_branchIf (p : Bool) (off : BitVec 16) (r' : RReg) : regNat r' (branchIf p off s) = regNat r' s := by simp [regNat]
@[simp] theorem getK_branchIf (p : Bool) (off : BitVec 16) (k' : KReg) : getK k' (branchIf p off s) = getK k' s := by simp [getK]
@[simp] theorem scalarNat_branchIf (p : Bool) (off : BitVec 16) (k' : KReg) : scalarNat k' (branchIf p off s) = scalarNat k' s := by simp [scalarNat]
@[simp] theorem memRead_branchIf (p : Bool) (off : BitVec 16) (x n : Nat) : memRead x n (branchIf p off s) = memRead x n s := by simp [memRead]
@[simp] theorem dmemByte_branchIf (p : Bool) (off : BitVec 16) (x : Nat) : dmemByte (branchIf p off s) x = dmemByte s x := by simp [dmemByte]
@[simp] theorem imemWord_branchIf (p : Bool) (off : BitVec 16) (x : Nat) : imemWord (branchIf p off s) x = imemWord s x := by simp [imemWord]

/-! ### keepWaiting: a port that has not answered -/

@[simp] theorem keepWaiting_regs : (keepWaiting s).regs = s.regs := rfl
@[simp] theorem keepWaiting_kregs : (keepWaiting s).kregs = s.kregs := rfl
@[simp] theorem keepWaiting_pc : (keepWaiting s).pc = s.pc := rfl
@[simp] theorem keepWaiting_flags : (keepWaiting s).flags = s.flags := rfl
@[simp] theorem keepWaiting_ie : (keepWaiting s).ie = s.ie := rfl
@[simp] theorem keepWaiting_status : (keepWaiting s).status = s.status := rfl
@[simp] theorem keepWaiting_err : (keepWaiting s).err = s.err := rfl
@[simp] theorem keepWaiting_exitCode : (keepWaiting s).exitCode = s.exitCode := rfl
@[simp] theorem keepWaiting_faultRegs : (keepWaiting s).faultRegs = s.faultRegs := rfl
@[simp] theorem keepWaiting_entry : (keepWaiting s).entry = s.entry := rfl
@[simp] theorem keepWaiting_dmem : (keepWaiting s).dmem = s.dmem := rfl
@[simp] theorem keepWaiting_imem : (keepWaiting s).imem = s.imem := rfl
@[simp] theorem keepWaiting_inFlight : (keepWaiting s).inFlight = true := rfl
@[simp] theorem keepWaiting_pcTrail : (keepWaiting s).pcTrail = s.pcTrail := rfl
@[simp] theorem keepWaiting_env : (keepWaiting s).env = s.env := rfl
@[simp] theorem getReg_keepWaiting (r' : RReg) : getReg r' (keepWaiting s) = getReg r' s := rfl
@[simp] theorem regNat_keepWaiting (r' : RReg) : regNat r' (keepWaiting s) = regNat r' s := rfl
@[simp] theorem getK_keepWaiting (k' : KReg) : getK k' (keepWaiting s) = getK k' s := rfl
@[simp] theorem scalarNat_keepWaiting (k' : KReg) : scalarNat k' (keepWaiting s) = scalarNat k' s := rfl
@[simp] theorem memRead_keepWaiting (x n : Nat) : memRead x n (keepWaiting s) = memRead x n s := rfl
@[simp] theorem dmemByte_keepWaiting (x : Nat) : dmemByte (keepWaiting s) x = dmemByte s x := rfl
@[simp] theorem imemWord_keepWaiting (x : Nat) : imemWord (keepWaiting s) x = imemWord s x := rfl
@[simp] theorem fetchWord_keepWaiting  : fetchWord (keepWaiting s) = fetchWord s := rfl

/-! ### entropyLooked: a look at the entropy source -/

@[simp] theorem entropyLooked_regs : (entropyLooked s).regs = s.regs := rfl
@[simp] theorem entropyLooked_kregs : (entropyLooked s).kregs = s.kregs := rfl
@[simp] theorem entropyLooked_pc : (entropyLooked s).pc = s.pc := rfl
@[simp] theorem entropyLooked_flags : (entropyLooked s).flags = s.flags := rfl
@[simp] theorem entropyLooked_ie : (entropyLooked s).ie = s.ie := rfl
@[simp] theorem entropyLooked_status : (entropyLooked s).status = s.status := rfl
@[simp] theorem entropyLooked_err : (entropyLooked s).err = s.err := rfl
@[simp] theorem entropyLooked_exitCode : (entropyLooked s).exitCode = s.exitCode := rfl
@[simp] theorem entropyLooked_faultRegs : (entropyLooked s).faultRegs = s.faultRegs := rfl
@[simp] theorem entropyLooked_entry : (entropyLooked s).entry = s.entry := rfl
@[simp] theorem entropyLooked_dmem : (entropyLooked s).dmem = s.dmem := rfl
@[simp] theorem entropyLooked_imem : (entropyLooked s).imem = s.imem := rfl
@[simp] theorem entropyLooked_inFlight : (entropyLooked s).inFlight = s.inFlight := rfl
@[simp] theorem entropyLooked_pcTrail : (entropyLooked s).pcTrail = s.pcTrail := rfl
@[simp] theorem entropyLooked_env : (entropyLooked s).env = { s.env with entropyIn := s.env.entropyIn.tail, draws := s.env.draws + 1 } := rfl
@[simp] theorem getReg_entropyLooked (r' : RReg) : getReg r' (entropyLooked s) = getReg r' s := rfl
@[simp] theorem regNat_entropyLooked (r' : RReg) : regNat r' (entropyLooked s) = regNat r' s := rfl
@[simp] theorem getK_entropyLooked (k' : KReg) : getK k' (entropyLooked s) = getK k' s := rfl
@[simp] theorem scalarNat_entropyLooked (k' : KReg) : scalarNat k' (entropyLooked s) = scalarNat k' s := rfl
@[simp] theorem memRead_entropyLooked (x n : Nat) : memRead x n (entropyLooked s) = memRead x n s := rfl
@[simp] theorem dmemByte_entropyLooked (x : Nat) : dmemByte (entropyLooked s) x = dmemByte s x := rfl
@[simp] theorem imemWord_entropyLooked (x : Nat) : imemWord (entropyLooked s) x = imemWord s x := rfl
@[simp] theorem fetchWord_entropyLooked  : fetchWord (entropyLooked s) = fetchWord s := rfl

/-! ### curveLooked: a look at the curve port -/

@[simp] theorem curveLooked_regs : (curveLooked s).regs = s.regs := rfl
@[simp] theorem curveLooked_kregs : (curveLooked s).kregs = s.kregs := rfl
@[simp] theorem curveLooked_pc : (curveLooked s).pc = s.pc := rfl
@[simp] theorem curveLooked_flags : (curveLooked s).flags = s.flags := rfl
@[simp] theorem curveLooked_ie : (curveLooked s).ie = s.ie := rfl
@[simp] theorem curveLooked_status : (curveLooked s).status = s.status := rfl
@[simp] theorem curveLooked_err : (curveLooked s).err = s.err := rfl
@[simp] theorem curveLooked_exitCode : (curveLooked s).exitCode = s.exitCode := rfl
@[simp] theorem curveLooked_faultRegs : (curveLooked s).faultRegs = s.faultRegs := rfl
@[simp] theorem curveLooked_entry : (curveLooked s).entry = s.entry := rfl
@[simp] theorem curveLooked_dmem : (curveLooked s).dmem = s.dmem := rfl
@[simp] theorem curveLooked_imem : (curveLooked s).imem = s.imem := rfl
@[simp] theorem curveLooked_inFlight : (curveLooked s).inFlight = s.inFlight := rfl
@[simp] theorem curveLooked_pcTrail : (curveLooked s).pcTrail = s.pcTrail := rfl
@[simp] theorem curveLooked_env : (curveLooked s).env = { s.env with curveIn := s.env.curveIn.tail, draws := s.env.draws + 1 } := rfl
@[simp] theorem getReg_curveLooked (r' : RReg) : getReg r' (curveLooked s) = getReg r' s := rfl
@[simp] theorem regNat_curveLooked (r' : RReg) : regNat r' (curveLooked s) = regNat r' s := rfl
@[simp] theorem getK_curveLooked (k' : KReg) : getK k' (curveLooked s) = getK k' s := rfl
@[simp] theorem scalarNat_curveLooked (k' : KReg) : scalarNat k' (curveLooked s) = scalarNat k' s := rfl
@[simp] theorem memRead_curveLooked (x n : Nat) : memRead x n (curveLooked s) = memRead x n s := rfl
@[simp] theorem dmemByte_curveLooked (x : Nat) : dmemByte (curveLooked s) x = dmemByte s x := rfl
@[simp] theorem imemWord_curveLooked (x : Nat) : imemWord (curveLooked s) x = imemWord s x := rfl
@[simp] theorem fetchWord_curveLooked  : fetchWord (curveLooked s) = fetchWord s := rfl

/-! ### latchHostErr: a refused host access -/

@[simp] theorem latchHostErr_regs : (latchHostErr s).regs = s.regs := rfl
@[simp] theorem latchHostErr_kregs : (latchHostErr s).kregs = s.kregs := rfl
@[simp] theorem latchHostErr_pc : (latchHostErr s).pc = s.pc := rfl
@[simp] theorem latchHostErr_flags : (latchHostErr s).flags = s.flags := rfl
@[simp] theorem latchHostErr_ie : (latchHostErr s).ie = s.ie := rfl
@[simp] theorem latchHostErr_status : (latchHostErr s).status = { s.status with hostErr := true } := rfl
@[simp] theorem latchHostErr_err : (latchHostErr s).err = s.err := rfl
@[simp] theorem latchHostErr_exitCode : (latchHostErr s).exitCode = s.exitCode := rfl
@[simp] theorem latchHostErr_faultRegs : (latchHostErr s).faultRegs = s.faultRegs := rfl
@[simp] theorem latchHostErr_entry : (latchHostErr s).entry = s.entry := rfl
@[simp] theorem latchHostErr_dmem : (latchHostErr s).dmem = s.dmem := rfl
@[simp] theorem latchHostErr_imem : (latchHostErr s).imem = s.imem := rfl
@[simp] theorem latchHostErr_inFlight : (latchHostErr s).inFlight = s.inFlight := rfl
@[simp] theorem latchHostErr_pcTrail : (latchHostErr s).pcTrail = s.pcTrail := rfl
@[simp] theorem latchHostErr_env : (latchHostErr s).env = s.env := rfl
@[simp] theorem getReg_latchHostErr (r' : RReg) : getReg r' (latchHostErr s) = getReg r' s := rfl
@[simp] theorem regNat_latchHostErr (r' : RReg) : regNat r' (latchHostErr s) = regNat r' s := rfl
@[simp] theorem getK_latchHostErr (k' : KReg) : getK k' (latchHostErr s) = getK k' s := rfl
@[simp] theorem scalarNat_latchHostErr (k' : KReg) : scalarNat k' (latchHostErr s) = scalarNat k' s := rfl
@[simp] theorem memRead_latchHostErr (x n : Nat) : memRead x n (latchHostErr s) = memRead x n s := rfl
@[simp] theorem dmemByte_latchHostErr (x : Nat) : dmemByte (latchHostErr s) x = dmemByte s x := rfl
@[simp] theorem imemWord_latchHostErr (x : Nat) : imemWord (latchHostErr s) x = imemWord s x := rfl
@[simp] theorem fetchWord_latchHostErr  : fetchWord (latchHostErr s) = fetchWord s := rfl

/-! ### setBusData: the answer of a host read -/

@[simp] theorem setBusData_regs (v : Word) : (setBusData v s).regs = s.regs := rfl
@[simp] theorem setBusData_kregs (v : Word) : (setBusData v s).kregs = s.kregs := rfl
@[simp] theorem setBusData_pc (v : Word) : (setBusData v s).pc = s.pc := rfl
@[simp] theorem setBusData_flags (v : Word) : (setBusData v s).flags = s.flags := rfl
@[simp] theorem setBusData_ie (v : Word) : (setBusData v s).ie = s.ie := rfl
@[simp] theorem setBusData_status (v : Word) : (setBusData v s).status = s.status := rfl
@[simp] theorem setBusData_err (v : Word) : (setBusData v s).err = s.err := rfl
@[simp] theorem setBusData_exitCode (v : Word) : (setBusData v s).exitCode = s.exitCode := rfl
@[simp] theorem setBusData_faultRegs (v : Word) : (setBusData v s).faultRegs = s.faultRegs := rfl
@[simp] theorem setBusData_entry (v : Word) : (setBusData v s).entry = s.entry := rfl
@[simp] theorem setBusData_dmem (v : Word) : (setBusData v s).dmem = s.dmem := rfl
@[simp] theorem setBusData_imem (v : Word) : (setBusData v s).imem = s.imem := rfl
@[simp] theorem setBusData_inFlight (v : Word) : (setBusData v s).inFlight = s.inFlight := rfl
@[simp] theorem setBusData_pcTrail (v : Word) : (setBusData v s).pcTrail = s.pcTrail := rfl
@[simp] theorem setBusData_env (v : Word) : (setBusData v s).env = { s.env with busData := v } := rfl
@[simp] theorem getReg_setBusData (v : Word) (r' : RReg) : getReg r' (setBusData v s) = getReg r' s := rfl
@[simp] theorem regNat_setBusData (v : Word) (r' : RReg) : regNat r' (setBusData v s) = regNat r' s := rfl
@[simp] theorem getK_setBusData (v : Word) (k' : KReg) : getK k' (setBusData v s) = getK k' s := rfl
@[simp] theorem scalarNat_setBusData (v : Word) (k' : KReg) : scalarNat k' (setBusData v s) = scalarNat k' s := rfl
@[simp] theorem memRead_setBusData (v : Word) (x n : Nat) : memRead x n (setBusData v s) = memRead x n s := rfl
@[simp] theorem dmemByte_setBusData (v : Word) (x : Nat) : dmemByte (setBusData v s) x = dmemByte s x := rfl
@[simp] theorem imemWord_setBusData (v : Word) (x : Nat) : imemWord (setBusData v s) x = imemWord s x := rfl
@[simp] theorem fetchWord_setBusData (v : Word) : fetchWord (setBusData v s) = fetchWord s := rfl

/-! ### setInbox: the schedule -/

@[simp] theorem setInbox_regs (ms : List Move) : (setInbox ms s).regs = s.regs := rfl
@[simp] theorem setInbox_kregs (ms : List Move) : (setInbox ms s).kregs = s.kregs := rfl
@[simp] theorem setInbox_pc (ms : List Move) : (setInbox ms s).pc = s.pc := rfl
@[simp] theorem setInbox_flags (ms : List Move) : (setInbox ms s).flags = s.flags := rfl
@[simp] theorem setInbox_ie (ms : List Move) : (setInbox ms s).ie = s.ie := rfl
@[simp] theorem setInbox_status (ms : List Move) : (setInbox ms s).status = s.status := rfl
@[simp] theorem setInbox_err (ms : List Move) : (setInbox ms s).err = s.err := rfl
@[simp] theorem setInbox_exitCode (ms : List Move) : (setInbox ms s).exitCode = s.exitCode := rfl
@[simp] theorem setInbox_faultRegs (ms : List Move) : (setInbox ms s).faultRegs = s.faultRegs := rfl
@[simp] theorem setInbox_entry (ms : List Move) : (setInbox ms s).entry = s.entry := rfl
@[simp] theorem setInbox_dmem (ms : List Move) : (setInbox ms s).dmem = s.dmem := rfl
@[simp] theorem setInbox_imem (ms : List Move) : (setInbox ms s).imem = s.imem := rfl
@[simp] theorem setInbox_inFlight (ms : List Move) : (setInbox ms s).inFlight = s.inFlight := rfl
@[simp] theorem setInbox_pcTrail (ms : List Move) : (setInbox ms s).pcTrail = s.pcTrail := rfl
@[simp] theorem setInbox_env (ms : List Move) : (setInbox ms s).env = { s.env with inbox := ms } := rfl
@[simp] theorem getReg_setInbox (ms : List Move) (r' : RReg) : getReg r' (setInbox ms s) = getReg r' s := rfl
@[simp] theorem regNat_setInbox (ms : List Move) (r' : RReg) : regNat r' (setInbox ms s) = regNat r' s := rfl
@[simp] theorem getK_setInbox (ms : List Move) (k' : KReg) : getK k' (setInbox ms s) = getK k' s := rfl
@[simp] theorem scalarNat_setInbox (ms : List Move) (k' : KReg) : scalarNat k' (setInbox ms s) = scalarNat k' s := rfl
@[simp] theorem memRead_setInbox (ms : List Move) (x n : Nat) : memRead x n (setInbox ms s) = memRead x n s := rfl
@[simp] theorem dmemByte_setInbox (ms : List Move) (x : Nat) : dmemByte (setInbox ms s) x = dmemByte s x := rfl
@[simp] theorem imemWord_setInbox (ms : List Move) (x : Nat) : imemWord (setInbox ms s) x = imemWord s x := rfl
@[simp] theorem fetchWord_setInbox (ms : List Move) : fetchWord (setInbox ms s) = fetchWord s := rfl

/-! ### setIe: `CTRL.IE` -/

@[simp] theorem setIe_regs (b : Bool) : (setIe b s).regs = s.regs := rfl
@[simp] theorem setIe_kregs (b : Bool) : (setIe b s).kregs = s.kregs := rfl
@[simp] theorem setIe_pc (b : Bool) : (setIe b s).pc = s.pc := rfl
@[simp] theorem setIe_flags (b : Bool) : (setIe b s).flags = s.flags := rfl
@[simp] theorem setIe_ie (b : Bool) : (setIe b s).ie = b := rfl
@[simp] theorem setIe_status (b : Bool) : (setIe b s).status = s.status := rfl
@[simp] theorem setIe_err (b : Bool) : (setIe b s).err = s.err := rfl
@[simp] theorem setIe_exitCode (b : Bool) : (setIe b s).exitCode = s.exitCode := rfl
@[simp] theorem setIe_faultRegs (b : Bool) : (setIe b s).faultRegs = s.faultRegs := rfl
@[simp] theorem setIe_entry (b : Bool) : (setIe b s).entry = s.entry := rfl
@[simp] theorem setIe_dmem (b : Bool) : (setIe b s).dmem = s.dmem := rfl
@[simp] theorem setIe_imem (b : Bool) : (setIe b s).imem = s.imem := rfl
@[simp] theorem setIe_inFlight (b : Bool) : (setIe b s).inFlight = s.inFlight := rfl
@[simp] theorem setIe_pcTrail (b : Bool) : (setIe b s).pcTrail = s.pcTrail := rfl
@[simp] theorem setIe_env (b : Bool) : (setIe b s).env = s.env := rfl
@[simp] theorem getReg_setIe (b : Bool) (r' : RReg) : getReg r' (setIe b s) = getReg r' s := rfl
@[simp] theorem regNat_setIe (b : Bool) (r' : RReg) : regNat r' (setIe b s) = regNat r' s := rfl
@[simp] theorem getK_setIe (b : Bool) (k' : KReg) : getK k' (setIe b s) = getK k' s := rfl
@[simp] theorem scalarNat_setIe (b : Bool) (k' : KReg) : scalarNat k' (setIe b s) = scalarNat k' s := rfl
@[simp] theorem memRead_setIe (b : Bool) (x n : Nat) : memRead x n (setIe b s) = memRead x n s := rfl
@[simp] theorem dmemByte_setIe (b : Bool) (x : Nat) : dmemByte (setIe b s) x = dmemByte s x := rfl
@[simp] theorem imemWord_setIe (b : Bool) (x : Nat) : imemWord (setIe b s) x = imemWord s x := rfl
@[simp] theorem fetchWord_setIe (b : Bool) : fetchWord (setIe b s) = fetchWord s := rfl

/-! ### clearIrq: `IRQ_CLR` -/

@[simp] theorem clearIrq_regs : (clearIrq s).regs = s.regs := rfl
@[simp] theorem clearIrq_kregs : (clearIrq s).kregs = s.kregs := rfl
@[simp] theorem clearIrq_pc : (clearIrq s).pc = s.pc := rfl
@[simp] theorem clearIrq_flags : (clearIrq s).flags = s.flags := rfl
@[simp] theorem clearIrq_ie : (clearIrq s).ie = s.ie := rfl
@[simp] theorem clearIrq_status : (clearIrq s).status = { s.status with irq := false } := rfl
@[simp] theorem clearIrq_err : (clearIrq s).err = s.err := rfl
@[simp] theorem clearIrq_exitCode : (clearIrq s).exitCode = s.exitCode := rfl
@[simp] theorem clearIrq_faultRegs : (clearIrq s).faultRegs = s.faultRegs := rfl
@[simp] theorem clearIrq_entry : (clearIrq s).entry = s.entry := rfl
@[simp] theorem clearIrq_dmem : (clearIrq s).dmem = s.dmem := rfl
@[simp] theorem clearIrq_imem : (clearIrq s).imem = s.imem := rfl
@[simp] theorem clearIrq_inFlight : (clearIrq s).inFlight = s.inFlight := rfl
@[simp] theorem clearIrq_pcTrail : (clearIrq s).pcTrail = s.pcTrail := rfl
@[simp] theorem clearIrq_env : (clearIrq s).env = s.env := rfl
@[simp] theorem getReg_clearIrq (r' : RReg) : getReg r' (clearIrq s) = getReg r' s := rfl
@[simp] theorem regNat_clearIrq (r' : RReg) : regNat r' (clearIrq s) = regNat r' s := rfl
@[simp] theorem getK_clearIrq (k' : KReg) : getK k' (clearIrq s) = getK k' s := rfl
@[simp] theorem scalarNat_clearIrq (k' : KReg) : scalarNat k' (clearIrq s) = scalarNat k' s := rfl
@[simp] theorem memRead_clearIrq (x n : Nat) : memRead x n (clearIrq s) = memRead x n s := rfl
@[simp] theorem dmemByte_clearIrq (x : Nat) : dmemByte (clearIrq s) x = dmemByte s x := rfl
@[simp] theorem imemWord_clearIrq (x : Nat) : imemWord (clearIrq s) x = imemWord s x := rfl
@[simp] theorem fetchWord_clearIrq  : fetchWord (clearIrq s) = fetchWord s := rfl

/-! ### clearHostErr: `HOSTERR_CLR` -/

@[simp] theorem clearHostErr_regs : (clearHostErr s).regs = s.regs := rfl
@[simp] theorem clearHostErr_kregs : (clearHostErr s).kregs = s.kregs := rfl
@[simp] theorem clearHostErr_pc : (clearHostErr s).pc = s.pc := rfl
@[simp] theorem clearHostErr_flags : (clearHostErr s).flags = s.flags := rfl
@[simp] theorem clearHostErr_ie : (clearHostErr s).ie = s.ie := rfl
@[simp] theorem clearHostErr_status : (clearHostErr s).status = { s.status with hostErr := false } := rfl
@[simp] theorem clearHostErr_err : (clearHostErr s).err = s.err := rfl
@[simp] theorem clearHostErr_exitCode : (clearHostErr s).exitCode = s.exitCode := rfl
@[simp] theorem clearHostErr_faultRegs : (clearHostErr s).faultRegs = s.faultRegs := rfl
@[simp] theorem clearHostErr_entry : (clearHostErr s).entry = s.entry := rfl
@[simp] theorem clearHostErr_dmem : (clearHostErr s).dmem = s.dmem := rfl
@[simp] theorem clearHostErr_imem : (clearHostErr s).imem = s.imem := rfl
@[simp] theorem clearHostErr_inFlight : (clearHostErr s).inFlight = s.inFlight := rfl
@[simp] theorem clearHostErr_pcTrail : (clearHostErr s).pcTrail = s.pcTrail := rfl
@[simp] theorem clearHostErr_env : (clearHostErr s).env = s.env := rfl
@[simp] theorem getReg_clearHostErr (r' : RReg) : getReg r' (clearHostErr s) = getReg r' s := rfl
@[simp] theorem regNat_clearHostErr (r' : RReg) : regNat r' (clearHostErr s) = regNat r' s := rfl
@[simp] theorem getK_clearHostErr (k' : KReg) : getK k' (clearHostErr s) = getK k' s := rfl
@[simp] theorem scalarNat_clearHostErr (k' : KReg) : scalarNat k' (clearHostErr s) = scalarNat k' s := rfl
@[simp] theorem memRead_clearHostErr (x n : Nat) : memRead x n (clearHostErr s) = memRead x n s := rfl
@[simp] theorem dmemByte_clearHostErr (x : Nat) : dmemByte (clearHostErr s) x = dmemByte s x := rfl
@[simp] theorem imemWord_clearHostErr (x : Nat) : imemWord (clearHostErr s) x = imemWord s x := rfl
@[simp] theorem fetchWord_clearHostErr  : fetchWord (clearHostErr s) = fetchWord s := rfl

/-! ### pcAnswered: a host read of PC while BUSY -/

@[simp] theorem pcAnswered_regs : (pcAnswered s).regs = s.regs := rfl
@[simp] theorem pcAnswered_kregs : (pcAnswered s).kregs = s.kregs := rfl
@[simp] theorem pcAnswered_pc : (pcAnswered s).pc = s.pc := rfl
@[simp] theorem pcAnswered_flags : (pcAnswered s).flags = s.flags := rfl
@[simp] theorem pcAnswered_ie : (pcAnswered s).ie = s.ie := rfl
@[simp] theorem pcAnswered_status : (pcAnswered s).status = s.status := rfl
@[simp] theorem pcAnswered_err : (pcAnswered s).err = s.err := rfl
@[simp] theorem pcAnswered_exitCode : (pcAnswered s).exitCode = s.exitCode := rfl
@[simp] theorem pcAnswered_faultRegs : (pcAnswered s).faultRegs = s.faultRegs := rfl
@[simp] theorem pcAnswered_entry : (pcAnswered s).entry = s.entry := rfl
@[simp] theorem pcAnswered_dmem : (pcAnswered s).dmem = s.dmem := rfl
@[simp] theorem pcAnswered_imem : (pcAnswered s).imem = s.imem := rfl
@[simp] theorem pcAnswered_inFlight : (pcAnswered s).inFlight = s.inFlight := rfl
@[simp] theorem pcAnswered_pcTrail : (pcAnswered s).pcTrail = [s.pc] := rfl
@[simp] theorem pcAnswered_env : (pcAnswered s).env = { s.env with draws := s.env.draws + 1 } := rfl
@[simp] theorem getReg_pcAnswered (r' : RReg) : getReg r' (pcAnswered s) = getReg r' s := rfl
@[simp] theorem regNat_pcAnswered (r' : RReg) : regNat r' (pcAnswered s) = regNat r' s := rfl
@[simp] theorem getK_pcAnswered (k' : KReg) : getK k' (pcAnswered s) = getK k' s := rfl
@[simp] theorem scalarNat_pcAnswered (k' : KReg) : scalarNat k' (pcAnswered s) = scalarNat k' s := rfl
@[simp] theorem memRead_pcAnswered (x n : Nat) : memRead x n (pcAnswered s) = memRead x n s := rfl
@[simp] theorem dmemByte_pcAnswered (x : Nat) : dmemByte (pcAnswered s) x = dmemByte s x := rfl
@[simp] theorem imemWord_pcAnswered (x : Nat) : imemWord (pcAnswered s) x = imemWord s x := rfl
@[simp] theorem fetchWord_pcAnswered  : fetchWord (pcAnswered s) = fetchWord s := rfl

end Sys2Proof.Machine
end

