-- ==== Sys2Proof/Laws/Ops.lean ====
section
/-! SUPPORT. What each shared operation can do, said once: register reads after writes, the next pc, region checks, the
legality check, the ports' answers, the host commands, and the engine's turn. -/

namespace Sys2Proof.Machine

/-! ## Registers (R31, R33) -/

@[simp] theorem getReg_zero (s : State) : getReg 0 s = 0#32 := rfl

@[simp] theorem setReg_zero (v : Word) (s : State) : setReg 0 v s = s := rfl

/-- A register reads what was last written to it, R0 always 0, and no other register changes. -/
theorem getReg_setReg (r r' : RReg) (v : Word) (s : State) :
    getReg r' (setReg r v s) = if r' = r ∧ r ≠ 0 then v else getReg r' s := by
  unfold setReg
  split
  · rename_i h
    subst h
    simp
  · rename_i h
    by_cases hr : r' = r
    · subst hr
      simp [getReg, h, Vector.get_eq_getElem]
    · simp only [getReg, hr, false_and, if_false, Vector.get_eq_getElem]
      split
      · rfl
      · exact Vector.getElem_set_ne _ _ (fun e => hr (Fin.ext e.symm))

theorem getReg_setReg_same {r : RReg} (h : r ≠ 0) (v : Word) (s : State) : getReg r (setReg r v s) = v := by
  rw [getReg_setReg, if_pos ⟨rfl, h⟩]

theorem getReg_setReg_other {r r' : RReg} (h : r' ≠ r) (v : Word) (s : State) :
    getReg r' (setReg r v s) = getReg r' s := by
  rw [getReg_setReg, if_neg fun e => h e.1]

theorem getK_setK (k k' : KReg) (v : Scalar) (s : State) :
    getK k' (setK k v s) = if k' = k then v else getK k' s := by
  by_cases h : k' = k
  · subst h
    simp [getK, setK, Vector.get_eq_getElem]
  · rw [if_neg h]
    simp only [getK, setK, Vector.get_eq_getElem]
    exact Vector.getElem_set_ne _ _ (fun e => h (Fin.ext e.symm))

@[simp] theorem getK_setK_same (k : KReg) (v : Scalar) (s : State) : getK k (setK k v s) = v := by
  rw [getK_setK, if_pos rfl]

theorem getK_setK_other {k k' : KReg} (h : k' ≠ k) (v : Scalar) (s : State) : getK k' (setK k v s) = getK k' s := by
  rw [getK_setK, if_neg h]

/-! ## The next pc (R240) -/

theorem goto_of_inRange {t : Int} (h : 0 ≤ t ∧ t < 256) (s : State) : goto t s = arrive (BitVec.ofInt 8 t) s :=
  if_pos h

theorem goto_of_outOfRange {t : Int} (h : t < 0 ∨ 256 ≤ t) (s : State) :
    goto t s = raise .pcRange (BitVec.ofInt 32 t) s :=
  if_neg (by simp only [Config.imemWords]; omega)

/-- The next pc is reached, or PC_RANGE is raised. -/
theorem goto_cases (t : Int) (s : State) :
    (0 ≤ t ∧ t < 256 ∧ goto t s = arrive (BitVec.ofInt 8 t) s) ∨
      ((t < 0 ∨ 256 ≤ t) ∧ goto t s = raise .pcRange (BitVec.ofInt 32 t) s) := by
  by_cases h : 0 ≤ t ∧ t < 256
  · exact .inl ⟨h.1, h.2, goto_of_inRange h s⟩
  · have h' : t < 0 ∨ 256 ≤ t := by omega
    exact .inr ⟨h', goto_of_outOfRange h' s⟩

theorem ofInt_fallThrough (pc : Byte) : BitVec.ofInt 8 (fallThrough pc) = pc + 1#8 := by
  apply BitVec.eq_of_toNat_eq
  simp only [fallThrough, BitVec.toNat_ofInt, BitVec.toNat_add, BitVec.toNat_ofNat]
  omega

/-- A non-branch below index 255 goes on to pc + 1. -/
theorem seqNext_of_lt {s : State} (h : s.pc.toNat < 255) : seqNext s = arrive (s.pc + 1#8) s := by
  rw [seqNext, goto_of_inRange (by simp only [fallThrough]; omega), ofInt_fallThrough]

/-- A non-branch at index 255 raises PC_RANGE with info 0x100. -/
theorem seqNext_of_last {s : State} (h : s.pc = 255#8) : seqNext s = raise .pcRange 0x100#32 s := by
  rw [seqNext, goto_of_outOfRange (by simp [fallThrough, h])]
  simp [fallThrough, h]

theorem seqNext_cases (s : State) :
    (s.pc.toNat < 255 ∧ seqNext s = arrive (s.pc + 1#8) s) ∨
      (s.pc = 255#8 ∧ seqNext s = raise .pcRange 0x100#32 s) := by
  by_cases h : s.pc.toNat < 255
  · exact .inl ⟨h, seqNext_of_lt h⟩
  · have h' : s.pc = 255#8 := by
      apply BitVec.eq_of_toNat_eq
      have := s.pc.isLt
      simp only [BitVec.toNat_ofNat]
      omega
    exact .inr ⟨h', seqNext_of_last h'⟩

@[simp] theorem branchIf_true (off : BitVec 16) (s : State) :
    branchIf true off s = goto (branchTarget s.pc off) s := by
  simp [branchIf]

@[simp] theorem branchIf_false (off : BitVec 16) (s : State) : branchIf false off s = seqNext s := by
  simp [branchIf]

/-! ## Region checks (R94, R506) -/

theorem regionOk_iff {a : Word} {n : Nat} : regionOk a n = true ↔ a.toNat + n ≤ 4096 := by
  rw [regionOk, decide_eq_true_iff, Config.dmemSize]

theorem firstBad_eq_none {rs : List (Word × Nat)} :
    firstBad rs = none ↔ ∀ r ∈ rs, r.1.toNat + r.2 ≤ 4096 := by
  induction rs with
  | nil => simp [firstBad]
  | cons r rs ih =>
    unfold firstBad
    by_cases h : regionOk r.1 r.2 = true
    · rw [if_pos h, ih]
      simp [regionOk_iff.1 h]
    · rw [if_neg h]
      have : ¬r.1.toNat + r.2 ≤ 4096 := fun e => h (regionOk_iff.2 e)
      simp [this]

/-- The failing region found is the first: every region before it passes. -/
theorem firstBad_eq_some {rs : List (Word × Nat)} {a : Word} (h : firstBad rs = some a) :
    ∃ ok n rest, rs = ok ++ (a, n) :: rest ∧ (∀ r ∈ ok, r.1.toNat + r.2 ≤ 4096) ∧ 4096 < a.toNat + n := by
  induction rs with
  | nil => simp [firstBad] at h
  | cons r rs ih =>
    unfold firstBad at h
    split at h
    · rename_i hr
      obtain ⟨ok, n, rest, rfl, hok, hbad⟩ := ih h
      refine ⟨r :: ok, n, rest, rfl, fun q hq => ?_, hbad⟩
      rcases List.mem_cons.1 hq with rfl | hq
      · exact regionOk_iff.1 hr
      · exact hok q hq
    · rename_i hr
      obtain rfl := Option.some.inj h
      exact ⟨[], r.2, rs, rfl, by simp, Nat.lt_of_not_le fun e => hr (regionOk_iff.2 e)⟩

theorem withRegions_of_ok {rs : List (Word × Nat)} (h : ∀ r ∈ rs, r.1.toNat + r.2 ≤ 4096) (rest : State → Result)
    (s : State) : withRegions rs rest s = rest s := by
  rw [withRegions, firstBad_eq_none.2 h]

theorem withRegions_of_bad {rs : List (Word × Nat)} {a : Word} (h : firstBad rs = some a) (rest : State → Result)
    (s : State) : withRegions rs rest s = .next (raise .dmemBounds a s) := by
  rw [withRegions, h]

/-- What a region-checked instruction can do. -/
theorem withRegions_cases (rs : List (Word × Nat)) (rest : State → Result) (s : State) :
    ((∀ r ∈ rs, r.1.toNat + r.2 ≤ 4096) ∧ withRegions rs rest s = rest s) ∨
      ∃ a, firstBad rs = some a ∧ withRegions rs rest s = .next (raise .dmemBounds a s) := by
  cases h : firstBad rs with
  | none => exact .inl ⟨firstBad_eq_none.1 h, by rw [withRegions, h]⟩
  | some a => exact .inr ⟨a, rfl, by rw [withRegions, h]⟩

/-! ## The legality check (R141) -/

theorem ifLegal_of_wellFormed {i : Instr} (h : i.wellFormed = true) (rest : State → Result) (s : State) :
    ifLegal i rest s = rest s := if_pos h

theorem ifLegal_of_illegal {i : Instr} (h : i.wellFormed = false) (rest : State → Result) (s : State) :
    ifLegal i rest s = .next (raise .illegalInstruction 0#32 s) := if_neg (by simp [h])

/-! ## The ports (R450 to R453) -/

theorem entropyAnswer_supplied {s : State} {a : EntropyAnswer} {rest : List EntropyAnswer}
    (h : s.env.entropyIn = a :: rest) (n : Nat) : entropyAnswer n s = a := by
  rw [entropyAnswer, h]

theorem curveAnswer_supplied {s : State} {a : CurveAnswer} {rest : List CurveAnswer}
    (h : s.env.curveIn = a :: rest) : curveAnswer s = a := by
  rw [curveAnswer, h]

/-- A drawn answer of bytes has the length that was asked for. -/
theorem entropyAnswer_drawn_length {s : State} {n : Nat} {bs : List Byte} (h : s.env.entropyIn = [])
    (hb : entropyAnswer n s = .bytes bs) : bs.length = n := by
  rw [entropyAnswer, h] at hb
  simp only at hb
  split at hb
  · split at hb
    · exact absurd hb (by simp)
    · obtain rfl := EntropyAnswer.bytes.inj hb
      simp
  · exact absurd hb (by simp)

/-! ## Host commands and reset (R42, R560 to R563) -/

theorem startRun_of_busy {s : State} (h : s.status.busy = true) : startRun s = latchHostErr s := if_pos h

theorem zeroize_of_busy {s : State} (h : s.status.busy = true) : zeroize s = latchHostErr s := if_pos h

theorem setEntry_of_busy {s : State} (h : s.status.busy = true) (v : Word) : setEntry v s = latchHostErr s := if_pos h

theorem requestAbort_of_idle {s : State} (h : s.status.busy = false) : requestAbort s = s := if_neg (by simp [h])

theorem onBit_cases (v : Word) (i : Nat) (command : State → State) (s : State) :
    (v.getLsbD i = true ∧ onBit v i command s = command s) ∨ (v.getLsbD i = false ∧ onBit v i command s = s) := by
  cases h : v.getLsbD i with
  | true => exact .inl ⟨rfl, by rw [onBit, h]; rfl⟩
  | false => exact .inr ⟨rfl, by rw [onBit, h]; rfl⟩

/-- A property that every command keeps, a write to `CTRL` keeps. -/
theorem writeCtrl_induct {P : State → Prop} (v : Word) {s : State} (h : P s)
    (hie : ∀ t b, P t → P (setIe b t)) (hirq : ∀ t, P t → P (clearIrq t)) (herr : ∀ t, P t → P (clearHostErr t))
    (habort : ∀ t, P t → P (requestAbort t)) (hzero : ∀ t, P t → P (zeroize t))
    (hstart : ∀ t, P t → P (startRun t)) : P (writeCtrl v s) := by
  have hb : ∀ (i : Nat) (f : State → State), (∀ t, P t → P (f t)) → ∀ t, P t → P (onBit v i f t) := by
    intro i f hf t ht
    rcases onBit_cases v i f t with ⟨_, e⟩ | ⟨_, e⟩ <;> rw [e]
    · exact hf t ht
    · exact ht
  exact hb 0 _ hstart _ (hb 2 _ hzero _ (hb 1 _ habort _ (hb 5 _ herr _ (hb 4 _ hirq _ (hie s _ h)))))

theorem windowOffset_window {base o : Nat} (h : o < 0x2000) : windowOffset base (base + o) = some o := by
  rw [windowOffset, if_pos ⟨by omega, by simp only [Config.windowSize]; omega⟩]
  congr 1
  omega

/-! ## The engine's turn and the step -/

theorem engineTurn_idle {s : State} (h : s.status.busy = false) : engineTurn s = .next s := if_neg (by simp [h])

theorem engineTurn_abort {s : State} (h : s.status.busy = true) (ha : abortDue s = true) :
    engineTurn s = .next (abortEntry s) := by
  rw [engineTurn, if_pos h, if_pos ha]

theorem engineTurn_run {s : State} (h : s.status.busy = true) (ha : abortDue s = false) :
    engineTurn s = runInstruction s := by
  rw [engineTurn, if_pos h, if_neg (by simp [ha])]

theorem runInstruction_legal {s : State} {i : Instr} (h : decode (fetchWord s) = .ok i) :
    runInstruction s = exec i s := by
  rw [runInstruction, h]

theorem runInstruction_illegal {s : State} {e : Illegal} (h : decode (fetchWord s) = .error e) :
    runInstruction s = .next (raise .illegalInstruction 0#32 s) := by
  rw [runInstruction, h]

theorem step_of_empty {s : State} (h : s.env.inbox = []) : step s = engineTurn s := by
  rw [step, nextMove, h]

theorem step_of_move {s : State} {m : Move} {rest : List Move} (h : s.env.inbox = m :: rest) :
    step s = takeMove drawnPc m (setInbox rest s) := by
  rw [step, nextMove, h]

/-- The instruction placed by `withFetchWord` is the one the very next step runs. -/
theorem step_withFetchWord (s : State) (w : Nat) :
    step (s.withFetchWord 32 w) = runInstruction (s.withFetchWord 32 w) ∧
      fetchWord (s.withFetchWord 32 w) = BitVec.ofNat 32 w := by
  constructor
  · rw [step_of_empty rfl, engineTurn_run rfl rfl]
  · rw [State.withFetchWord, fetchWord_placeWord]
    exact BitVec.eq_of_toNat_eq (by simp)

end Sys2Proof.Machine
end

