-- ==== Sys2Proof/Laws/Exec.lean ====
section
/-! SUPPORT. What the execution of an instruction can do, said once: its own writes, then one of four ends. -/

namespace Sys2Proof.Machine

/-- What an instruction's own writes leave: everything but R, K, the flags, ERR, DMEM and the world outside as before,
and of those what the invariant asks. -/
structure OwnWrites (s u : State) : Prop where
  pc : u.pc = s.pc
  ie : u.ie = s.ie
  status : u.status = s.status
  exitCode : u.exitCode = s.exitCode
  faultRegs : u.faultRegs = s.faultRegs
  entry : u.entry = s.entry
  imem : u.imem = s.imem
  inFlight : u.inFlight = s.inFlight
  pcTrail : u.pcTrail = s.pcTrail
  zeroReg : s.regs.get 0 = 0#32 → u.regs.get 0 = 0#32
  dmemWf : Memory.wf Config.dmemSize s.dmem → Memory.wf Config.dmemSize u.dmem
  errFlag : s.flags.e = decide (s.err ≠ 0#8) → u.flags.e = decide (u.err ≠ 0#8)

namespace OwnWrites

theorem refl (s : State) : OwnWrites s s := ⟨rfl, rfl, rfl, rfl, rfl, rfl, rfl, rfl, rfl, id, id, id⟩

theorem trans {s u v : State} (h : OwnWrites s u) (k : OwnWrites u v) : OwnWrites s v :=
  ⟨k.pc.trans h.pc, k.ie.trans h.ie, k.status.trans h.status, k.exitCode.trans h.exitCode,
    k.faultRegs.trans h.faultRegs, k.entry.trans h.entry, k.imem.trans h.imem, k.inFlight.trans h.inFlight,
    k.pcTrail.trans h.pcTrail, k.zeroReg ∘ h.zeroReg, k.dmemWf ∘ h.dmemWf, k.errFlag ∘ h.errFlag⟩

theorem fetchWord_eq {s u : State} (h : OwnWrites s u) : fetchWord u = fetchWord s := by
  rw [fetchWord, fetchWord, imemWord, imemWord, h.pc, h.imem]

theorem setReg (r : RReg) (v : Word) (s : State) : OwnWrites s (setReg r v s) := by
  refine ⟨by simp, by simp, by simp, by simp, by simp, by simp, by simp, by simp, by simp, fun h => ?_, by simp,
    by simp⟩
  by_cases hr : r = 0
  · simpa [hr] using h
  · have h0 : ¬r.val = 0 := fun e => hr (Fin.ext e)
    simp only [Machine.setReg, if_neg hr, Vector.get_eq_getElem]
    exact (Vector.getElem_set_ne r.isLt (by decide) h0).trans (by simpa [Vector.get_eq_getElem] using h)

theorem setK (k : KReg) (v : Scalar) (s : State) : OwnWrites s (setK k v s) :=
  ⟨rfl, rfl, rfl, rfl, rfl, rfl, rfl, rfl, rfl, id, id, id⟩

/-- A flag write that keeps E. -/
theorem setFlags {f : Flags} {s : State} (h : f.e = s.flags.e) : OwnWrites s (setFlags f s) :=
  ⟨rfl, rfl, rfl, rfl, rfl, rfl, rfl, rfl, rfl, id, id, fun e => h.trans e⟩

theorem setValid (b : Bool) (s : State) : OwnWrites s (setValid b s) :=
  ⟨rfl, rfl, rfl, rfl, rfl, rfl, rfl, rfl, rfl, id, id, id⟩

theorem setChecked (code : Byte) (s : State) : OwnWrites s (setChecked code s) :=
  ⟨rfl, rfl, rfl, rfl, rfl, rfl, rfl, rfl, rfl, id, id, fun _ => rfl⟩

/-- A write to DMEM that lies in it. -/
theorem memWrite {a : Nat} {bs : List Byte} {s : State} (h : a + bs.length ≤ 4096) : OwnWrites s (memWrite a bs s) :=
  ⟨rfl, rfl, rfl, rfl, rfl, rfl, rfl, rfl, rfl, id, fun w => memWrite_wf w (by simpa [Config.dmemSize] using h), id⟩

theorem entropyLooked (s : State) : OwnWrites s (entropyLooked s) :=
  ⟨rfl, rfl, rfl, rfl, rfl, rfl, rfl, rfl, rfl, id, id, id⟩

theorem curveLooked (s : State) : OwnWrites s (curveLooked s) :=
  ⟨rfl, rfl, rfl, rfl, rfl, rfl, rfl, rfl, rfl, id, id, id⟩

end OwnWrites

/-- The four ends of an instruction: the next pc, a fault, the end of the run, or waiting on a port. -/
inductive EndsAs (i : Instr) (s t : State) : Prop where
  | onward (u : State) (target : Int) (w : OwnWrites s u) (h : t = goto target u)
  | faulted (u : State) (cause : FaultCause) (info : Word) (w : OwnWrites s u) (hu : u = { s with env := u.env })
    (hn : cause ≠ .none) (ha : cause ≠ .aborted) (h : t = raise cause info u)
  | halted (rs : RReg) (hi : i = .halt rs) (h : t = endDone ((getReg rs s).extractLsb' 0 8) s)
  | waiting (u : State) (w : OwnWrites s u) (hu : u = { s with env := u.env }) (h : t = keepWaiting u)

theorem EndsAs.of_regions {i : Instr} {s t : State} {rs : List (Word × Nat)} {rest : State → Result}
    (h : withRegions rs rest s = .next t)
    (hrest : (∀ r ∈ rs, r.1.toNat + r.2 ≤ 4096) → rest s = .next t → EndsAs i s t) : EndsAs i s t := by
  rcases withRegions_cases rs rest s with ⟨hok, e⟩ | ⟨a, _, e⟩
  · exact hrest hok (e ▸ h)
  · rw [e] at h
    exact .faulted s .dmemBounds a (.refl s) rfl (by decide) (by decide) (Host.Outcome.next.inj h).symm

theorem EndsAs.of_legal {i j : Instr} {s t : State} {rest : State → Result} (h : ifLegal j rest s = .next t)
    (hrest : j.wellFormed = true → rest s = .next t → EndsAs i s t) : EndsAs i s t := by
  cases hj : j.wellFormed with
  | true => exact hrest hj (ifLegal_of_wellFormed hj rest s ▸ h)
  | false =>
    rw [ifLegal_of_illegal hj] at h
    exact .faulted s .illegalInstruction 0#32 (.refl s) rfl (by decide) (by decide) (Host.Outcome.next.inj h).symm

theorem EndsAs.seq {i : Instr} {s t u : State} (h : (Host.Outcome.next (seqNext u) : Result) = .next t)
    (w : OwnWrites s u) : EndsAs i s t :=
  .onward u (fallThrough u.pc) w (Host.Outcome.next.inj h).symm

theorem EndsAs.branch {i : Instr} {s t : State} {b : Bool} {off : BitVec 16}
    (h : Host.Outcome.next (branchIf b off s) = (.next t : Result)) : EndsAs i s t := by
  cases b with
  | true => exact .onward s _ (.refl s) (by simpa using (Host.Outcome.next.inj h).symm)
  | false => exact .onward s (fallThrough s.pc) (.refl s) (by simpa [seqNext] using (Host.Outcome.next.inj h).symm)

theorem EndsAs.packerError {i : Instr} {code : Byte} {s t : State}
    (h : (Host.Outcome.next (packerError code s) : Result) = .next t) : EndsAs i s t := by
  rw [Machine.packerError] at h
  exact .seq h ((OwnWrites.setChecked code s).trans (.setValid false _))

theorem EndsAs.packerDone {i : Instr} {a : Nat} {bs : List Byte} {s t : State}
    (h : (Host.Outcome.next (packerDone a bs s) : Result) = .next t) (hb : a + bs.length ≤ 4096) : EndsAs i s t := by
  rw [Machine.packerDone] at h
  exact .seq h (((OwnWrites.memWrite hb).trans (.setChecked 0#8 _)).trans (.setValid true _))

/-- Every instruction that answers a next state ends in one of the four ways. -/
theorem exec_ends {i : Instr} {s t : State} (h : exec i s = .next t) : EndsAs i s t := by
  cases i with
  | lui rd imm =>
    simp only [exec, execLui] at h
    exact .seq h (.setReg ..)
  | ori rd rs imm =>
    simp only [exec, execOri] at h
    exact .seq h (.setReg ..)
  | addi rd rs imm =>
    simp only [exec, execAddi] at h
    exact .seq h (.setReg ..)
  | add rd rs1 rs2 =>
    simp only [exec, execAdd] at h
    exact .seq h (.setReg ..)
  | sub rd rs1 rs2 =>
    simp only [exec, execSub] at h
    exact .seq h (.setReg ..)
  | lb rd rb off =>
    simp only [exec, execLb] at h
    exact .of_regions h fun _ h => .seq h (.setReg ..)
  | lw rd rb off =>
    simp only [exec, execLw] at h
    exact .of_regions h fun _ h => .seq h (.setReg ..)
  | sb rt rb off =>
    simp only [exec, execSb] at h
    exact .of_regions h fun hok h => .seq h (.memWrite (by simpa using hok))
  | sw rt rb off =>
    simp only [exec, execSw] at h
    exact .of_regions h fun hok h => .seq h (.memWrite (by simpa using hok))
  | mcpy rd rs rl =>
    simp only [exec, execMcpy] at h
    exact .of_regions h fun hok h => .seq h (.memWrite (by simpa [regNat] using hok _ (.tail _ (.head _))))
  | beq rs1 rs2 off =>
    simp only [exec, execBeq] at h
    exact .branch h
  | bne rs1 rs2 off =>
    simp only [exec, execBne] at h
    exact .branch h
  | bltu rs1 rs2 off =>
    simp only [exec, execBltu] at h
    exact .branch h
  | bgeu rs1 rs2 off =>
    simp only [exec, execBgeu] at h
    exact .branch h
  | bfs cond off =>
    simp only [exec, execBfs] at h
    exact .branch h
  | bfc cond off =>
    simp only [exec, execBfc] at h
    exact .branch h
  | halt rs =>
    simp only [exec, execHalt] at h
    exact .halted rs rfl (Host.Outcome.next.inj h).symm
  | seterr imm =>
    simp only [exec, execSeterr] at h
    exact .of_legal h fun _ h => .seq h (.setChecked ..)
  | csrr rd csr =>
    simp only [exec, execCsrr] at h
    exact .of_legal h fun _ h => .seq h (.setReg ..)
  | kld kd rb off =>
    simp only [exec, execKld] at h
    exact .of_regions h fun _ h => .seq h (.setK ..)
  | kst ks rb off =>
    simp only [exec, execKst] at h
    exact .of_regions h fun hok h => .seq h (.memWrite (by simpa using hok))
  | kmov kd ks =>
    simp only [exec, execKmov] at h
    exact .seq h (.setK ..)
  | kldc kd sel =>
    simp only [exec, execKldc] at h
    exact .of_legal h fun _ h => .seq h (.setK ..)
  | kadd kd ka kb =>
    simp only [exec, execKadd] at h
    exact .seq h ((OwnWrites.setK ..).trans (.setFlags rfl))
  | kaddm kd ka kb =>
    simp only [exec, execKaddm] at h
    exact .seq h ((OwnWrites.setK ..).trans (.setFlags rfl))
  | kcmp ka kb =>
    simp only [exec, execKcmp] at h
    exact .seq h (.setFlags rfl)
  | kchk ka =>
    simp only [exec, execKchk] at h
    exact .seq h (.setFlags rfl)
  | kred kd ka =>
    simp only [exec, execKred] at h
    exact .seq h ((OwnWrites.setK ..).trans (.setFlags rfl))
  | sha256 rd rs rl =>
    simp only [exec, execSha256] at h
    exact .of_regions h fun hok h => .seq h (.memWrite (by simpa [regNat] using hok _ (.tail _ (.head _))))
  | sha512 rd rs rl =>
    simp only [exec, execSha512] at h
    exact .of_regions h fun hok h => .seq h (.memWrite (by simpa [regNat] using hok _ (.tail _ (.head _))))
  | hmac512 rd rk rkl rm rml =>
    simp only [exec, execHmac512] at h
    exact .of_regions h fun hok h =>
      .seq h (.memWrite (by simpa [regNat] using hok _ (.tail _ (.tail _ (.head _)))))
  | pbkdf2 rd rp rpl rs rsl rc =>
    simp only [exec, execPbkdf2] at h
    split at h
    · exact .seq h (.setChecked ..)
    · exact .of_regions h fun hok h => .seq h ((OwnWrites.memWrite
        (by simpa [regNat] using hok _ (.tail _ (.tail _ (.head _))))).trans (.setChecked ..))
  | b39enc rd rs rl =>
    simp only [exec, execB39enc] at h
    split at h
    · rename_i hl
      refine .of_regions h fun hok h => .packerDone h ?_
      have := hok _ (.tail _ (.head _))
      rw [length_halfwords, length_packIndices, length_memRead]
      simp only [entropyLengths, List.mem_cons, List.not_mem_nil, or_false] at hl
      simp only [regNat] at *
      omega
    · exact .packerError h
  | b39dec rd rs rw =>
    simp only [exec, execB39dec] at h
    split at h
    · rename_i hw
      refine .of_regions h fun hok h => ?_
      have hd := hok _ (.tail _ (.head _))
      unfold unpackInto at h
      split at h
      · exact .packerError h
      · split at h
        · refine .packerDone h ?_
          rw [length_unpackEntropy, length_halfwordValues]
          simp only [wordCounts, List.mem_cons, List.not_mem_nil, or_false] at hw
          simp only [regNat] at *
          omega
        · exact .packerError h
    · exact .packerError h
  | entropy rd rl =>
    simp only [exec, execEntropy] at h
    refine .of_regions h fun hok h => ?_
    split at h
    · exact .seq h (.refl s)
    · generalize entropyAnswer (regNat rl s) s = answer at h
      cases answer with
      | waiting => exact .waiting _ (.entropyLooked s) rfl (Host.Outcome.next.inj h).symm
      | failed =>
        exact .faulted _ .backendFailure 0#32 (.entropyLooked s) rfl (by decide) (by decide)
          (Host.Outcome.next.inj h).symm
      | bytes bs =>
        simp only [entropyFill] at h
        split at h
        · rename_i hlen
          exact .seq h ((OwnWrites.entropyLooked s).trans (.memWrite (by
            have := hok _ (.head _)
            simp only [regNat] at *
            omega)))
        · exact absurd h (by simp)
  | pubk rd ks =>
    simp only [exec, execPubk] at h
    refine .of_regions h fun hok h => ?_
    split at h
    · generalize curveAnswer s = answer at h
      cases answer with
      | waiting => exact .waiting _ (.curveLooked s) rfl (Host.Outcome.next.inj h).symm
      | failed =>
        exact .faulted _ .backendFailure 1#32 (.curveLooked s) rfl (by decide) (by decide)
          (Host.Outcome.next.inj h).symm
      | point =>
        exact .seq h ((OwnWrites.curveLooked s).trans (.memWrite (by
          have := hok _ (.head _)
          simp only [regNat, Vector.length_toList] at *
          omega)))
    · exact .faulted s .scalarRange 0#32 (.refl s) rfl (by decide) (by decide) (Host.Outcome.next.inj h).symm

/-- An instruction stops only where the entropy source's answer has the wrong length. -/
theorem exec_stops (i : Instr) (s : State) : (∃ t, exec i s = .next t) ∨
    (exec i s = .refused .answerLength ∧ ∃ rd rl bs rest, i = .entropy rd rl ∧ s.env.entropyIn = .bytes bs :: rest ∧
      bs.length ≠ regNat rl s) := by
  have hr : ∀ (rs : List (Word × Nat)) (rest : State → Result), (∃ t, rest s = .next t) →
      ∃ t, withRegions rs rest s = .next t := fun rs rest h => by
    rcases withRegions_cases rs rest s with ⟨_, e⟩ | ⟨a, _, e⟩ <;> rw [e]
    · exact h
    · exact ⟨_, rfl⟩
  have hl : ∀ (j : Instr) (f : State → State), ∃ t, ifLegal j (fun s => .next (f s)) s = .next t := fun j f => by
    unfold ifLegal
    split <;> exact ⟨_, rfl⟩
  cases i with
  | lui | ori | addi | add | sub | beq | bne | bltu | bgeu | bfs | bfc | halt | kmov | kadd | kaddm | kcmp | kchk | kred =>
    exact .inl ⟨_, rfl⟩
  | lb =>
    simp only [exec, execLb]
    exact .inl (hr _ _ ⟨_, rfl⟩)
  | lw =>
    simp only [exec, execLw]
    exact .inl (hr _ _ ⟨_, rfl⟩)
  | sb =>
    simp only [exec, execSb]
    exact .inl (hr _ _ ⟨_, rfl⟩)
  | sw =>
    simp only [exec, execSw]
    exact .inl (hr _ _ ⟨_, rfl⟩)
  | mcpy =>
    simp only [exec, execMcpy]
    exact .inl (hr _ _ ⟨_, rfl⟩)
  | kld =>
    simp only [exec, execKld]
    exact .inl (hr _ _ ⟨_, rfl⟩)
  | kst =>
    simp only [exec, execKst]
    exact .inl (hr _ _ ⟨_, rfl⟩)
  | sha256 =>
    simp only [exec, execSha256]
    exact .inl (hr _ _ ⟨_, rfl⟩)
  | sha512 =>
    simp only [exec, execSha512]
    exact .inl (hr _ _ ⟨_, rfl⟩)
  | hmac512 =>
    simp only [exec, execHmac512]
    exact .inl (hr _ _ ⟨_, rfl⟩)
  | seterr =>
    simp only [exec, execSeterr]
    exact .inl (hl _ _)
  | csrr =>
    simp only [exec, execCsrr]
    exact .inl (hl _ _)
  | kldc =>
    simp only [exec, execKldc]
    exact .inl (hl _ _)
  | pbkdf2 rd rp rpl rs rsl rc =>
    simp only [exec, execPbkdf2]
    split
    · exact .inl ⟨_, rfl⟩
    · exact .inl (hr _ _ ⟨_, rfl⟩)
  | b39enc rd rs rl =>
    simp only [exec, execB39enc]
    split
    · exact .inl (hr _ _ ⟨_, rfl⟩)
    · exact .inl ⟨_, rfl⟩
  | b39dec rd rs rw =>
    simp only [exec, execB39dec]
    split
    · exact .inl (hr _ _ ⟨_, rfl⟩)
    · exact .inl ⟨_, rfl⟩
  | entropy rd rl =>
    rcases withRegions_cases [(getReg rd s, regNat rl s)] (fun s =>
      if regNat rl s = 0 then .next (seqNext s)
      else entropyFill (regNat rd s) (regNat rl s) (entropyAnswer (regNat rl s) s) (entropyLooked s)) s
      with ⟨_, e⟩ | ⟨a, _, e⟩ <;> simp only [exec, execEntropy, e]
    · split
      · exact .inl ⟨_, rfl⟩
      · cases ha : entropyAnswer (regNat rl s) s with
        | waiting => exact .inl ⟨_, rfl⟩
        | failed => exact .inl ⟨_, rfl⟩
        | bytes bs =>
          by_cases hb : bs.length = regNat rl s
          · exact .inl ⟨_, if_pos hb⟩
          · refine .inr ⟨if_neg hb, rd, rl, bs, ?_⟩
            cases hin : s.env.entropyIn with
            | nil => exact absurd (entropyAnswer_drawn_length hin ha) hb
            | cons a rest =>
              obtain rfl := (entropyAnswer_supplied hin _).symm.trans ha
              exact ⟨rest, rfl, rfl, hb⟩
    · exact .inl ⟨_, rfl⟩
  | pubk rd ks =>
    simp only [exec, execPubk]
    refine .inl (hr _ _ ?_)
    split <;> exact ⟨_, rfl⟩

end Sys2Proof.Machine
end

