-- ==== Sys2Proof/Laws/Frames.lean ====
section
/-! SUPPORT. The frames: what the writes of an instruction keep, what its going on keeps, and what fault entry keeps. -/

namespace Sys2Proof.Machine

theorem DataKept.refl (rs : List RReg) (ks : List KReg) (a n : Nat) (s : State) : DataKept rs ks a n s s :=
  ⟨fun _ _ => rfl, fun _ _ => rfl, fun _ _ => rfl⟩

theorem DataKept.trans {rs : List RReg} {ks : List KReg} {a n : Nat} {s t u : State} (h : DataKept rs ks a n s t)
    (k : DataKept rs ks a n t u) : DataKept rs ks a n s u :=
  ⟨fun r hr => (k.1 r hr).trans (h.1 r hr), fun i hi => (k.2.1 i hi).trans (h.2.1 i hi),
    fun x hx => (k.2.2 x hx).trans (h.2.2 x hx)⟩

/-- Updates of the other fields keep every register and every byte. -/
theorem DataKept.of_fields {s t : State} (hr : t.regs = s.regs) (hk : t.kregs = s.kregs) (hd : t.dmem = s.dmem)
    (rs : List RReg) (ks : List KReg) (a n : Nat) : DataKept rs ks a n s t :=
  ⟨fun r _ => by rw [getReg, getReg, hr], fun k _ => by rw [getK, getK, hk], fun x _ => by rw [dmemByte, dmemByte, hd]⟩

theorem DataKept.setReg (r : RReg) (v : Word) (s : State) : DataKept [r] [] 0 0 s (setReg r v s) :=
  ⟨fun r' h => getReg_setReg_other (fun e => h (by simp [e])) v s, fun k _ => getK_setReg s r v k,
    fun x _ => dmemByte_setReg s r v x⟩

theorem DataKept.setK (k : KReg) (v : Scalar) (s : State) : DataKept [] [k] 0 0 s (setK k v s) :=
  ⟨fun r _ => rfl, fun k' h => getK_setK_other (fun e => h (by simp [e])) v s, fun x _ => rfl⟩

theorem DataKept.memWrite (a : Nat) (bs : List Byte) (s : State) : DataKept [] [] a bs.length s (memWrite a bs s) :=
  ⟨fun _ _ => rfl, fun _ _ => rfl, fun _ h => dmemByte_memWrite_outside h⟩

theorem dmemByte_memWrite_inside {s : State} {a j : Nat} {bs : List Byte} (h : j < bs.length) :
    dmemByte (memWrite a bs s) (a + j) = bs.getD j 0#8 := by
  rw [dmemByte_memWrite]
  simp [h]

/-- An instruction whose writes keep what the frame names, and which goes on, is framed. -/
theorem Frame.seqNext {rs : List RReg} {ks : List KReg} {a n : Nat} {s u : State} (hpc : s.pc.toNat < 255)
    (w : OwnWrites s u) (hd : DataKept rs ks a n s u) (he : u.env = s.env) : Frame rs ks a n s (seqNext u) := by
  rw [seqNext_of_lt (w.pc ▸ hpc)]
  refine ⟨hd.trans (.of_fields rfl rfl rfl ..),
    ⟨w.ie, w.status, w.exitCode, w.faultRegs, w.entry, fun i => by rw [imemWord, imemWord]; exact congrArg (readCell · i) w.imem, he⟩, ?_, rfl⟩
  have h : u.pc.toNat < 255 := w.pc ▸ hpc
  rw [← w.pc]
  simp only [arrive, BitVec.toNat_add, BitVec.toNat_ofNat]
  omega

theorem FaultTaken.raise (cause : FaultCause) (info : Word) (s : State) :
    FaultTaken cause (fetchWord s) info s (raise cause info s) :=
  ⟨rfl, rfl, rfl, rfl, rfl, ⟨rfl, rfl⟩, .of_fields rfl rfl rfl .., fun _ => rfl, rfl, rfl⟩

theorem FaultTaken.abortEntry (s : State) : FaultTaken .aborted 0#32 0#32 s (abortEntry s) :=
  ⟨rfl, rfl, rfl, rfl, rfl, ⟨rfl, rfl⟩, .of_fields rfl rfl rfl .., fun _ => rfl, rfl, rfl⟩

/-- An instruction over regions reports the first that fails, whatever else it does. -/
theorem ReportsFirstBad.of_regions {i : Instr} {rs : List (Word × Nat)} {rest : State → Result} {s : State}
    (h : exec i s = withRegions rs rest s) : ReportsFirstBad i rs s := by
  intro ok a n post hrs hok hbad
  have hf : firstBad rs = some a := by
    subst hrs
    clear h
    induction ok with
    | nil =>
      have : ¬regionOk a n = true := fun e => hbad (regionOk_iff.1 e)
      simp [firstBad, this]
    | cons r ok ih =>
      have hr : regionOk r.1 r.2 = true := regionOk_iff.2 (hok r (.head _))
      simp only [List.cons_append, firstBad, hr, if_true]
      exact ih fun q hq => hok q (.tail _ hq)
  exact ⟨_, h.trans (withRegions_of_bad hf rest s), .raise .., rfl⟩

end Sys2Proof.Machine
end

