-- ==== Sys2Proof/Laws/RunAhead.lean ====
section
/-! SUPPORT. The data that host reads are answered with decide nothing (log entry 10): the machine makes the same moves
whatever they are, so what `runAhead` passes through is what the run itself passes through. -/

namespace Sys2Proof.Machine

/-- A result with its next state, if it has one, changed. -/
def onNext (f : State → State) : Result → Result
  | .next t => .next (f t)
  | r => r

/-- The same result but for the bus data of the next state. -/
def SameButBus : Result → Result → Prop
  | .next t, .next t' => ∃ v, t = setBusData v t'
  | .refused a, .refused b => a = b
  | _, _ => False

/-! ## What the meanings read and write, beside the bus data -/

@[simp] theorem onNext_next (f : State → State) (t : State) : onNext f (.next t) = .next (f t) := rfl

@[simp] theorem goto_setBusData (t : Int) (v : Word) (s : State) :
    goto t (setBusData v s) = setBusData v (goto t s) := by
  unfold goto
  split <;> rfl

@[simp] theorem seqNext_setBusData (v : Word) (s : State) : seqNext (setBusData v s) = setBusData v (seqNext s) := by
  rw [seqNext, seqNext, setBusData_pc, goto_setBusData]

@[simp] theorem branchIf_setBusData (b : Bool) (off : BitVec 16) (v : Word) (s : State) :
    branchIf b off (setBusData v s) = setBusData v (branchIf b off s) := by
  cases b <;>
    simp only [branchIf, Bool.false_eq_true, if_false, if_true, setBusData_pc, goto_setBusData, seqNext_setBusData]

@[simp] theorem setReg_setBusData (r : RReg) (x v : Word) (s : State) :
    setReg r x (setBusData v s) = setBusData v (setReg r x s) := by
  unfold setReg
  split <;> rfl

@[simp] theorem setK_setBusData (k : KReg) (x : Scalar) (v : Word) (s : State) :
    setK k x (setBusData v s) = setBusData v (setK k x s) := rfl
@[simp] theorem setFlags_setBusData (f : Flags) (v : Word) (s : State) :
    setFlags f (setBusData v s) = setBusData v (setFlags f s) := rfl
@[simp] theorem setValid_setBusData (b : Bool) (v : Word) (s : State) :
    setValid b (setBusData v s) = setBusData v (setValid b s) := rfl
@[simp] theorem setChecked_setBusData (c : Byte) (v : Word) (s : State) :
    setChecked c (setBusData v s) = setBusData v (setChecked c s) := rfl
@[simp] theorem memWrite_setBusData (a : Nat) (bs : List Byte) (v : Word) (s : State) :
    memWrite a bs (setBusData v s) = setBusData v (memWrite a bs s) := rfl
@[simp] theorem raise_setBusData (c : FaultCause) (i v : Word) (s : State) :
    raise c i (setBusData v s) = setBusData v (raise c i s) := rfl
@[simp] theorem endDone_setBusData (c : Byte) (v : Word) (s : State) :
    endDone c (setBusData v s) = setBusData v (endDone c s) := rfl
@[simp] theorem keepWaiting_setBusData (v : Word) (s : State) :
    keepWaiting (setBusData v s) = setBusData v (keepWaiting s) := rfl
@[simp] theorem entropyLooked_setBusData (v : Word) (s : State) :
    entropyLooked (setBusData v s) = setBusData v (entropyLooked s) := rfl
@[simp] theorem curveLooked_setBusData (v : Word) (s : State) :
    curveLooked (setBusData v s) = setBusData v (curveLooked s) := rfl

@[simp] theorem csrValue_setBusData (c : Nat) (v : Word) (s : State) : csrValue c (setBusData v s) = csrValue c s := rfl
@[simp] theorem entropyAnswer_setBusData (n : Nat) (v : Word) (s : State) :
    entropyAnswer n (setBusData v s) = entropyAnswer n s := rfl
@[simp] theorem curveAnswer_setBusData (v : Word) (s : State) : curveAnswer (setBusData v s) = curveAnswer s := rfl

@[simp] theorem unpackInto_setBusData (a : Nat) (idx : List Nat) (v : Word) (s : State) :
    unpackInto a idx (setBusData v s) = setBusData v (unpackInto a idx s) := by
  unfold unpackInto packerDone packerError
  split_ifs <;> simp only [memWrite_setBusData, setChecked_setBusData, setValid_setBusData, seqNext_setBusData]

theorem branchOn_setBusData {p : Prop} (i j : Decidable p) (off : BitVec 16) (v : Word) (s : State) :
    branchIf (@decide p i) off (setBusData v s) = setBusData v (branchIf (@decide p j) off s) := by
  rw [Subsingleton.elim i j, branchIf_setBusData]

theorem ite_setBusData {p : Prop} {i j : Decidable p} {a b a' b' : Result} {v : Word}
    (ha : p → a = onNext (setBusData v) a') (hb : ¬p → b = onNext (setBusData v) b') :
    @ite _ p i a b = onNext (setBusData v) (@ite _ p j a' b') := by
  by_cases h : p
  · rw [@if_pos p i h, @if_pos p j h, ha h]
  · rw [@if_neg p i h, @if_neg p j h, hb h]

theorem withRegions_setBusData {rs : List (Word × Nat)} {rest : State → Result} {v : Word} {s : State}
    (h : rest (setBusData v s) = onNext (setBusData v) (rest s)) :
    withRegions rs rest (setBusData v s) = onNext (setBusData v) (withRegions rs rest s) := by
  unfold withRegions
  split
  · rfl
  · exact h

theorem ifLegal_setBusData {i : Instr} {rest : State → Result} {v : Word} {s : State}
    (h : rest (setBusData v s) = onNext (setBusData v) (rest s)) :
    ifLegal i rest (setBusData v s) = onNext (setBusData v) (ifLegal i rest s) := by
  unfold ifLegal
  split
  · exact h
  · rfl

/-- What an instruction does is the same for every bus data. -/
theorem exec_setBusData (i : Instr) (v : Word) (s : State) :
    exec i (setBusData v s) = onNext (setBusData v) (exec i s) := by
  cases i with
  | lui => simp [exec, execLui]
  | ori => simp [exec, execOri]
  | addi => simp [exec, execAddi]
  | add => simp [exec, execAdd]
  | sub => simp [exec, execSub]
  | beq =>
    simp only [exec, execBeq, regNat_setBusData]
    exact congrArg Host.Outcome.next (branchOn_setBusData ..)
  | bne =>
    simp only [exec, execBne, regNat_setBusData]
    exact congrArg Host.Outcome.next (branchOn_setBusData ..)
  | bltu =>
    simp only [exec, execBltu, regNat_setBusData]
    exact congrArg Host.Outcome.next (branchOn_setBusData ..)
  | bgeu =>
    simp only [exec, execBgeu, regNat_setBusData]
    exact congrArg Host.Outcome.next (branchOn_setBusData ..)
  | bfs => simp [exec, execBfs]
  | bfc => simp [exec, execBfc]
  | halt => simp [exec, execHalt]
  | kmov => simp [exec, execKmov]
  | kadd => simp [exec, execKadd]
  | kaddm => simp [exec, execKaddm]
  | kcmp => simp [exec, execKcmp]
  | kchk => simp [exec, execKchk]
  | kred => simp [exec, execKred]
  | lb =>
    simp only [exec, execLb]
    exact withRegions_setBusData (by simp)
  | lw =>
    simp only [exec, execLw]
    exact withRegions_setBusData (by simp)
  | sb =>
    simp only [exec, execSb]
    exact withRegions_setBusData (by simp)
  | sw =>
    simp only [exec, execSw]
    exact withRegions_setBusData (by simp)
  | mcpy =>
    simp only [exec, execMcpy]
    exact withRegions_setBusData (by simp)
  | kld =>
    simp only [exec, execKld]
    exact withRegions_setBusData (by simp)
  | kst =>
    simp only [exec, execKst]
    exact withRegions_setBusData (by simp)
  | sha256 =>
    simp only [exec, execSha256]
    exact withRegions_setBusData (by simp)
  | sha512 =>
    simp only [exec, execSha512]
    exact withRegions_setBusData (by simp)
  | hmac512 =>
    simp only [exec, execHmac512]
    exact withRegions_setBusData (by simp)
  | seterr =>
    simp only [exec, execSeterr]
    exact ifLegal_setBusData (by simp)
  | csrr =>
    simp only [exec, execCsrr]
    exact ifLegal_setBusData (by simp)
  | kldc =>
    simp only [exec, execKldc]
    exact ifLegal_setBusData (by simp)
  | pbkdf2 rd rp rpl rs rsl rc =>
    simp only [exec, execPbkdf2, regNat_setBusData]
    exact ite_setBusData (fun _ => by simp) fun _ => withRegions_setBusData (by simp)
  | b39enc rd rs rl =>
    simp only [exec, execB39enc, regNat_setBusData]
    exact ite_setBusData (fun _ => withRegions_setBusData (by simp [packerDone])) fun _ => by simp [packerError]
  | b39dec rd rs rw =>
    simp only [exec, execB39dec, regNat_setBusData]
    refine ite_setBusData (fun _ => withRegions_setBusData ?_) fun _ => by simp [packerError]
    simp
  | entropy rd rl =>
    simp only [exec, execEntropy]
    refine withRegions_setBusData ?_
    simp only [regNat_setBusData, entropyAnswer_setBusData, entropyLooked_setBusData]
    refine ite_setBusData (fun _ => by simp) fun _ => ?_
    cases entropyAnswer (regNat rl s) s with
    | waiting => rfl
    | failed => rfl
    | bytes bs =>
      simp only [entropyFill]
      split
      · simp
      · rfl
  | pubk rd ks =>
    simp only [exec, execPubk]
    refine withRegions_setBusData ?_
    simp only [regNat_setBusData, scalarNat_setBusData, getK_setBusData, curveAnswer_setBusData, curveLooked_setBusData]
    refine ite_setBusData (fun _ => ?_) fun _ => by simp
    cases curveAnswer s with
    | waiting => rfl
    | failed => rfl
    | point => simp [curveFill]

theorem engineTurn_setBusData (v : Word) (s : State) :
    engineTurn (setBusData v s) = onNext (setBusData v) (engineTurn s) := by
  show (if s.status.busy then if abortDue s then _ else runInstruction (setBusData v s) else _) =
    onNext _ (if s.status.busy then if abortDue s then _ else runInstruction s else _)
  split
  · split
    · rfl
    · unfold runInstruction
      rw [show fetchWord (setBusData v s) = fetchWord s from rfl]
      cases decode (fetchWord s) with
      | ok i => exact exec_setBusData i v s
      | error e => rfl
  · rfl

theorem SameButBus.of_onNext (v : Word) (r : Result) : SameButBus (onNext (setBusData v) r) r := by
  cases r with
  | next t => exact ⟨v, rfl⟩
  | fault a => cases a
  | refused a => exact rfl

/-! ## Moves -/

theorem onBit_setBusData (x : Word) (i : Nat) {command : State → State} (v : Word)
    (h : ∀ s, command (setBusData v s) = setBusData v (command s)) (s : State) :
    onBit x i command (setBusData v s) = setBusData v (onBit x i command s) := by
  unfold onBit
  split
  · exact h s
  · rfl

theorem startRun_setBusData (v : Word) (s : State) : startRun (setBusData v s) = setBusData v (startRun s) := by
  unfold startRun
  rw [setBusData_status]
  split <;> rfl

theorem zeroize_setBusData (v : Word) (s : State) : zeroize (setBusData v s) = setBusData v (zeroize s) := by
  unfold zeroize
  rw [setBusData_status]
  split <;> rfl

theorem requestAbort_setBusData (v : Word) (s : State) : requestAbort (setBusData v s) = setBusData v (requestAbort s) := by
  unfold requestAbort
  rw [setBusData_status]
  split <;> rfl

theorem setEntry_setBusData (x : Word) (v : Word) (s : State) : setEntry x (setBusData v s) = setBusData v (setEntry x s) := by
  unfold setEntry
  rw [setBusData_status]
  split <;> rfl

theorem passBoundary_setBusData (v : Word) (s : State) : passBoundary (setBusData v s) = setBusData v (passBoundary s) := by
  unfold passBoundary
  rw [setBusData_status, show abortDue (setBusData v s) = abortDue s from rfl]
  split
  · split <;> rfl
  · rfl

theorem writeCtrl_setBusData (x v : Word) (s : State) :
    writeCtrl x (setBusData v s) = setBusData v (writeCtrl x s) := by
  unfold writeCtrl
  rw [show setIe (x.getLsbD 3) (setBusData v s) = setBusData v (setIe (x.getLsbD 3) s) from rfl,
    onBit_setBusData (command := clearIrq) x 4 v fun _ => rfl,
    onBit_setBusData (command := clearHostErr) x 5 v fun _ => rfl,
    onBit_setBusData x 1 v (requestAbort_setBusData v), onBit_setBusData x 2 v (zeroize_setBusData v),
    onBit_setBusData x 0 v (startRun_setBusData v)]

theorem hostWrite_setBusData (off : Nat) (x v : Word) (s : State) :
    hostWrite off x (setBusData v s) = setBusData v (hostWrite off x s) := by
  unfold hostWrite
  cases windowPart off with
  | csr c =>
    dsimp only
    split
    · exact writeCtrl_setBusData x v s
    · split
      · exact setEntry_setBusData x v s
      · rfl
  | imem i =>
    dsimp only
    rw [setBusData_status]
    split <;> rfl
  | dmem a =>
    dsimp only
    rw [setBusData_status]
    split <;> rfl
  | reserved => rfl

/-- What a read of `PC` shows does not change the state after it. -/
theorem hostAnswer_state (f g : State → Byte) (off : Nat) (v : Word) (s : State) :
    (hostAnswer f off (setBusData v s)).2 = setBusData v (hostAnswer g off s).2 := by
  unfold hostAnswer
  cases windowPart off with
  | csr c =>
    dsimp only
    rw [setBusData_status]
    split <;> rfl
  | imem i =>
    dsimp only
    rw [setBusData_status]
    split <;> rfl
  | dmem a =>
    dsimp only
    rw [setBusData_status]
    split <;> rfl
  | reserved => rfl

theorem hostAccess_sameButBus (f g : State → Byte) (a : BusAccess) (v : Word) (s : State) :
    SameButBus (hostAccess f a (setBusData v s)) (hostAccess g a s) := by
  unfold hostAccess
  cases windowOffset Config.hspBase a.addr with
  | none => exact ⟨v, rfl⟩
  | some off =>
    dsimp only
    unfold windowAccess
    split
    · cases a.value with
      | none =>
        refine ⟨(hostAnswer f off (setBusData v s)).1, ?_⟩
        rw [hostAnswer_state f g]
        rfl
      | some x => exact ⟨v, hostWrite_setBusData off x v s⟩
    · exact rfl

/-- The next move is the same, but for the bus data, whatever reads of `PC` show. -/
theorem nextMove_sameButBus (f g : State → Byte) (v : Word) (s : State) :
    SameButBus (nextMove f (setBusData v s)) (nextMove g s) := by
  unfold nextMove
  rw [show (setBusData v s).env.inbox = s.env.inbox from rfl]
  cases s.env.inbox with
  | nil =>
    dsimp only
    rw [engineTurn_setBusData]
    exact .of_onNext v _
  | cons m rest =>
    dsimp only
    rw [show setInbox rest (setBusData v s) = setBusData v (setInbox rest s) from rfl]
    cases m with
    | host a => exact hostAccess_sameButBus f g a v _
    | reset => exact ⟨v, rfl⟩
    | boundary => exact ⟨v, passBoundary_setBusData v _⟩
    | engine =>
      unfold takeMove
      rw [engineTurn_setBusData]
      exact .of_onNext v _

/-! ## The run ahead -/

theorem runAhead_setBusData (n : Nat) (v : Word) (s : State) : (runAhead n (setBusData v s)).pc = (runAhead n s).pc := by
  induction n generalizing v s with
  | zero => rfl
  | succ n ih =>
    have h := nextMove_sameButBus (fun _ => 0#8) (fun _ => 0#8) v s
    rw [runAhead, runAhead]
    revert h
    cases nextMove (fun _ => 0#8) (setBusData v s) <;> cases nextMove (fun _ => 0#8) s <;> intro h
    case next.next t t' =>
      obtain ⟨w, rfl⟩ := h
      dsimp only
      rw [setBusData_status]
      split
      · exact ih w t'
      · rfl
    all_goals first | exact h.elim | rfl

/-- The run ahead goes through the steps of the machine, up to the end of the run. -/
theorem runAhead_succ (n : Nat) {s t : State} (h : step s = .next t) :
    (runAhead (n + 1) s).pc = if t.status.busy then (runAhead n t).pc else s.pc := by
  have hs := nextMove_sameButBus drawnPc (fun _ => 0#8) s.env.busData s
  rw [show setBusData s.env.busData s = s from rfl, show nextMove drawnPc s = step s from rfl, h] at hs
  rw [runAhead]
  revert hs
  cases nextMove (fun _ => 0#8) s <;> intro hs
  case next t' =>
    obtain ⟨w, rfl⟩ := hs
    dsimp only
    rw [setBusData_status, runAhead_setBusData]
    split <;> rfl
  all_goals exact hs.elim

theorem runAhead_stopped (n : Nat) {s : State} (h : ∀ t, step s ≠ .next t) : (runAhead n s).pc = s.pc := by
  cases n with
  | zero => rfl
  | succ n =>
    have hs := nextMove_sameButBus drawnPc (fun _ => 0#8) s.env.busData s
    rw [show setBusData s.env.busData s = s from rfl, show nextMove drawnPc s = step s from rfl] at hs
    rw [runAhead]
    revert hs
    cases nextMove (fun _ => 0#8) s <;> intro hs
    case next t' =>
      revert hs
      cases hst : step s with
      | next t => exact absurd hst (h t)
      | fault a => exact False.elim
      | refused a => exact False.elim
    all_goals rfl

end Sys2Proof.Machine
end

