-- ==== Sys2Proof/Laws/Runs.lean ====
section
/-! SUPPORT. What runs can do, said once: paths of steps join, an idle machine goes nowhere, and the pcs ahead of a run are
those that `runAhead` passes. -/

namespace Sys2Proof.Machine

theorem Reaches.trans {s t u : State} (h : Reaches s t) (k : Reaches t u) : Reaches s u := by
  induction h with
  | here => exact k
  | later h _ ih => exact .later h (ih k)

/-- What is reached from a state with a next one is that state, or is reached from the next. -/
theorem Reaches.cases_next {s t u : State} (h : Reaches s t) (hs : step s = .next u) : t = s ∨ Reaches u t := by
  cases h with
  | here => exact .inl rfl
  | later h k =>
    obtain rfl := Host.Outcome.next.inj (h.symm.trans hs)
    exact .inr k

/-- A state that is its own next state reaches no other. -/
theorem Reaches.of_fixed {s t : State} (h : Reaches s t) (hs : step s = .next s) : t = s := by
  induction h with
  | here => rfl
  | later h k ih =>
    obtain rfl := Host.Outcome.next.inj (h.symm.trans hs)
    exact ih hs

theorem Completes.reaches {n : Nat} {s t : State} (h : Completes n s t) : Reaches s t := by
  induction h with
  | here => exact .here _
  | waits h _ _ ih => exact .later h ih
  | ends h _ _ ih => exact .later h ih

theorem Completes.trans {m n : Nat} {s t u : State} (h : Completes m s t) (k : Completes n t u) : Completes (m + n) s u := by
  induction h with
  | here => simpa using k
  | waits h w _ ih => exact .waits h w (ih k)
  | ends h w _ ih =>
    rw [Nat.add_right_comm]
    exact .ends h w (ih k)

/-- The pcs ahead of a run are those that `runAhead` passes. -/
theorem ahead_iff {s : State} {p : Byte} : Ahead s p ↔ ∃ n, (runAhead n s).pc = p := by
  constructor
  · intro h
    induction h with
    | here s => exact ⟨0, rfl⟩
    | later h b _ ih =>
      obtain ⟨n, ih⟩ := ih
      exact ⟨n + 1, by rw [runAhead_succ n h, if_pos b, ih]⟩
  · rintro ⟨n, rfl⟩
    induction n generalizing s with
    | zero => exact .here s
    | succ n ih =>
      by_cases h : ∃ t, step s = .next t
      · obtain ⟨t, h⟩ := h
        rw [runAhead_succ n h]
        split
        · rename_i b
          exact .later h b ih
        · exact .here s
      · rw [runAhead_stopped _ fun t e => h ⟨t, e⟩]
        exact .here s

/-- The premise of R581 holds of the instruction at pc. -/
theorem Fair.now {s : State} (h : Fair s) (e : s.env.inbox = []) : RequestAnswered s := h s (.here s) e

/-- Where an ENTROPY at pc makes no request, nothing is asked of the entropy source. -/
theorem not_requestsEntropy {s : State} {rd rl : RReg} (h : decode (fetchWord s) = .ok (.entropy rd rl))
    (q : regNat rl s = 0 ∨ ¬Fits (getReg rd s) (regNat rl s)) (n : Nat) : ¬RequestsEntropy n s := by
  rintro ⟨_, rd', rl', h', rfl, h0, hf⟩
  rw [h] at h'
  injection h' with h'
  injection h' with e1 e2
  subst e1 e2
  exact q.elim h0 (· hf)

/-- Where a PUBK at pc makes no request, nothing is asked of the curve port. -/
theorem not_requestsCurve {s : State} {rd : RReg} {ks : KReg} (h : decode (fetchWord s) = .ok (.pubk rd ks))
    (q : ¬Fits (getReg rd s) 33 ∨ scalarNat ks s = 0 ∨ Config.curveOrder ≤ scalarNat ks s) : ¬RequestsCurve s := by
  rintro ⟨_, rd', ks', h', hf, h0, hn⟩
  rw [h] at h'
  injection h' with h'
  injection h' with e1 e2
  subst e1 e2
  rcases q with q | q | q
  · exact q hf
  · omega
  · omega

/-- The premise of R581 goes on. -/
theorem Fair.later {s t : State} (h : Fair s) (k : Reaches s t) : Fair t := fun u hu => h u (k.trans hu)

end Sys2Proof.Machine
end

