-- ==== Sys2Proof/Tests/Slice0.lean ====
section
/-! SUPPORT. The model's own tests: legal and illegal terms, the words of every instruction written out from 30_encoding.md,
one-step vectors of 95_test_vectors.md section 2, and a state that meets the hypotheses of each statement. -/

open Sys2Proof Sys2Proof.Machine

namespace Sys2Proof.Tests

/-! ## Legal and illegal terms (R141 items 6 to 8) -/

theorem test_wellFormed_refuses_seterr_upper_byte : (Instr.seterr 0x0104#16).wellFormed = false := by decide
theorem test_wellFormed_refuses_csrr_14 : (Instr.csrr 0 14#16).wellFormed = false := by decide
theorem test_wellFormed_refuses_kldc_2 : (Instr.kldc 7 2#16).wellFormed = false := by decide
theorem test_wellFormed_boundaries :
    (Instr.seterr 255#16).wellFormed && (Instr.csrr 0 13#16).wellFormed && (Instr.kldc 7 1#16).wellFormed := by decide

/-! ## Decoding: each word written out as its fields, op A B and imm16, or op A B C D E F (R132, R133, R140) -/

theorem test_decode_integer :
    decode 0b000001_0100_0000_00_0100001001101001#32 = .ok (.lui 4 0x4269#16) ∧
    decode 0b000010_0001_0010_00_0000000011110000#32 = .ok (.ori 1 2 0x00F0#16) ∧
    decode 0b000011_0001_0010_00_1000000000000000#32 = .ok (.addi 1 2 0x8000#16) ∧
    decode 0b000100_0001_0010_0011_0000_0000_0000_00#32 = .ok (.add 1 2 3) ∧
    decode 0b000101_1111_0001_1000_0000_0000_0000_00#32 = .ok (.sub 15 1 8) := by decide

theorem test_decode_memory :
    decode 0b001000_0010_0011_00_1111111111111100#32 = .ok (.lb 2 3 0xFFFC#16) ∧
    decode 0b001001_0001_0010_00_1111111111111111#32 = .ok (.lw 1 2 0xFFFF#16) ∧
    decode 0b001010_0001_0000_00_0000000000100000#32 = .ok (.sb 1 0 0x20#16) ∧
    decode 0b001011_0100_1111_00_0000010000100001#32 = .ok (.sw 4 15 0x421#16) ∧
    decode 0b001100_0001_0010_0011_0000_0000_0000_00#32 = .ok (.mcpy 1 2 3) := by decide

theorem test_decode_control :
    decode 0b010000_0001_0010_00_0000000000000011#32 = .ok (.beq 1 2 3#16) ∧
    decode 0b010001_0001_0000_00_1111111111111011#32 = .ok (.bne 1 0 0xFFFB#16) ∧
    decode 0b010010_0001_0010_00_0000000000000100#32 = .ok (.bltu 1 2 4#16) ∧
    decode 0b010011_1001_0110_00_0000000000000100#32 = .ok (.bgeu 9 6 4#16) ∧
    decode 0b010100_0010_0000_00_0000000000000101#32 = .ok (.bfs .lt 5#16) ∧
    decode 0b010101_0100_0000_00_1111111111111111#32 = .ok (.bfc .e 0xFFFF#16) := by decide

theorem test_decode_system :
    decode 0b011000_1100_0000_0000_0000_0000_0000_00#32 = .ok (.halt 12) ∧
    decode 0b011001_0000_0000_00_0000000011111111#32 = .ok (.seterr 0xFF#16) ∧
    decode 0b011010_1100_0000_00_0000000000001101#32 = .ok (.csrr 12 13#16) := by decide

theorem test_decode_scalar :
    decode 0b100000_0111_1000_00_0000000000100000#32 = .ok (.kld 7 8 0x20#16) ∧
    decode 0b100001_0001_0011_00_0000000000000000#32 = .ok (.kst 1 3 0#16) ∧
    decode 0b100010_0011_0101_0000_0000_0000_0000_00#32 = .ok (.kmov 3 5) ∧
    decode 0b100011_0111_0000_00_0000000000000001#32 = .ok (.kldc 7 1#16) ∧
    decode 0b100100_0010_0000_0001_0000_0000_0000_00#32 = .ok (.kadd 2 0 1) ∧
    decode 0b100101_0100_0101_0110_0000_0000_0000_00#32 = .ok (.kaddm 4 5 6) ∧
    decode 0b100110_0000_0001_0000_0000_0000_0000_00#32 = .ok (.kcmp 0 1) ∧
    decode 0b100111_0110_0000_0000_0000_0000_0000_00#32 = .ok (.kchk 6) ∧
    decode 0b101000_0001_0111_0000_0000_0000_0000_00#32 = .ok (.kred 1 7) := by decide

theorem test_decode_hash :
    decode 0b110000_1000_0101_0110_0000_0000_0000_00#32 = .ok (.sha256 8 5 6) ∧
    decode 0b110001_1000_0101_0110_0000_0000_0000_00#32 = .ok (.sha512 8 5 6) ∧
    decode 0b110010_1000_0101_0110_0111_0001_0000_00#32 = .ok (.hmac512 8 5 6 7 1) ∧
    decode 0b110011_1000_0001_0010_0011_0100_0101_00#32 = .ok (.pbkdf2 8 1 2 3 4 5) := by decide

theorem test_decode_packer_and_ports :
    decode 0b111000_1001_1010_1011_0000_0000_0000_00#32 = .ok (.b39enc 9 10 11) ∧
    decode 0b111001_1001_1010_1011_0000_0000_0000_00#32 = .ok (.b39dec 9 10 11) ∧
    decode 0b111100_0001_0010_0000_0000_0000_0000_00#32 = .ok (.entropy 1 2) ∧
    decode 0b111101_1001_0011_0000_0000_0000_0000_00#32 = .ok (.pubk 9 3) := by decide

/-- The words that R141 makes illegal: an opcode, a condition, a scalar number, and a bit that must be zero. -/
theorem test_decode_refuses_by_name :
    decode 0x00000000#32 = .error .unassignedOpcode ∧ decode 0xFFFFFFFF#32 = .error .unassignedOpcode ∧
    decode 0x51400000#32 = .error .conditionNumber ∧ decode 0x82000000#32 = .error .scalarField ∧
    decode 0x10000001#32 = .error .nonzeroUnusedBits ∧ decode 0x04010000#32 = .error .nonzeroUnusedBits ∧
    decode 0x64000104#32 = .error .errorCode ∧ decode 0x6800000E#32 = .error .csrNumber ∧
    decode 0x8C000002#32 = .error .constantSelector := by decide

theorem test_decodeTableWord : decodeTableWord 32 0x10000000 = some (.add 0 0 0) ∧ decodeTableWord 32 0 = none := by decide

/-! ## One step on a small machine -/

/-- A machine whose registers and whose DMEM from `a` hold the given values. -/
def machine (rs : List (RReg × Word)) (a : Nat) (bs : List Byte) : State :=
  memWrite a bs (rs.foldl (fun s r => setReg r.1 r.2 s) State.reset)

/-- A machine whose scalar registers hold the given values. -/
def scalars (ks : List (KReg × Scalar)) : State := ks.foldl (fun s k => setK k.1 k.2 s) State.reset

/-- The same machine at instruction index `p`. -/
def at_ (p : Byte) (s : State) : State := { s with pc := p }

/-- What `f` reads of the state after one step that runs the word `w`. -/
def after {α : Type} (w : Nat) (s : State) (f : State → α) : Option α :=
  match step (s.withFetchWord 32 w) with
  | .next t => some (f t)
  | _ => none

/-- The fault a state records: STATUS.FAULT, the cause code, FAULT_PC and FAULT_INFO. -/
def recorded (s : State) : Bool × Byte × Byte × Word :=
  (s.status.fault, causeCode s.faultRegs.cause, s.faultRegs.pc, s.faultRegs.info)

def m1 : Nat := 2 ^ 256 - 1
def n : Nat := 0xfffffffffffffffffffffffffffffffebaaedce6af48a03bbfd25e8cd0364141

/-! ### Integer instructions (95_test_vectors.md 2.1) -/

theorem test_lui : after 0x0500FFFF (State.reset) (getReg 4) =
    some (0xFFFF0000#32) := by decide
theorem test_ori_zero_extends : after 0x08488070 (machine [(2, 0x12340F0F#32)] 0 []) (getReg 1) =
    some (0x12348F7F#32) := by decide
theorem test_addi_wraps : after 0x0C487FFF (machine [(2, 0xFFFF8001#32)] 0 []) (getReg 1) =
    some (0#32) := by decide
theorem test_addi_sign_extends : after 0x0C488000 (machine [(2, 0#32)] 0 []) (getReg 1) =
    some (0xFFFF8000#32) := by decide
theorem test_add_wraps : after 0x1048C000 (machine [(2, 0xFFFFFFFF#32), (3, 2#32)] 0 []) (getReg 1) =
    some (1#32) := by decide
theorem test_add_discards_r0 : after 0x1008C000 (machine [(2, 5#32), (3, 6#32)] 0 []) (fun t => (getReg 0 t, t.pc)) =
    some (0#32, 1#8) := by decide
theorem test_sub_wraps : after 0x1448C000 (machine [(2, 0#32), (3, 1#32)] 0 []) (getReg 1) =
    some (0xFFFFFFFF#32) := by decide

/-! ### DMEM (95_test_vectors.md 2.2) -/

def low : List Byte := [0x11#8, 0x22#8, 0x33#8, 0x44#8]
def high : List Byte := [0xA1#8, 0xB2#8, 0xC3#8, 0xD4#8]
theorem test_lb_last_byte : after 0x20480000 (machine [(2, 0xFFF#32)] 0xFFC high) (getReg 1) =
    some (0xD4#32) := by decide
theorem test_lb_out_of_bounds : after 0x20480001 (machine [(2, 0xFFF#32)] 0xFFC high) recorded =
    some (true, 2#8, 0#8, 0x1000#32) := by decide
theorem test_lw_unaligned : after 0x2448FFFF (machine [(2, 10#32)] 8 low) (getReg 1) =
    some (0x22334400#32) := by decide
theorem test_lw_negative_address : after 0x2440FFFF (State.reset) recorded =
    some (true, 2#8, 0#8, 0xFFFFFFFF#32) := by decide
theorem test_sb_low_byte : after 0x28400020 (machine [(1, 0xABCDEF99#32)] 0 []) (memRead 0x1F 3) =
    some ([0#8, 0x99#8, 0#8]) := by decide
theorem test_sw_unaligned : after 0x2C480003 (machine [(1, 0x8000002C#32), (2, 0x20#32)] 0 []) (memRead 0x20 8) =
    some ([0#8, 0#8, 0#8, 0x80#8, 0#8, 0#8, 0x2C#8, 0#8]) := by decide
theorem test_sw_out_of_bounds : after 0x2C480000 (machine [(1, 1#32), (2, 0xFFD#32)] 0 []) (fun t => (recorded t, t.dmem)) =
    some ((true, 2#8, 0#8, 0xFFD#32), []) := by decide
def counting : List Byte := [1#8, 2#8, 3#8, 4#8, 5#8, 6#8, 7#8, 8#8]
theorem test_mcpy_overlap : after 0x3048C000 (machine [(1, 2#32), (2, 0#32), (3, 6#32)] 0 counting) (memRead 0 8) =
    some ([1#8, 2#8, 1#8, 2#8, 3#8, 4#8, 5#8, 6#8]) := by decide
theorem test_mcpy_checks_source_first : after 0x3048C000 (machine [(1, 0xFF1#32), (2, 0xFF8#32), (3, 16#32)] 0 []) recorded =
    some (true, 2#8, 0#8, 0xFF8#32) := by decide

/-! ### Control transfer and system instructions (95_test_vectors.md 2.3, 2.4) -/

theorem test_beq_taken : after 0x40480003 (at_ 10#8 (machine [(1, 7#32), (2, 7#32)] 0 [])) State.pc =
    some (13#8) := by decide
theorem test_beq_below_imem : after 0x4000FFFF (State.reset) recorded =
    some (true, 3#8, 0#8, 0xFFFFFFFF#32) := by decide
theorem test_bne_backward : after 0x4440FFFB (at_ 20#8 (machine [(1, 1#32)] 0 [])) State.pc =
    some (15#8) := by decide
theorem test_bne_falls_off_the_end : after 0x44000001 (at_ 255#8 (State.reset)) recorded =
    some (true, 3#8, 255#8, 0x100#32) := by decide
theorem test_bltu_is_unsigned : after 0x48400004 (machine [(1, 0xFFFFFFFF#32)] 0 []) State.pc =
    some (1#8) := by decide
theorem test_bltu_taken : after 0x48480004 (machine [(1, 15#32), (2, 16#32)] 0 []) State.pc =
    some (4#8) := by decide
theorem test_bgeu_equal : after 0x4C480004 (machine [(1, 65#32), (2, 65#32)] 0 []) State.pc =
    some (4#8) := by decide
theorem test_bgeu_below : after 0x4C480004 (machine [(1, 64#32), (2, 65#32)] 0 []) State.pc =
    some (1#8) := by decide
def withFlags (f : Flags) : State := at_ 1#8 (setFlags f State.reset)
theorem test_bfs_v : after 0x50C00005 (withFlags ⟨false, false, false, true, false⟩) State.pc =
    some (6#8) := by decide
theorem test_bfc_e : after 0x5500FFFF (withFlags ⟨false, false, false, false, true⟩) State.pc =
    some (2#8) := by decide
theorem test_addi_at_255_keeps_its_write : after 0x0C400009 (at_ 255#8 (State.reset)) (fun t => (getReg 1 t, recorded t)) =
    some (9#32, true, 3#8, 255#8, 0x100#32) := by decide
theorem test_halt : after 0x63000000 (machine [(12, 0x104#32)] 0 []) (fun t => (t.exitCode, statusWord t.status, t.pc)) =
    some (4#8, 10#32, 0#8) := by decide
theorem test_seterr : after 0x64000002 (State.reset) (fun t => (t.err, t.flags.e)) =
    some (2#8, true) := by decide
theorem test_seterr_illegal_word : after 0x64000104 (State.reset) recorded =
    some (true, 1#8, 0#8, 0#32) := by decide
theorem test_csrr_status : after 0x68400002 (State.reset) (getReg 1) =
    some (1#32) := by decide
theorem test_csrr_pc : after 0x6840000B (at_ 5#8 (State.reset)) (getReg 1) =
    some (5#32) := by decide

/-! ### Scalars (95_test_vectors.md 2.7) -/

theorem test_kadd_carry : after 0x90804000 (scalars [(0, BitVec.ofNat 256 (m1)), (1, BitVec.ofNat 256 (2))]) (fun t => (scalarNat 2 t, t.flags.z, t.flags.c)) =
    some (1, false, true) := by decide
theorem test_kadd_wraps_to_zero : after 0x90804000 (scalars [(0, BitVec.ofNat 256 (m1)), (1, BitVec.ofNat 256 (1))]) (fun t => (scalarNat 2 t, t.flags.z, t.flags.c)) =
    some (0, true, true) := by decide
theorem test_kaddm_subtracts_twice : after 0x94804000 (scalars [(0, BitVec.ofNat 256 (m1)), (1, BitVec.ofNat 256 (m1))]) (fun t => (scalarNat 2 t, t.flags.z, t.flags.c)) =
    some (0x28aa24632a16ebf88805b42e65f937d7c, false, true) := by decide +kernel
theorem test_kaddm_below_n : after 0x94804000 (scalars [(0, BitVec.ofNat 256 (n - 2)), (1, BitVec.ofNat 256 (1))]) (fun t => (scalarNat 2 t, t.flags.z, t.flags.c)) =
    some (n - 1, false, false) := by decide
theorem test_kred_n : after 0xA0400000 (scalars [(0, BitVec.ofNat 256 (n))]) (fun t => (scalarNat 1 t, t.flags.z, t.flags.c)) =
    some (0, true, true) := by decide
theorem test_kred_all_ones : after 0xA0400000 (scalars [(0, BitVec.ofNat 256 (m1))]) (fun t => (scalarNat 1 t, t.flags.z, t.flags.c)) =
    some (0x14551231950b75fc4402da1732fc9bebe, false, true) := by decide +kernel
theorem test_kcmp_less : after 0x98040000 (scalars [(0, BitVec.ofNat 256 (1)), (1, BitVec.ofNat 256 (2))]) State.flags =
    some (⟨false, false, true, false, false⟩) := by decide
theorem test_kchk_n : after 0x9C000000 (scalars [(0, BitVec.ofNat 256 (n))]) State.flags =
    some (⟨false, false, false, false, false⟩) := by decide
theorem test_kchk_n_less_1 : after 0x9C000000 (scalars [(0, BitVec.ofNat 256 (n - 1))]) State.flags =
    some (⟨false, false, true, true, false⟩) := by decide
theorem test_kldc_order : after 0x8DC00001 (State.reset) (scalarNat 7) =
    some (n) := by decide
theorem test_kmov : after 0x88D40000 (scalars [(5, BitVec.ofNat 256 (9))]) (scalarNat 3) =
    some (9) := by decide
theorem test_kld_big_endian : after 0x80000000 (machine [] 0 (beBytes 32 0x000102030405060708090A0B0C0D0E0F101112131415161718191A1B1C1D1E1F)) (scalarNat 0) =
    some (0x000102030405060708090A0B0C0D0E0F101112131415161718191A1B1C1D1E1F) := by decide +kernel
theorem test_kst_last_region : after 0x84440000 (setK 1 1#256 (machine [(1, 0xFE0#32)] 0 [])) (memRead 0xFE0 32) =
    some (List.replicate 31 0#8 ++ [1#8]) := by decide
theorem test_kld_illegal_scalar : after 0x82000000 (State.reset) recorded =
    some (true, 1#8, 0#8, 0#32) := by decide

/-! ### Hash instructions (95_test_vectors.md 2.5) -/

theorem test_sha256_in_place : after 0xC048C000 (machine [(3, 3#32)] 0 [0x61#8, 0x62#8, 0x63#8]) (fun t => intBE (memRead 0 32 t)) =
    some (0xba7816bf8f01cfea414140de5dae2223b00361a396177a9cb410ff61f20015ad) := by decide +kernel
theorem test_sha512_abc : after 0xC448C000 (machine [(1, 0x800#32), (3, 3#32)] 0 [0x61#8, 0x62#8, 0x63#8]) (fun t => intBE (memRead 0x800 64 t)) =
    some (0xddaf35a193617abacc417349ae20413112e6fa4e89a97ea20a9eeee64b55d39a2192992a274fc1a836ba3c23a3feebbd454d4423643ce80e2a9ac94fa54ca49f) := by decide +kernel
theorem test_hmac512_rfc_case_1 : after 0xC848D140 (memWrite 0x40 [0x48#8, 0x69#8, 0x20#8, 0x54#8, 0x68#8, 0x65#8, 0x72#8, 0x65#8]
    (machine [(1, 0x800#32), (3, 20#32), (4, 0x40#32), (5, 8#32)] 0 (List.replicate 20 0x0B#8))) (fun t => intBE (memRead 0x800 64 t)) =
    some (0x87aa7cdea5ef619d4ff0b4241a1d6cb02379f4e2ce4ec2787ad0b30545e17cdedaa833b7d6b8a702038b274eaea3f4e4be9d914eeb61f1702e696c203a126854) := by decide +kernel
theorem test_pbkdf2_two_iterations : after 0xCC48D158 (machine [(1, 0x800#32), (3, 8#32), (4, 8#32), (5, 4#32), (6, 2#32)] 0
    [0x70#8, 0x61#8, 0x73#8, 0x73#8, 0x77#8, 0x6F#8, 0x72#8, 0x64#8, 0x73#8, 0x61#8, 0x6C#8, 0x74#8]) (fun t => intBE (memRead 0x800 64 t)) =
    some (0xe1d9c16aa681708a45f5c7c4e215ceb66e011a2e9f0040713f18aefdb866d53cf76cab2868a39b9f7840edce4fef5a82be67335c77a6068e04112754f27ccf4e) := by decide +kernel
theorem test_pbkdf2_count_zero : after 0xCC48D158 (machine [(2, 0xFFFF#32), (3, 4#32)] 0 []) (fun t => (t.err, t.flags.e, t.status.fault)) =
    some (8#8, true, false) := by decide

/-! ### The BIP39 bit-packer (95_test_vectors.md 2.6) -/

theorem test_b39enc_in_place : after 0xE048C000 (machine [(3, 16#32)] 0 (beBytes 16 0x000102030405060708090A0B0C0D0E0F)) (fun t => (intBE (memRead 0 24 t), t.flags.v)) =
    some (0x00000040040600400283001C0101010A00580303021C00FB, true) := by decide +kernel
theorem test_b39enc_bad_length : after 0xE048C000 (setValid true (machine [(3, 17#32)] 0 [])) (fun t => (t.err, t.flags.e, t.flags.v)) =
    some (8#8, true, false) := by decide
theorem test_b39dec_all_ones : after 0xE448C000 (machine [(1, 0x800#32), (3, 12#32)] 0 (halfwords (List.replicate 11 2047 ++ [2037]))) (fun t => (memRead 0x800 16 t, t.err, t.flags.v)) =
    some (List.replicate 16 0xFF#8, 0#8, true) := by decide +kernel
theorem test_b39dec_wrong_checksum : after 0xE448C000 (machine [(1, 0x800#32), (3, 12#32)] 0 (halfwords (List.replicate 11 2047 ++ [2036]))) (fun t => (memRead 0x800 1 t, t.err, t.flags.v)) =
    some ([0#8], 7#8, false) := by decide +kernel

/-! ### Ports (95_test_vectors.md 2.8) -/

/-- A machine whose entropy source gives these answers. -/
def entropic (as : List EntropyAnswer) (s : State) : State := { s with env := { s.env with entropyIn := as } }

/-- A machine whose curve port gives these answers. -/
def curved (as : List CurveAnswer) (s : State) : State := { s with env := { s.env with curveIn := as } }

theorem test_entropy_fills : after 0xF0480000 (entropic [.bytes [0#8, 1#8, 2#8, 3#8, 4#8]] (machine [(1, 0x100#32), (2, 5#32)] 0 [])) (memRead 0x100 5) =
    some ([0#8, 1#8, 2#8, 3#8, 4#8]) := by decide
theorem test_entropy_fails : after 0xF0480000 (entropic [.failed] (machine [(1, 0x40#32), (2, 16#32)] 0 [])) recorded =
    some (true, 4#8, 0#8, 0#32) := by decide
theorem test_pubk_fails : after 0xF4400000 (curved [.failed] (setK 0 1#256 (machine [(1, 0x100#32)] 0 []))) recorded =
    some (true, 4#8, 0#8, 1#32) := by decide
theorem test_pubk_scalar_range : after 0xF4400000 (setK 0 (BitVec.ofNat 256 n) (machine [(1, 0x100#32)] 0 [])) recorded =
    some (true, 5#8, 0#8, 0#32) := by decide

/-! ### Host commands and reset (70_reset_and_hazards.md) -/

theorem test_start_and_zeroize_in_one_write :
    (hostWrite 4 0xD#32 (machine [(1, 1#32)] 0 counting)).dmem = [] ∧
    (hostWrite 4 0xD#32 (machine [(1, 1#32)] 0 counting)).status.busy = true := by decide

theorem test_host_word_is_big_endian : (hostRead 0x1000 (machine [] 0 counting)).1 = 0x01020304#32 := by decide

/-! ## The hypotheses of each statement are met -/

/-- The next state of a result; the reset state where there is none. -/
def nextOf (r : Result) : State :=
  match r with
  | .next t => t
  | _ => State.reset

/-- The result is a next state. -/
def isNext (r : Result) : Bool :=
  match r with
  | .next _ => true
  | _ => false

theorem next_of {r : Result} (h : isNext r = true) : r = .next (nextOf r) := by
  cases r with
  | next t => rfl
  | _ => simp [isNext] at h

/-- The machine running, at instruction index `p`. -/
def running (p : Byte) : State := placeWord 0x10000000#32 (at_ p State.reset)

/-- The engine's schedule. -/
def scheduled (ms : List Move) (s : State) : State := setInbox ms s

theorem inv_reset : Inv State.reset :=
  ⟨by decide, by decide, by decide, by decide, by decide, by decide, by decide, by decide, by decide, by decide,
    by decide, by decide⟩

theorem inv_running : Inv (running 254#8) :=
  ⟨by decide, by decide, by decide, by decide, by decide, by decide, by decide, by decide, by decide, by decide,
    by decide, by decide⟩

theorem witness_DecodingAnEncodingGivesTheInstruction :
    (Instr.seterr 255#16).wellFormed = true ∧ (Instr.csrr 15 13#16).wellFormed = true ∧
    (Instr.kldc 7 1#16).wellFormed = true ∧ (Instr.pbkdf2 15 15 15 15 15 15).wellFormed = true := by decide

theorem witness_EveryWordIsOneInstructionOrFaults :
    RunsNow (placeWord 0#32 State.reset) ∧ fetchWord (placeWord 0#32 State.reset) = 0#32 ∧
    (Instr.seterr 255#16).wellFormed = true ∧ encode (.seterr 255#16) = 0x640000FF#32 := by
  unfold RunsNow
  decide

/-- At a boundary, and in progress with an abort pending; with no move and with the engine's own. -/
theorem witness_StepRunsTheDecodedInstruction :
    (RunsNow (running 254#8) ∧ decode (fetchWord (running 254#8)) = .ok (.add 0 0 0) ∧ (running 254#8).env.inbox = []) ∧
    (RunsNow (requestAbort (keepWaiting (running 254#8))) ∧
      (requestAbort (keepWaiting (running 254#8))).status.abortReq = true) ∧
    (scheduled [.engine] (running 254#8)).env.inbox = .engine :: [] := by
  unfold RunsNow
  decide

theorem witness_IdleMachineKeepsItsState :
    State.reset.status.busy = false ∧ State.reset.env.inbox = [] ∧
    (scheduled [.engine] State.reset).env.inbox = .engine :: [] ∧
    (scheduled [.boundary] State.reset).env.inbox = .boundary :: [] := by decide

theorem witness_RegisterZeroIsHardwired :
    Instr.lui 0 1#16 ∈ [Instr.lui 0 1#16, .ori 0 1 1#16, .addi 0 1 1#16, .add 0 1 2, .sub 0 1 2, .lb 0 1 1#16, .lw 0 1 1#16] ∧
    (13#16).toNat ≤ 13 := by decide

theorem witness_OnlyListedInstructionsWriteRegisters :
    (exec (.lui 4 1#16) State.reset = .next (nextOf (exec (.lui 4 1#16) State.reset)) ∧
      getReg 4 (nextOf (exec (.lui 4 1#16) State.reset)) ≠ getReg 4 State.reset) ∧
    (exec (.kldc 3 1#16) State.reset = .next (nextOf (exec (.kldc 3 1#16) State.reset)) ∧
      getK 3 (nextOf (exec (.kldc 3 1#16) State.reset)) ≠ getK 3 State.reset) :=
  ⟨⟨next_of (by decide), by decide⟩, next_of (by decide), by decide⟩

/-- Z, LT and V by KCHK, C by KADD, E and ERR by SETERR. -/
theorem witness_OnlyListedInstructionsWriteFlagsAndErr :
    (exec (.kchk 0) (scalars [(0, 1#256)]) = .next (nextOf (exec (.kchk 0) (scalars [(0, 1#256)]))) ∧
      (nextOf (exec (.kchk 0) (scalars [(0, 1#256)]))).flags.lt ≠ (scalars [(0, 1#256)]).flags.lt ∧
      (nextOf (exec (.kchk 0) (scalars [(0, 1#256)]))).flags.v ≠ (scalars [(0, 1#256)]).flags.v) ∧
    (exec (.kadd 2 0 1) (scalars [(0, BitVec.ofNat 256 m1), (1, 1#256)]) =
        .next (nextOf (exec (.kadd 2 0 1) (scalars [(0, BitVec.ofNat 256 m1), (1, 1#256)]))) ∧
      (nextOf (exec (.kadd 2 0 1) (scalars [(0, BitVec.ofNat 256 m1), (1, 1#256)]))).flags.z ≠ State.reset.flags.z ∧
      (nextOf (exec (.kadd 2 0 1) (scalars [(0, BitVec.ofNat 256 m1), (1, 1#256)]))).flags.c ≠ State.reset.flags.c) ∧
    (exec (.seterr 255#16) State.reset = .next (nextOf (exec (.seterr 255#16) State.reset)) ∧
      (nextOf (exec (.seterr 255#16) State.reset)).flags.e ≠ State.reset.flags.e ∧
      (nextOf (exec (.seterr 255#16) State.reset)).err ≠ State.reset.err) :=
  ⟨⟨next_of (by decide), by decide, by decide⟩, ⟨next_of (by decide), by decide, by decide⟩, next_of (by decide),
    by decide, by decide⟩

theorem witness_NoInstructionWritesTheHostsState :
    exec (.halt 0) State.reset = .next (nextOf (exec (.halt 0) State.reset)) := next_of (by decide)

/-- The last index below 255: the hypothesis on pc of every completion statement. -/
theorem witness_IntegerInstructionsWriteTheirResult : (at_ 254#8 State.reset).pc.toNat < 255 := by decide

/-- The last byte, and the last word. -/
theorem witness_LoadsReadBigEndian :
    (at_ 254#8 (machine [(2, 4096#32)] 0 [])).pc.toNat < 255 ∧
    Fits (effAddr (getReg 2 (at_ 254#8 (machine [(2, 4096#32)] 0 []))) 0xFFFF#16) 1 ∧
    Fits (effAddr (getReg 2 (at_ 254#8 (machine [(2, 4096#32)] 0 []))) 0xFFFC#16) 4 := by
  unfold Fits
  decide

theorem witness_StoresWriteBigEndian :
    (at_ 254#8 (machine [(1, 0x1234#32), (2, 4095#32)] 0 [])).pc.toNat < 255 ∧
    Fits (effAddr (getReg 2 (at_ 254#8 (machine [(1, 0x1234#32), (2, 4095#32)] 0 []))) 0#16) 1 ∧
    Fits (effAddr (getReg 2 (at_ 254#8 (machine [(1, 0x1234#32), (2, 4095#32)] 0 []))) 0xFFFD#16) 4 := by
  unfold Fits
  decide

/-- An overlapping copy, and one that ends at the last byte. -/
theorem witness_McpyCopiesTheOldSource :
    (at_ 254#8 (machine [(1, 2#32), (3, 6#32)] 0 counting)).pc.toNat < 255 ∧
    Fits (getReg 2 (machine [(1, 2#32), (3, 6#32)] 0 counting)) (regNat 3 (machine [(1, 2#32), (3, 6#32)] 0 counting)) ∧
    Fits (getReg 1 (machine [(1, 2#32), (3, 6#32)] 0 counting)) (regNat 3 (machine [(1, 2#32), (3, 6#32)] 0 counting)) ∧
    Fits (getReg 1 (machine [(1, 4090#32), (3, 6#32)] 0 [])) (regNat 3 (machine [(1, 4090#32), (3, 6#32)] 0 [])) := by
  unfold Fits
  decide

/-- A byte stored at 7, in the word from 4 and in the scalar from 0. -/
theorem witness_LaterLoadsSeeTheStoredByte :
    let s := at_ 253#8 (machine [(1, 0x99#32)] 0 [])
    s.pc.toNat < 254 ∧ Fits (effAddr (getReg 0 s) 7#16) 1 ∧
    exec (.sb 1 0 7#16) s = .next (nextOf (exec (.sb 1 0 7#16) s)) ∧
    7 = (effAddr (getReg 0 s) 7#16).toNat ∧ 4 = (effAddr (getReg 0 (nextOf (exec (.sb 1 0 7#16) s))) 4#16).toNat ∧
    4 ≤ 7 ∧ 7 < 4 + 4 ∧ 4 + 4 ≤ 4096 ∧ 7 < 4 + 32 ∧ 4 + 32 ≤ 4096 ∧ (5 : RReg) ≠ 0 :=
  ⟨by decide, by unfold Fits; decide, next_of (by decide), by decide, by decide, by decide, by decide, by decide,
    by decide, by decide, by decide⟩

/-- The first address past each bound. -/
theorem witness_OutOfBoundsAccessFaultsPrecisely :
    ¬Fits (effAddr (getReg 2 (machine [(2, 4096#32)] 0 [])) 0#16) 1 ∧
    ¬Fits (effAddr (getReg 2 (machine [(2, 4093#32)] 0 [])) 0#16) 4 ∧
    ¬Fits (effAddr (getReg 2 (machine [(2, 4065#32)] 0 [])) 0#16) 32 := by
  unfold Fits
  decide

/-- No region before the bad one, one, and two. -/
theorem witness_FirstFailingRegionIsReported :
    ([(4097#32, 0), (0#32, 32)] = [] ++ (4097#32, 0) :: [((0#32 : Word), 32)] ∧ ¬Fits 4097#32 0) ∧
    ([((0#32 : Word), 1), (4065#32, 32)] = [(0#32, 1)] ++ (4065#32, 32) :: [] ∧
      (∀ r ∈ [((0#32 : Word), 1)], Fits r.1 r.2) ∧ ¬Fits 4065#32 32) ∧
    ([((0#32 : Word), 1), (4096#32, 0), (4033#32, 64)] = [(0#32, 1), (4096#32, 0)] ++ (4033#32, 64) :: [] ∧
      (∀ r ∈ [((0#32 : Word), 1), (4096#32, 0)], Fits r.1 r.2) ∧ ¬Fits 4033#32 64) ∧
    regNat 6 (machine [(6, 1#32)] 0 []) ≠ 0 ∧ regNat 3 (machine [(3, 16#32)] 0 []) ∈ [16, 20, 24, 28, 32] ∧
    regNat 3 (machine [(3, 12#32)] 0 []) ∈ [12, 15, 18, 21, 24] := by
  unfold Fits
  decide

/-- Targets 0 and 255, taken; -1, taken; 256, not taken from the last index. -/
theorem witness_BranchesGoWhereTheyPoint :
    ((0 : Int) = (at_ 5#8 State.reset).pc.toNat + (0xFFFB#16).toInt ∧ (0 : Int) ≤ 0 ∧ (0 : Int) ≤ 255) ∧
    ((255 : Int) = (at_ 250#8 State.reset).pc.toNat + (5#16).toInt ∧ (0 : Int) ≤ 255 ∧ (255 : Int) ≤ 255) ∧
    ((-1 : Int) = State.reset.pc.toNat + (0xFFFF#16).toInt ∧ (-1 : Int) < 0) ∧
    ((256 : Int) = (at_ 255#8 State.reset).pc.toNat + 1 ∧ (255 : Int) < 256) ∧
    regNat 1 State.reset = regNat 2 State.reset ∧ regNat 1 (machine [(1, 1#32)] 0 []) ≠ regNat 2 (machine [(1, 1#32)] 0 []) := by
  decide

theorem witness_LastIndexKeepsTheWritesThenFaults :
    (at_ 255#8 State.reset).pc = 255#8 ∧ (254#8 : Byte).toNat < 255 ∧
    (∀ rd, Instr.addi 1 0 9#16 ≠ .csrr rd 11#16) ∧
    exec (.addi 1 0 9#16) { at_ 255#8 State.reset with pc := 254#8 } =
      .next (nextOf (exec (.addi 1 0 9#16) (at_ 254#8 State.reset))) ∧
    (nextOf (exec (.addi 1 0 9#16) (at_ 254#8 State.reset))).pc.toNat = (254#8 : Byte).toNat + 1 :=
  ⟨by decide, by decide, by simp, next_of (by decide), by decide⟩

theorem witness_SeterrRecordsTheCode : (at_ 254#8 State.reset).pc.toNat < 255 ∧ (255#16).toNat < 256 := by decide

theorem witness_CsrrReadsEachRegister :
    Inv (running 254#8) ∧ (running 254#8).status.busy = true ∧ (running 254#8).pc.toNat < 255 :=
  ⟨inv_running, by decide, by decide⟩

theorem witness_ScalarLoadsAndStoresAreBigEndian :
    (at_ 254#8 (machine [(1, 4064#32)] 0 [])).pc.toNat < 255 ∧
    Fits (effAddr (getReg 1 (at_ 254#8 (machine [(1, 4064#32)] 0 []))) 0#16) 32 := by
  unfold Fits
  decide

/-- The hypothesis on pc of the four statements over scalar registers alone. -/
theorem witness_ScalarMovesWriteTheirValue : (at_ 254#8 (scalars [(0, 1#256)])).pc.toNat < 255 := by decide
theorem witness_KaddAddsWithCarry : (at_ 254#8 (scalars [(0, BitVec.ofNat 256 m1), (1, 1#256)])).pc.toNat < 255 := by
  decide
theorem witness_ReductionsGiveTheResidue : (at_ 254#8 (scalars [(0, BitVec.ofNat 256 n)])).pc.toNat < 255 := by decide
theorem witness_ScalarComparesWriteTheirFlags : (at_ 254#8 (scalars [(0, BitVec.ofNat 256 n)])).pc.toNat < 255 := by
  decide

/-- The least number of zeros for the empty message. -/
theorem witness_PaddingFillsWholeBlocksWithTheLeastZeros :
    (([] : List Byte).length + 1 + 55 + 8) % 64 = 0 ∧ (([] : List Byte).length + 1 + 111 + 16) % 128 = 0 := by decide

/-- The first and the last word of each clause on the schedule. -/
theorem witness_DigestsFollowScheduleAndRounds :
    0 < 16 ∧ 15 < 16 ∧ (16 ≤ 16 ∧ 16 < 64) ∧ (16 ≤ 63 ∧ 63 < 64) ∧ (16 ≤ 79 ∧ 79 < 80) := by decide

theorem witness_HmacNestsTwoHashes :
    (List.replicate 128 0#8 : List Byte).length ≤ 128 ∧ 128 < (List.replicate 129 0#8 : List Byte).length := by simp

theorem chain_of_two (f : List Byte → List Byte) (a : List Byte) : ∃ u : Nat → List Byte, u 1 = a ∧
    ∀ j, 1 ≤ j → j < 2 → u (j + 1) = f (u j) :=
  ⟨fun j => if j = 1 then a else f a, rfl, fun j h1 h2 => by
    obtain rfl : j = 1 := by omega
    rfl⟩

/-- A chain of two. -/
theorem witness_PbkdfIsTheXorOfTheChain : 1 ≤ 2 ∧ ∃ u : Nat → List Byte,
    u 1 = hmac512 [1#8] ([2#8] ++ [0#8, 0#8, 0#8, 1#8]) ∧ ∀ j, 1 ≤ j → j < 2 → u (j + 1) = hmac512 [1#8] (u j) :=
  ⟨by decide, chain_of_two (hmac512 [1#8]) _⟩

theorem witness_HashInstructionsWriteTheDigest :
    (at_ 254#8 (machine [(1, 4064#32), (2, 4096#32), (4, 4032#32)] 0 [])).pc.toNat < 255 ∧
    Fits (getReg 2 (machine [(1, 4064#32), (2, 4096#32), (4, 4032#32)] 0 [])) (regNat 3 (machine [(1, 4064#32), (2, 4096#32), (4, 4032#32)] 0 [])) ∧
    Fits (getReg 1 (machine [(1, 4064#32), (2, 4096#32), (4, 4032#32)] 0 [])) 32 ∧
    Fits (getReg 4 (machine [(1, 4064#32), (2, 4096#32), (4, 4032#32)] 0 [])) 64 ∧
    Fits (getReg 5 (machine [(1, 4064#32), (2, 4096#32), (4, 4032#32)] 0 [])) (regNat 6 (machine [(1, 4064#32), (2, 4096#32), (4, 4032#32)] 0 [])) := by
  unfold Fits
  decide

/-- A count of 0, and a count of 1 with its three regions. -/
theorem witness_PbkdfInstructionCompletes :
    (at_ 254#8 (machine [(1, 4032#32), (6, 1#32)] 0 [])).pc.toNat < 255 ∧ regNat 5 (machine [(1, 4032#32), (6, 1#32)] 0 []) = 0 ∧
    regNat 6 (machine [(1, 4032#32), (6, 1#32)] 0 []) ≠ 0 ∧
    Fits (getReg 2 (machine [(1, 4032#32), (6, 1#32)] 0 [])) (regNat 3 (machine [(1, 4032#32), (6, 1#32)] 0 [])) ∧
    Fits (getReg 1 (machine [(1, 4032#32), (6, 1#32)] 0 [])) 64 := by
  unfold Fits
  decide

/-- A length that is not legal, and the least and the greatest with regions that end at the last byte. -/
theorem witness_B39encPacksEntropyIntoIndices :
    (at_ 254#8 (machine [(1, 4072#32), (2, 4080#32), (3, 16#32)] 0 [])).pc.toNat < 255 ∧
    regNat 3 (machine [(3, 17#32)] 0 []) ∉ [16, 20, 24, 28, 32] ∧
    (regNat 3 (machine [(1, 4072#32), (2, 4080#32), (3, 16#32)] 0 []) ∈ [16, 20, 24, 28, 32] ∧
      Fits (getReg 2 (machine [(1, 4072#32), (2, 4080#32), (3, 16#32)] 0 [])) 16 ∧
      Fits (getReg 1 (machine [(1, 4072#32), (2, 4080#32), (3, 16#32)] 0 [])) (2 * (3 * 16 / 4))) ∧
    (regNat 3 (machine [(1, 4048#32), (2, 4064#32), (3, 32#32)] 0 []) ∈ [16, 20, 24, 28, 32] ∧
      Fits (getReg 2 (machine [(1, 4048#32), (2, 4064#32), (3, 32#32)] 0 [])) 32 ∧
      Fits (getReg 1 (machine [(1, 4048#32), (2, 4064#32), (3, 32#32)] 0 [])) (2 * (3 * 32 / 4))) := by
  unfold Fits
  decide

/-- Twelve index halfwords in DMEM from 0, the destination at 0x800. -/
def words12 (idx : List Nat) : State := machine [(1, 0x800#32), (3, 12#32)] 0 (halfwords idx)

/-- The halfwords `idx` are what B39DEC reads of `words12 idx`. -/
def reads12 (idx : List Nat) : Prop :=
  (words12 idx).pc.toNat < 255 ∧ regNat 3 (words12 idx) ∈ [12, 15, 18, 21, 24] ∧
    Fits (getReg 2 (words12 idx)) (2 * regNat 3 (words12 idx)) ∧
    Fits (getReg 1 (words12 idx)) (4 * regNat 3 (words12 idx) / 3) ∧ 12 = regNat 3 (words12 idx) ∧ idx.length = 12 ∧
    ∀ i, i < 12 → idx.getD i 0 = (dmemByte (words12 idx) (regNat 2 (words12 idx) + 2 * i)).toNat * 256 +
      (dmemByte (words12 idx) (regNat 2 (words12 idx) + 2 * i + 1)).toNat

/-- A bad count; an index of 2048; a wrong checksum; the right one. -/
theorem witness_B39decChecksThenUnpacks :
    regNat 3 (machine [(3, 13#32)] 0 []) ∉ [12, 15, 18, 21, 24] ∧
    (reads12 (List.replicate 11 0 ++ [2048]) ∧ ∃ x ∈ (List.replicate 11 0 ++ [2048] : List Nat), 2047 < x) ∧
    (reads12 (List.replicate 11 2047 ++ [2036]) ∧ (∀ x ∈ (List.replicate 11 2047 ++ [2036] : List Nat), x ≤ 2047) ∧
      (List.replicate 11 2047 ++ [2036] : List Nat).foldl (fun acc x => acc * 2048 + x) 0 % 2 ^ (12 / 3) ≠
        ((sha256 (beBytes 16 ((List.replicate 11 2047 ++ [2036] : List Nat).foldl (fun acc x => acc * 2048 + x) 0 /
          2 ^ (12 / 3)))).getD 0 0#8).toNat / 2 ^ (8 - 12 / 3)) ∧
    (reads12 (List.replicate 11 2047 ++ [2037]) ∧ (∀ x ∈ (List.replicate 11 2047 ++ [2037] : List Nat), x ≤ 2047) ∧
      (List.replicate 11 2047 ++ [2037] : List Nat).foldl (fun acc x => acc * 2048 + x) 0 % 2 ^ (12 / 3) =
        ((sha256 (beBytes 16 ((List.replicate 11 2047 ++ [2037] : List Nat).foldl (fun acc x => acc * 2048 + x) 0 /
          2 ^ (12 / 3)))).getD 0 0#8).toNat / 2 ^ (8 - 12 / 3)) := by
  unfold reads12 Fits
  decide +kernel

theorem witness_PackingAndUnpackingAreInverse :
    (List.replicate 16 0#8 : List Byte).length ∈ [16, 20, 24, 28, 32] ∧
    (List.replicate 11 0 ++ [3] : List Nat).length ∈ [12, 15, 18, 21, 24] ∧
    (∀ x ∈ (List.replicate 11 0 ++ [3] : List Nat), x < 2048) ∧ checksumOk (List.replicate 11 0 ++ [3]) = true := by
  decide +kernel

/-- Entropy at 0, indices at 0x100, decoded over the entropy. -/
theorem witness_B39decUndoesB39enc :
    let s := at_ 253#8 (machine [(1, 0x100#32), (3, 16#32), (4, 12#32)] 0 [])
    s.pc.toNat < 254 ∧ regNat 3 s ∈ [16, 20, 24, 28, 32] ∧ Fits (getReg 2 s) (regNat 3 s) ∧
    Fits (getReg 1 s) (2 * (3 * regNat 3 s / 4)) ∧
    exec (.b39enc 1 2 3) s = .next (nextOf (exec (.b39enc 1 2 3) s)) ∧
    getReg 1 s = getReg 1 s ∧ regNat 4 s = 3 * regNat 3 s / 4 ∧ Fits (getReg 2 s) (regNat 3 s) :=
  ⟨by decide, by decide, by unfold Fits; decide, by unfold Fits; decide, next_of (by decide +kernel), rfl, by decide,
    by unfold Fits; decide⟩

/-- No byte at the end of DMEM; and one byte, answered, refused, and awaited. -/
theorem witness_EntropyFillsItsRegion :
    (at_ 254#8 (machine [(1, 4096#32)] 0 [])).pc.toNat < 255 ∧
    (Fits (getReg 1 (machine [(1, 4096#32)] 0 [])) (regNat 2 (machine [(1, 4096#32)] 0 [])) ∧
      regNat 2 (machine [(1, 4096#32)] 0 []) = 0) ∧
    (Fits (getReg 1 (machine [(1, 4095#32), (2, 1#32)] 0 [])) (regNat 2 (machine [(1, 4095#32), (2, 1#32)] 0 [])) ∧
      regNat 2 (machine [(1, 4095#32), (2, 1#32)] 0 []) ≠ 0 ∧
      ([7#8] : List Byte).length = regNat 2 (machine [(1, 4095#32), (2, 1#32)] 0 [])) ∧
    (entropic [.bytes [7#8]] State.reset).env.entropyIn = .bytes [7#8] :: [] ∧
    (entropic [.failed] State.reset).env.entropyIn = .failed :: [] ∧
    (entropic [.waiting] State.reset).env.entropyIn = .waiting :: [] := by
  unfold Fits
  decide

/-- The scalars 0 and n, 1 and n - 1; the three answers. -/
theorem witness_PubkWritesTheCurvePoint :
    (at_ 254#8 (machine [(1, 4063#32)] 0 [])).pc.toNat < 255 ∧ Fits (getReg 1 (machine [(1, 4063#32)] 0 [])) 33 ∧
    scalarNat 0 State.reset = 0 ∧ Config.curveOrder ≤ scalarNat 0 (scalars [(0, BitVec.ofNat 256 n)]) ∧
    (0 < scalarNat 0 (scalars [(0, 1#256)]) ∧ scalarNat 0 (scalars [(0, 1#256)]) < Config.curveOrder) ∧
    (0 < scalarNat 0 (scalars [(0, BitVec.ofNat 256 (n - 1))]) ∧
      scalarNat 0 (scalars [(0, BitVec.ofNat 256 (n - 1))]) < Config.curveOrder) ∧
    (curved [.point] State.reset).env.curveIn = .point :: [] ∧
    (curved [.failed] State.reset).env.curveIn = .failed :: [] ∧
    (curved [.waiting] State.reset).env.curveIn = .waiting :: [] := by
  unfold Fits
  decide

theorem witness_OtherInstructionsIgnoreTheWorld :
    (∀ rd rl, Instr.add 1 2 3 ≠ .entropy rd rl) ∧ (∀ rd ks, Instr.add 1 2 3 ≠ .pubk rd ks) ∧
    exec (.add 1 2 3) State.reset = .next (nextOf (exec (.add 1 2 3) State.reset)) :=
  ⟨by simp, by simp, next_of (by decide)⟩

/-- A running machine, with no move and with the engine's own; and a START that makes an idle machine BUSY. -/
theorem witness_FaultEntryEndsTheRun :
    (Inv (running 254#8) ∧ (running 254#8).status.busy = true ∧ (running 254#8).env.inbox = []) ∧
    (scheduled [.engine] (running 254#8)).env.inbox = .engine :: [] ∧
    ∃ t, State.reset.status.busy = false ∧
      step (scheduled [.host ⟨Config.hspBase + 4, 4, some 1#32⟩] State.reset) = .next t ∧ t.status.busy = true := by
  refine ⟨⟨inv_running, by decide, by decide⟩, by decide, hostWrite 4 1#32 (scheduled [] State.reset), by decide, ?_,
    by decide⟩
  rw [step_of_move rfl]
  unfold takeMove hostAccess
  dsimp only
  rw [windowOffset_window (by decide)]
  rfl

/-- The ABORT write; an abort pending at a boundary, and in an instruction; the boundary move there, and while idle. -/
theorem witness_AbortActsAtABoundaryOnly :
    ((2#32 : Word).getLsbD 1 = true ∧ (2#32 : Word).getLsbD 0 = false ∧ (2#32 : Word).getLsbD 2 = false ∧
      (2#32 : Word).getLsbD 4 = false ∧ (2#32 : Word).getLsbD 5 = false) ∧
    ((requestAbort (running 254#8)).env.inbox = [] ∧ (requestAbort (running 254#8)).status.busy = true ∧
      (requestAbort (running 254#8)).status.abortReq = true ∧ (requestAbort (running 254#8)).inFlight = false) ∧
    (scheduled [.engine] (requestAbort (running 254#8))).env.inbox = .engine :: [] ∧
    ((keepWaiting (requestAbort (running 254#8))).inFlight = true ∧
      decode (fetchWord (keepWaiting (requestAbort (running 254#8)))) = .ok (.add 0 0 0) ∧
      isNext (step (keepWaiting (requestAbort (running 254#8)))) = true ∧
      (raise .aborted 0#32 (running 254#8)).faultRegs.cause = .aborted) ∧
    ((scheduled [.boundary] (requestAbort (running 254#8))).env.inbox = .boundary :: [] ∧
      RunsNow (scheduled [.boundary] (running 254#8)) ∧
      RunsNow (scheduled [.boundary] (keepWaiting (requestAbort (running 254#8)))) ∧
      (scheduled [.boundary] State.reset).status.busy = false) := by
  unfold RunsNow
  decide

/-- The machine running one word, from reset. -/
def runs (w : Word) : State := placeWord w State.reset

theorem inv_runs (w : Word) (h : Memory.wf Config.imemWords (runs w).imem) : Inv (runs w) :=
  { inv_reset with
    imemWf := h, onePhase := by simp [runs, placeWord, State.reset], irqAtEnd := by simp [runs, placeWord, State.reset]
    abortBusy := by simp [runs, placeWord, State.reset], flightBusy := by simp [runs, placeWord, State.reset]
    exitDone := by simp [runs, placeWord, State.reset], faultRecorded := by simp [runs, placeWord, State.reset]
    pcOnTrail := by simp [runs, placeWord, State.reset] }

/-- A HALT, and an illegal word. -/
theorem witness_ARunEndsByHaltOrFaultOnly :
    (Inv (runs 0x60000000#32) ∧ (∀ rest, (runs 0x60000000#32).env.inbox ≠ .reset :: rest) ∧
      step (runs 0x60000000#32) = .next (nextOf (step (runs 0x60000000#32))) ∧ (runs 0x60000000#32).status.busy = true ∧
      (nextOf (step (runs 0x60000000#32))).status.busy = false) ∧
    (Inv (runs 0#32) ∧ (∀ rest, (runs 0#32).env.inbox ≠ .reset :: rest) ∧
      step (runs 0#32) = .next (nextOf (step (runs 0#32))) ∧ (runs 0#32).status.busy = true ∧
      (nextOf (step (runs 0#32))).status.busy = false) :=
  ⟨⟨inv_runs _ (by decide), by simp [runs, placeWord], next_of (by decide), by decide, by decide⟩,
    inv_runs _ (by decide), by simp [runs, placeWord], next_of (by decide), by decide, by decide⟩

theorem witness_IrqLineFollowsIrqAndIe :
    ((0x10#32 : Word).getLsbD 0 = false ∧ (0x10#32 : Word).getLsbD 2 = false) ∧ State.reset.status.busy = false ∧
    (1#32 : Word).getLsbD 0 = true ∧ (4#32 : Word).getLsbD 2 = true := by decide

/-- The last word of the window, read and written; a byte access, a misaligned one, and one just past the window. -/
theorem witness_HostAccessesAreSteps :
    (scheduled [.host ⟨Config.hspBase + 0x1FFC, 4, none⟩] State.reset).env.inbox =
      .host ⟨Config.hspBase + 0x1FFC, 4, none⟩ :: [] ∧
    (0x1FFC < 0x2000 ∧ 0x1FFC % 4 = 0) ∧ (⟨Config.hspBase, 4, some 1#32⟩ : BusAccess).value = some 1#32 ∧
    (1 % 4 ≠ 0 ∨ (⟨Config.hspBase, 1, none⟩ : BusAccess).width ≠ 4) ∧
    ((⟨Config.hspBase + 0x2000, 4, none⟩ : BusAccess).addr < Config.hspBase ∨
      Config.hspBase + 0x2000 ≤ (⟨Config.hspBase + 0x2000, 4, none⟩ : BusAccess).addr) :=
  ⟨rfl, by decide, rfl, .inl (by decide), .inr (Nat.le_refl _)⟩

/-- The last word of DMEM; the bytes on its two sides, and an index that goes on. -/
theorem witness_HostDmemLanesAreBigEndian :
    State.reset.status.busy = false ∧ 1023 < 1024 ∧ 4 * 1023 - 1 < 4 * 1023 ∧ 4 * 1023 + 4 ≤ 4096 ∧
    (at_ 254#8 State.reset).pc.toNat < 255 := by decide

theorem witness_HostReadsAndWritesImem : State.reset.status.busy = false ∧ 255 < 256 := by decide

/-- The ends of the two memories, the CSRs on the two sides of each exception; CTRL writes. -/
theorem witness_MemoriesAreRefusedWhileBusy :
    (running 0#8).status.busy = true ∧
    (∀ off ∈ [0x400, 0x7FC, 0x1000, 0x1FFC],
      off % 4 = 0 ∧ ((0x400 ≤ off ∧ off < 0x800) ∨ (0x1000 ≤ off ∧ off < 0x2000))) ∧
    (∀ off ∈ [0, 0x2C, 0x34], off % 4 = 0 ∧ off < 0x38 ∧ off ≠ 4 ∧ off ≠ 0x28) ∧
    (∀ off ∈ [0, 4, 0x28, 0x34], off % 4 = 0 ∧ off < 0x38 ∧ off ≠ 0x2C) ∧
    ((0x3A#32 : Word).getLsbD 0 = false ∧ (0x3A#32 : Word).getLsbD 2 = false) ∧
    ((0x21#32 : Word).getLsbD 0 = true ∨ (0x21#32 : Word).getLsbD 2 = true) ∧
    ((0x24#32 : Word).getLsbD 0 = true ∨ (0x24#32 : Word).getLsbD 2 = true) := by decide

theorem witness_ReservedOffsetsAreRefused :
    ∀ off ∈ [0x38, 0x3FC, 0x800, 0xFFC],
      off % 4 = 0 ∧ ((0x38 ≤ off ∧ off < 0x400) ∨ (0x800 ≤ off ∧ off < 0x1000)) := by decide

/-- A cause of each kind of end, the idle machine, and the CSRs on the two sides of each exception. -/
theorem witness_HostReadsShowTheCsrsAndReadOnlyWritesAreIgnored :
    State.reset.faultRegs.cause = .none ∧ (raise .scalarRange 0#32 State.reset).faultRegs.cause = .scalarRange ∧
    (abortEntry State.reset).faultRegs.cause = .aborted ∧ State.reset.status.busy = false ∧
    ∀ c ∈ [0, 2, 9, 11, 13], c < 14 ∧ c ≠ 1 ∧ c ≠ 10 := by decide

/-- After a HALT with exit code 5 the host reads STATUS as DONE and IRQ, and EXIT as 5. -/
theorem test_host_collects :
    (hostRead 8 (endDone 5#8 (running 0#8))).1 = 0xA#32 ∧ (hostRead 0x14 (endDone 5#8 (running 0#8))).1 = 5#32 := by decide

theorem witness_EntryKeepsEightBitsWhileIdle :
    State.reset.status.busy = false ∧ (running 0#8).status.busy = true := by decide

/-- Idle and running; a START; a step of the run, one that waits, and a read of PC. -/
theorem witness_PcReadsStayOnTheTrail :
    ((Inv State.reset ∧ State.reset.status.busy = false) ∧ Inv (running 254#8) ∧ (running 254#8).status.busy = true) ∧
    (1#32 : Word).getLsbD 0 = true ∧
    (step (running 254#8) = .next (nextOf (step (running 254#8))) ∧ (nextOf (step (running 254#8))).status.busy = true ∧
      (nextOf (step (running 254#8))).pcTrail = [255#8, 254#8]) ∧
    ∃ t, step (scheduled [.host ⟨Config.hspBase + 0x2C, 4, none⟩] (running 254#8)) = .next t ∧ t.status.busy = true ∧
      t.pcTrail = [254#8] := by
  refine ⟨⟨⟨inv_reset, by decide⟩, inv_running, by decide⟩, by decide, ⟨next_of (by decide), by decide, by decide⟩, ?_⟩
  rw [step_of_move rfl]
  unfold takeMove hostAccess
  dsimp only
  rw [windowOffset_window (by decide)]
  exact ⟨_, rfl, rfl, rfl⟩

/-- Ahead of a run at 254 are 254 and 255. -/
theorem witness_Ahead : Ahead (running 254#8) 254#8 ∧ Ahead (running 254#8) 255#8 :=
  ⟨.here _, .later (t := nextOf (step (running 254#8))) (next_of (by decide)) (by decide) (.here _)⟩

/-- Busy and idle; ABORT with START, ABORT with ZEROIZE, HOSTERR_CLR with START and with ZEROIZE. -/
theorem witness_CtrlCommandsActInOrder :
    ((running 0#8).status.busy = true ∧ State.reset.status.busy = false) ∧
    (true = (3#32 : Word).getLsbD 0 ∧ false = (3#32 : Word).getLsbD 2) ∧
    (false = (6#32 : Word).getLsbD 0 ∧ true = (6#32 : Word).getLsbD 2) ∧
    (true = (0x21#32 : Word).getLsbD 0 ∧ false = (0x21#32 : Word).getLsbD 2) ∧
    (false = (0x24#32 : Word).getLsbD 0 ∧ true = (0x24#32 : Word).getLsbD 2) := by decide

theorem witness_ResetGivesEveryValueOfTheTable : (scheduled [.reset] State.reset).env.inbox = .reset :: [] := by decide

/-- The START write, busy and idle; and an instruction at ENTRY. -/
theorem witness_StartBeginsARunAtEntry :
    ((1#32 : Word).getLsbD 0 = true ∧ (1#32 : Word).getLsbD 1 = false ∧ (1#32 : Word).getLsbD 2 = false ∧
      (1#32 : Word).getLsbD 4 = false ∧ (1#32 : Word).getLsbD 5 = false) ∧
    (running 0#8).status.busy = true ∧ (setImem 0 0x10000000#32 State.reset).status.busy = false ∧
    (setImem 0 0x10000000#32 State.reset).env.inbox = [] ∧
    decode (imemWord (setImem 0 0x10000000#32 State.reset) (setImem 0 0x10000000#32 State.reset).entry.toNat) =
      .ok (.add 0 0 0) := by decide

theorem witness_ZeroizeClearsKeyMaterial :
    ((4#32 : Word).getLsbD 2 = true ∧ (4#32 : Word).getLsbD 0 = false ∧ (4#32 : Word).getLsbD 1 = false ∧
      (4#32 : Word).getLsbD 4 = false ∧ (4#32 : Word).getLsbD 5 = false) ∧
    (running 0#8).status.busy = true ∧ State.reset.status.busy = false := by decide

/-- Idle, and running. -/
theorem witness_EveryStepKeepsTheInvariant :
    (Inv State.reset ∧ step State.reset = .next (nextOf (step State.reset))) ∧
    Inv (running 254#8) ∧ step (running 254#8) = .next (nextOf (step (running 254#8))) :=
  ⟨⟨inv_reset, next_of (by decide)⟩, inv_running, next_of (by decide)⟩

/-! ### The premise of R581 -/

/-- Running ENTROPY of one byte, which the source gives at the second look; a word that is not legal follows. -/
def awaiting : State :=
  entropic [.waiting, .bytes [7#8]] (placeWord 0xF0480000#32 (machine [(1, 0x100#32), (2, 1#32)] 0 []))

theorem awaiting_decodes {s : State} (h : fetchWord s = 0xF0480000#32) : decode (fetchWord s) = .ok (.entropy 1 2) := by
  rw [h]
  decide

theorem not_requestsCurve_of_awaiting {s : State} (h : fetchWord s = 0xF0480000#32) : ¬RequestsCurve s := by
  rintro ⟨_, rd, ks, e, _⟩
  rw [awaiting_decodes h] at e
  cases e

theorem answered_of_awaiting {s : State} (h : fetchWord s = 0xF0480000#32) (a : AnswersEntropy (regNat 2 s) s) :
    RequestAnswered s := by
  refine ⟨fun n => ?_, fun q => absurd q (not_requestsCurve_of_awaiting h)⟩
  rintro ⟨_, rd, rl, e, rfl, _⟩
  rw [awaiting_decodes h] at e
  cases e
  exact a

theorem answered_of_illegal {s : State} (h : fetchWord s = 0#32) : RequestAnswered s := by
  have e : decode (fetchWord s) = .error .unassignedOpcode := by
    rw [h]
    decide
  constructor
  · rintro n ⟨_, rd, rl, q, _⟩
    rw [e] at q
    cases q
  · rintro ⟨_, rd, ks, q, _⟩
    rw [e] at q
    cases q

/-- An idle machine makes no request. -/
theorem answered_of_idle {s : State} (h : s.status.busy = false) : RequestAnswered s :=
  ⟨fun _ q => absurd q.1.1 (by simp [h]), fun q => absurd q.1.1 (by simp [h])⟩

theorem answered_awaiting : RequestAnswered awaiting :=
  answered_of_awaiting (by decide) ⟨1, by decide, .inr ⟨[7#8], rfl, by decide⟩⟩

theorem fair_awaiting : Fair awaiting := by
  intro t h _
  rcases h.cases_next (next_of (by decide)) with rfl | h
  · exact answered_awaiting
  rcases h.cases_next (next_of (by decide)) with rfl | h
  · exact answered_of_awaiting (by decide) ⟨0, by decide, .inr ⟨[7#8], rfl, by decide⟩⟩
  rcases h.cases_next (next_of (by decide)) with rfl | h
  · exact answered_of_illegal (by decide)
  · obtain rfl := h.of_fixed ((step_of_empty (by decide)).trans (engineTurn_idle (by decide)))
    exact answered_of_idle (by decide)

/-- It does make a request; with no byte asked for, or a region that does not fit, it makes none. -/
theorem witness_requests :
    RequestsEntropy 1 awaiting ∧ (∀ n, ¬RequestsEntropy n (setReg 2 0#32 awaiting)) ∧
      (∀ n, ¬RequestsEntropy n (setReg 1 4096#32 awaiting)) ∧ ¬RequestsCurve (setReg 2 0#32 awaiting) :=
  ⟨⟨by unfold RunsNow; decide, 1, 2, awaiting_decodes (by decide), by decide, by decide, by unfold Fits; decide⟩,
    not_requestsEntropy (awaiting_decodes (by decide)) (.inl (by decide)),
    not_requestsEntropy (awaiting_decodes (by decide)) (.inr (by unfold Fits; decide)),
    not_requestsCurve_of_awaiting (by decide)⟩

/-- A plain instruction; one that makes no request; a request that is answered, with and without an abort pending; and a
fair run. -/
theorem witness_OnlyABrokenDutyStopsTheMachine :
    ((running 254#8).env.inbox = [] ∧ (running 254#8).status.busy = true ∧ RunsNow (running 254#8) ∧
      decode (fetchWord (running 254#8)) = .ok (.add 0 0 0) ∧ (∀ rd rl, Instr.add 0 0 0 ≠ .entropy rd rl) ∧
      ∀ rd ks, Instr.add 0 0 0 ≠ .pubk rd ks) ∧
    (RunsNow (setReg 2 0#32 awaiting) ∧ (∀ n, ¬RequestsEntropy n (setReg 2 0#32 awaiting)) ∧
      ¬RequestsCurve (setReg 2 0#32 awaiting)) ∧
    (awaiting.env.inbox = [] ∧ awaiting.status.busy = true ∧ RunsNow awaiting ∧ RequestAnswered awaiting) ∧
    ((requestAbort awaiting).env.inbox = [] ∧ (requestAbort awaiting).status.busy = true ∧
      (requestAbort awaiting).status.abortReq = true ∧ RequestAnswered (requestAbort awaiting)) ∧
    Fair awaiting :=
  ⟨⟨by decide, by decide, by unfold RunsNow; decide, by decide, by simp, by simp⟩,
    ⟨by unfold RunsNow; decide, witness_requests.2.1, witness_requests.2.2.2⟩,
    ⟨by decide, by decide, by unfold RunsNow; decide, answered_awaiting⟩,
    ⟨by decide, by decide, by decide, answered_of_awaiting (by decide) ⟨1, by decide, .inr ⟨[7#8], rfl, by decide⟩⟩⟩,
    fair_awaiting⟩

end Sys2Proof.Tests
end

section
/-! PROOFS. The scope and the engine's turn (00_scope.md): a turn that is due runs the decoded instruction. -/

open Sys2Proof Sys2Proof.Machine

namespace Sys2Proof.Machine

/-! ## A state where the instruction at pc is due to run -/

/-- An abort is due only at a boundary (R515), and an engine that is due to run is at none with an abort latched. -/
theorem RunsNow.abortDue_eq_false {s : State} (h : RunsNow s) : abortDue s = false := by
  obtain ⟨_, noAbort | inProgress⟩ := h
  · simp [abortDue, noAbort]
  · simp [abortDue, inProgress]

/-- Whether the instruction at pc is due does not depend on the moves still scheduled. -/
@[simp] theorem runsNow_setInbox (ms : List Move) (s : State) : RunsNow (setInbox ms s) ↔ RunsNow s := by
  simp [RunsNow]

theorem engineTurn_eq_exec {s : State} {i : Instr} (h : RunsNow s) (hi : decode (fetchWord s) = .ok i) :
    engineTurn s = exec i s :=
  calc engineTurn s = runInstruction s := engineTurn_run h.1 h.abortDue_eq_false
    _ = exec i s := runInstruction_legal hi

theorem step_of_engineMove {s : State} {rest : List Move} (h : s.env.inbox = .engine :: rest) :
    step s = engineTurn (setInbox rest s) := by
  rw [step_of_move h, takeMove]

/-- Settles O5: with no move scheduled the step is the engine's turn, and with the engine's own move it is that turn on
the rest of the schedule; in both the turn runs the instruction, since no abort is due. -/
theorem stepRunsTheDecodedInstruction : Obligations.StepRunsTheDecodedInstruction := by
  intro s i hrun hi
  constructor
  · intro empty
    rw [step_of_empty empty, engineTurn_eq_exec hrun hi]
  · intro rest scheduled
    have hrun' : RunsNow (setInbox rest s) := (runsNow_setInbox rest s).mpr hrun
    have hi' : decode (fetchWord (setInbox rest s)) = .ok i := by rw [fetchWord_setInbox, hi]
    rw [step_of_engineMove scheduled, engineTurn_eq_exec hrun' hi']

end Sys2Proof.Machine
end

section
/-! PROOFS. What one step can do, said once: the engine's turn, a host access, the boundary move, or hardware reset. -/

open Sys2Proof Sys2Proof.Machine

namespace Sys2Proof.Machine

/-- What a read of the window leaves: the state as before, a refusal, or an answered read of `PC` while BUSY (R53). -/
inductive AfterHostRead (off : Nat) (s : State) : State → Prop where
  | same : AfterHostRead off s s
  | refused : AfterHostRead off s (latchHostErr s)
  | pcShown (hoff : off = 0x2C) (busy : s.status.busy = true) : AfterHostRead off s (pcAnswered s)

/-- What a write of the window leaves: the state as before, a refusal, a CSR write, or, while idle, a memory write inside
the memory. -/
inductive AfterHostWrite (v : Word) (s : State) : State → Prop where
  | ignored : AfterHostWrite v s s
  | refused : AfterHostWrite v s (latchHostErr s)
  | ctrl : AfterHostWrite v s (writeCtrl v s)
  | entry : AfterHostWrite v s (setEntry v s)
  | imem (i : Nat) (hi : i < Config.imemWords) (idle : s.status.busy = false) : AfterHostWrite v s (setImem i v s)
  | dmem (a : Nat) (ha : a + 4 ≤ Config.dmemSize) (idle : s.status.busy = false) :
    AfterHostWrite v s (memWrite a (beBytes 4 v.toNat) s)

/-- Of the aligned offsets, 0x2C alone names `PC`. -/
theorem windowPart_eq_pc {off : Nat} (aligned : off % 4 = 0) (h : windowPart off = .csr 11) : off = 0x2C := by
  unfold windowPart at h
  split_ifs at h
  injection h
  omega

theorem windowPart_imem_lt {off i : Nat} (h : windowPart off = .imem i) : i < Config.imemWords := by
  unfold windowPart at h
  split_ifs at h
  injection h
  simp only [Config.imemWords]
  omega

theorem windowPart_dmem_le {off a : Nat} (hoff : off < 0x2000) (h : windowPart off = .dmem a) :
    a + 4 ≤ Config.dmemSize := by
  unfold windowPart at h
  split_ifs at h
  injection h
  simp only [Config.dmemSize]
  omega

theorem hostAnswer_after (shown : State → Byte) {off : Nat} (aligned : off % 4 = 0) (s : State) :
    AfterHostRead off s (hostAnswer shown off s).2 := by
  unfold hostAnswer
  cases hpart : windowPart off with
  | csr c =>
    dsimp only
    split
    · rename_i pcWhileBusy
      obtain ⟨rfl, busy⟩ := pcWhileBusy
      exact .pcShown (windowPart_eq_pc aligned hpart) busy
    · exact .same
  | imem i =>
    dsimp only
    split
    · exact .refused
    · exact .same
  | dmem a =>
    dsimp only
    split
    · exact .refused
    · exact .same
  | reserved => exact .refused

theorem hostWrite_after {off : Nat} (hoff : off < 0x2000) (v : Word) (s : State) :
    AfterHostWrite v s (hostWrite off v s) := by
  unfold hostWrite
  cases hpart : windowPart off with
  | csr c =>
    dsimp only
    split_ifs
    · exact .ctrl
    · exact .entry
    · exact .ignored
  | imem i =>
    dsimp only
    split
    · exact .refused
    · rename_i idle
      exact .imem i (windowPart_imem_lt hpart) (by simpa using idle)
  | dmem a =>
    dsimp only
    split
    · exact .refused
    · rename_i idle
      exact .dmem a (windowPart_dmem_le hoff hpart) (by simpa using idle)
  | reserved => exact .refused

/-- What a host access that has a next state leaves (R100, R101). -/
inductive AfterHostAccess (a : BusAccess) (s : State) : State → Prop where
  | outside : AfterHostAccess a s s
  | read {off : Nat} {t : State} (addr : a.addr = Config.hspBase + off) (value : a.value = none) (data : Word)
    (after : AfterHostRead off s t) : AfterHostAccess a s (setBusData data t)
  | write {v : Word} {t : State} (after : AfterHostWrite v s t) : AfterHostAccess a s t

theorem windowOffset_eq_some {base addr off : Nat} (h : windowOffset base addr = some off) :
    addr = base + off ∧ off < 0x2000 := by
  unfold windowOffset at h
  split_ifs at h with inWindow
  obtain rfl := Option.some.inj h
  simp only [Config.windowSize] at inWindow
  omega

theorem hostAccess_after {shown : State → Byte} {a : BusAccess} {s t : State} (h : hostAccess shown a s = .next t) :
    AfterHostAccess a s t := by
  unfold hostAccess at h
  cases hwin : windowOffset Config.hspBase a.addr with
  | none =>
    rw [hwin] at h
    obtain rfl := Host.Outcome.next.inj h
    exact .outside
  | some off =>
    obtain ⟨addr, hoff⟩ := windowOffset_eq_some hwin
    rw [hwin] at h
    simp only [windowAccess] at h
    split_ifs at h with legal
    cases hval : a.value with
    | none =>
      rw [hval] at h
      obtain rfl := Host.Outcome.next.inj h
      exact .read addr hval _ (hostAnswer_after shown legal.2 s)
    | some v =>
      rw [hval] at h
      obtain rfl := Host.Outcome.next.inj h
      exact .write (hostWrite_after hoff v s)

/-- What a step that has a next state is: one of the four moves, made on the rest of the schedule. -/
inductive StepIs (s t : State) : Prop where
  | engine (rest : List Move) (h : engineTurn (setInbox rest s) = .next t)
  | boundary (rest : List Move) (h : t = passBoundary (setInbox rest s))
  | reset (rest : List Move) (h : t = hardReset (setInbox rest s))
  | host (a : BusAccess) (rest : List Move) (scheduled : s.env.inbox = .host a :: rest)
    (h : AfterHostAccess a (setInbox rest s) t)

theorem step_is {s t : State} (h : step s = .next t) : StepIs s t := by
  cases hbox : s.env.inbox with
  | nil =>
    rw [step_of_empty hbox] at h
    exact .engine s.env.inbox h
  | cons m rest =>
    rw [step_of_move hbox] at h
    cases m with
    | host a => exact .host a rest hbox (hostAccess_after h)
    | reset => exact .reset rest (Host.Outcome.next.inj h).symm
    | boundary => exact .boundary rest (Host.Outcome.next.inj h).symm
    | engine => exact .engine rest h

/-- What the engine's turn leaves: nothing changed while idle, the ABORTED fault, the fault of an illegal word, or one of
the ends of the instruction at pc. -/
inductive TurnIs (s t : State) : Prop where
  | idle (h : s.status.busy = false) (ht : t = s)
  | aborted (busy : s.status.busy = true) (ht : t = abortEntry s)
  | illegal (busy : s.status.busy = true) (ht : t = raise .illegalInstruction 0#32 s)
  | ran (busy : s.status.busy = true) (i : Instr) (ends : EndsAs i s t)

theorem engineTurn_is {s t : State} (h : engineTurn s = .next t) : TurnIs s t := by
  cases busy : s.status.busy with
  | false =>
    rw [engineTurn_idle busy] at h
    exact .idle busy (Host.Outcome.next.inj h).symm
  | true =>
    cases due : abortDue s with
    | true =>
      rw [engineTurn_abort busy due] at h
      exact .aborted busy (Host.Outcome.next.inj h).symm
    | false =>
      rw [engineTurn_run busy due] at h
      cases hdec : decode (fetchWord s) with
      | ok i =>
        rw [runInstruction_legal hdec] at h
        exact .ran busy i (exec_ends h)
      | error e =>
        rw [runInstruction_illegal hdec] at h
        exact .illegal busy (Host.Outcome.next.inj h).symm

end Sys2Proof.Machine
end

section
/-! PROOFS. The invariant (10_state.md): it holds after reset, and every step, of the engine, of the host or of reset,
keeps it. -/

open Sys2Proof Sys2Proof.Machine

namespace Sys2Proof.Machine

/-- The trail after an arrival holds the pc arrived at, and no other new one. -/
theorem mem_trailAdd {p t : Byte} {trail : List Byte} : p ∈ trailAdd t trail ↔ p ∈ trail ∨ p = t := by
  unfold trailAdd
  split
  · rename_i ht
    constructor
    · exact .inl
    · rintro (hp | rfl)
      · exact hp
      · exact ht
  · rw [List.mem_cons, or_comm]

namespace Inv

variable {s u : State}

/-! ## While BUSY no run has ended -/

theorem done_eq_false (h : Inv s) (busy : s.status.busy = true) : s.status.done = false := by
  simpa [busy] using h.onePhase.1

theorem fault_eq_false (h : Inv s) (busy : s.status.busy = true) : s.status.fault = false := by
  simpa [busy] using h.onePhase.2.1

/-! ## The ends of an instruction -/

theorem ownWrites (h : Inv s) (w : OwnWrites s u) : Inv u where
  dmemWf := w.dmemWf h.dmemWf
  imemWf := w.imem ▸ h.imemWf
  zeroReg := w.zeroReg h.zeroReg
  onePhase := w.status ▸ h.onePhase
  irqAtEnd := w.status ▸ h.irqAtEnd
  abortBusy := w.status ▸ h.abortBusy
  flightBusy := by rw [w.inFlight, w.status]; exact h.flightBusy
  errFlag := w.errFlag h.errFlag
  exitDone := by rw [w.exitCode, w.status]; exact h.exitDone
  faultRecorded := by rw [w.status, w.faultRegs, w.pc]; exact h.faultRecorded
  faultClear := by rw [w.status, w.faultRegs]; exact h.faultClear
  pcOnTrail := by rw [w.status, w.pc, w.pcTrail]; exact h.pcOnTrail

theorem faultEntry (h : Inv s) (busy : s.status.busy = true) {cause : FaultCause} (hc : cause ≠ .none)
    (insn info : Word) : Inv (faultEntry cause insn info s) :=
  { h with
    onePhase := by simp [h.done_eq_false busy]
    irqAtEnd := by simp
    abortBusy := by simp
    flightBusy := by simp
    faultRecorded := fun _ => ⟨hc, rfl⟩
    faultClear := by simp
    pcOnTrail := by simp }

theorem raise (h : Inv s) (busy : s.status.busy = true) {cause : FaultCause} (hc : cause ≠ .none) (info : Word) :
    Inv (raise cause info s) := h.faultEntry busy hc _ info

theorem abortEntry (h : Inv s) (busy : s.status.busy = true) : Inv (abortEntry s) := h.faultEntry busy (by decide) _ _

theorem endDone (h : Inv s) (busy : s.status.busy = true) (code : Byte) : Inv (endDone code s) :=
  { h with
    onePhase := by simp [h.fault_eq_false busy]
    irqAtEnd := by simp
    abortBusy := by simp
    flightBusy := by simp
    exitDone := by simp
    pcOnTrail := by simp }

theorem arrive (h : Inv s) (busy : s.status.busy = true) (t : Byte) : Inv (arrive t s) :=
  { h with
    flightBusy := by simp
    faultRecorded := by simp [h.fault_eq_false busy]
    pcOnTrail := fun _ => mem_trailAdd.2 (.inr rfl) }

theorem goto (h : Inv s) (busy : s.status.busy = true) (target : Int) : Inv (goto target s) := by
  rcases goto_cases target s with ⟨_, _, e⟩ | ⟨_, e⟩
  · rw [e]
    exact h.arrive busy _
  · rw [e]
    exact h.raise busy (by decide) _

theorem keepWaiting (h : Inv s) (busy : s.status.busy = true) : Inv (keepWaiting s) :=
  { h with flightBusy := fun _ => busy }

theorem endsAs {t : State} {i : Instr} (h : Inv s) (busy : s.status.busy = true) (e : EndsAs i s t) : Inv t := by
  cases e with
  | onward u target w ht =>
    subst ht
    exact (h.ownWrites w).goto (w.status ▸ busy) target
  | faulted u cause info w _ hc _ ht =>
    subst ht
    exact (h.ownWrites w).raise (w.status ▸ busy) hc info
  | halted rs _ ht =>
    subst ht
    exact h.endDone busy _
  | waiting u w _ ht =>
    subst ht
    exact (h.ownWrites w).keepWaiting (w.status ▸ busy)

theorem engineTurn {t : State} (h : Inv s) (e : engineTurn s = .next t) : Inv t := by
  cases engineTurn_is e with
  | idle _ ht => exact ht ▸ h
  | aborted busy ht => exact ht ▸ h.abortEntry busy
  | illegal busy ht => exact ht ▸ h.raise busy (by decide) _
  | ran busy i ends => exact h.endsAs busy ends

theorem passBoundary (h : Inv s) : Inv (passBoundary s) := by
  unfold Machine.passBoundary
  split_ifs with busy due
  · exact h.abortEntry busy
  · exact h.keepWaiting busy
  · exact h

/-! ## The host's accesses -/

theorem setInbox (h : Inv s) (ms : List Move) : Inv (setInbox ms s) := { h with }

theorem setBusData (h : Inv s) (v : Word) : Inv (setBusData v s) := { h with }

theorem latchHostErr (h : Inv s) : Inv (latchHostErr s) := { h with }

theorem setIe (h : Inv s) (b : Bool) : Inv (setIe b s) := { h with }

theorem clearHostErr (h : Inv s) : Inv (clearHostErr s) := { h with }

theorem clearIrq (h : Inv s) : Inv (clearIrq s) := { h with irqAtEnd := by simp }

theorem requestAbort (h : Inv s) : Inv (requestAbort s) := by
  unfold Machine.requestAbort
  split
  · rename_i busy
    exact { h with abortBusy := fun _ => busy }
  · exact h

theorem zeroize (h : Inv s) : Inv (zeroize s) := by
  unfold Machine.zeroize
  split
  · exact h.latchHostErr
  · rename_i notBusy
    have idle : s.status.busy = false := by simpa using notBusy
    exact
      { h with
        dmemWf := empty_wf _
        zeroReg := by simp [Vector.get_eq_getElem]
        onePhase := by simp
        irqAtEnd := by simp
        errFlag := by simp [noFlags]
        exitDone := by simp
        faultRecorded := by simp
        faultClear := fun _ => rfl
        pcOnTrail := by simp [idle] }

theorem startRun (h : Inv s) : Inv (startRun s) := by
  unfold Machine.startRun
  split
  · exact h.latchHostErr
  · exact
      { h with
        onePhase := by simp
        irqAtEnd := by simp
        abortBusy := by simp
        flightBusy := by simp
        errFlag := by simp [noFlags]
        exitDone := by simp
        faultRecorded := by simp
        faultClear := fun _ => rfl
        pcOnTrail := by simp }

theorem setEntry (h : Inv s) (v : Word) : Inv (setEntry v s) := by
  unfold Machine.setEntry
  split
  · exact h.latchHostErr
  · exact { h with }

theorem writeCtrl (h : Inv s) (v : Word) : Inv (writeCtrl v s) :=
  writeCtrl_induct v h (fun _ b k => k.setIe b) (fun _ k => k.clearIrq) (fun _ k => k.clearHostErr)
    (fun _ k => k.requestAbort) (fun _ k => k.zeroize) (fun _ k => k.startRun)

theorem pcAnswered (h : Inv s) : Inv (pcAnswered s) := { h with pcOnTrail := by simp }

theorem afterHostRead {off : Nat} (h : Inv s) (r : AfterHostRead off s u) : Inv u := by
  cases r with
  | same => exact h
  | refused => exact h.latchHostErr
  | pcShown _ _ => exact h.pcAnswered

theorem afterHostWrite {v : Word} (h : Inv s) (w : AfterHostWrite v s u) : Inv u := by
  cases w with
  | ignored => exact h
  | refused => exact h.latchHostErr
  | ctrl => exact h.writeCtrl v
  | entry => exact h.setEntry v
  | imem i hi _ => exact { h with imemWf := setImem_wf h.imemWf hi }
  | dmem a ha _ => exact { h with dmemWf := memWrite_wf h.dmemWf (by simpa using ha) }

theorem afterHostAccess {a : BusAccess} (h : Inv s) (k : AfterHostAccess a s u) : Inv u := by
  cases k with
  | outside => exact h
  | read _ _ data after => exact (h.afterHostRead after).setBusData data
  | write after => exact h.afterHostWrite after

/-! ## Reset -/

theorem reset : Inv State.reset where
  dmemWf := reset_memories_wf.1
  imemWf := reset_memories_wf.2
  zeroReg := by simp [State.reset, Vector.get_eq_getElem]
  onePhase := by simp [State.reset]
  irqAtEnd := by simp [State.reset]
  abortBusy := by simp [State.reset]
  flightBusy := by simp [State.reset]
  errFlag := by simp [State.reset]
  exitDone := by simp [State.reset]
  faultRecorded := by simp [State.reset]
  faultClear := fun _ => rfl
  pcOnTrail := by simp [State.reset]

theorem hardReset (s : State) : Inv (hardReset s) := { reset with }

end Inv

/-- Settles O58: the memories are empty and every flag, register and status bit is 0. -/
theorem resetMeetsTheInvariant : Obligations.ResetMeetsTheInvariant := Inv.reset

/-- Settles O59, by the four moves that a step can be; an engine's turn by the ends of its instruction, a host access by
what it leaves. -/
theorem everyStepKeepsTheInvariant : Obligations.EveryStepKeepsTheInvariant := by
  intro s t h hstep
  cases step_is hstep with
  | engine rest hturn => exact (h.setInbox rest).engineTurn hturn
  | boundary rest ht => exact ht ▸ (h.setInbox rest).passBoundary
  | reset rest ht => exact ht ▸ Inv.hardReset _
  | host a rest _ after => exact (h.setInbox rest).afterHostAccess after

end Sys2Proof.Machine
end

section
/-! PROOFS. The host window's registers (10_state.md, R40 to R58): what a read shows, what a write to `CTRL` or `ENTRY`
leaves, and the reset values. -/

open Sys2Proof Sys2Proof.Machine

namespace Sys2Proof.Machine

/-! ## Reads and writes by the part of the window -/

theorem hostWrite_ctrl (v : Word) (s : State) : hostWrite 4 v s = writeCtrl v s := rfl

theorem hostWrite_entry (v : Word) (s : State) : hostWrite 0x28 v s = setEntry v s := rfl

/-- The reserved offsets of R100 are refused, read or written. -/
theorem host_reserved {off : Nat} (hpart : windowPart off = .reserved) (v : Word) (s : State) :
    hostRead off s = (0#32, latchHostErr s) ∧ hostWrite off v s = latchHostErr s := by
  constructor
  · rw [hostRead, hostAnswer, hpart]
  · rw [hostWrite, hpart]

theorem windowPart_reserved {off : Nat} (h : (0x38 ≤ off ∧ off < 0x400) ∨ (0x800 ≤ off ∧ off < 0x1000)) :
    windowPart off = .reserved := by
  rcases h with ⟨lo, hi⟩ | ⟨lo, hi⟩
  · rw [windowPart, if_neg (by omega), if_pos hi]
  · rw [windowPart, if_neg (by omega), if_neg (by omega), if_neg (by omega), if_pos hi]

theorem windowPart_csr {c : Nat} (h : c < 14) : windowPart (4 * c) = .csr c := by
  rw [windowPart, if_pos (by omega), Nat.mul_div_cancel_left c (by decide)]

/-- A read of a CSR shows its value and changes nothing, but for `PC` while BUSY. -/
theorem hostRead_csr {c : Nat} {s : State} (hc : c < 14) (h : c ≠ 11 ∨ s.status.busy = false) :
    hostRead (4 * c) s = (csrValue c s, s) := by
  have notPcBusy : ¬(c = 11 ∧ s.status.busy = true) := by
    rintro ⟨rfl, busy⟩
    simp [busy] at h
  rw [hostRead, hostAnswer, windowPart_csr hc]
  exact if_neg notPcBusy

theorem hostRead_pc_busy {s : State} (busy : s.status.busy = true) :
    hostRead 0x2C s = ((drawnPc s).zeroExtend 32, pcAnswered s) := by
  rw [hostRead, hostAnswer, show windowPart 0x2C = .csr 11 from rfl]
  exact if_pos ⟨rfl, busy⟩

/-- A write to a read-only CSR is ignored (R44). -/
theorem hostWrite_readOnly {c : Nat} (hc : c < 14) (notCtrl : c ≠ 1) (notEntry : c ≠ 10) (v : Word) (s : State) :
    hostWrite (4 * c) v s = s := by
  simp only [hostWrite, windowPart_csr hc, if_neg notCtrl, if_neg notEntry]

theorem b2i_eq_toNat (p : Bool) : b2i p = p.toNat := by cases p <;> rfl

theorem setEntry_of_idle {s : State} (idle : s.status.busy = false) (v : Word) :
    setEntry v s = { s with entry := v.extractLsb' 0 8 } := if_neg (by simp [idle])

theorem extractLsb'_low_byte (v : Word) : v.extractLsb' 0 8 = BitVec.ofNat 8 (v.toNat % 256) := by
  apply BitVec.eq_of_toNat_eq
  simp [BitVec.extractLsb'_toNat]

/-- Settles O50. -/
theorem reservedOffsetsAreRefused : Obligations.ReservedOffsetsAreRefused :=
  fun s _ v _ inReserved => host_reserved (windowPart_reserved inReserved) v s

/-- Settles O51: every offset is that of a CSR, whose value the read shows. -/
theorem hostReadsShowTheCsrsAndReadOnlyWritesAreIgnored :
    Obligations.HostReadsShowTheCsrsAndReadOnlyWritesAreIgnored := by
  intro s
  have read (c : Nat) (hc : c < 14) (notPc : c ≠ 11) : hostRead (4 * c) s = (csrValue c s, s) :=
    hostRead_csr hc (.inl notPc)
  refine ⟨read 0 (by decide) (by decide), ?ctrl, ?status, ?flags, ?err, ?exitCode, ?cause, ?faultPc,
    read 8 (by decide) (by decide), read 9 (by decide) (by decide), ?entry, ?pc, read 12 (by decide) (by decide),
    read 13 (by decide) (by decide), fun c v hc notCtrl notEntry => hostWrite_readOnly hc notCtrl notEntry v s⟩
  case ctrl => simpa [csrValue, ctrlWord, b2i_eq_toNat] using read 1 (by decide) (by decide)
  case status => simpa [csrValue, statusWord, b2i_eq_toNat] using read 2 (by decide) (by decide)
  case flags => simpa [csrValue, flagsWord, b2i_eq_toNat] using read 3 (by decide) (by decide)
  case err => simpa [csrValue] using read 4 (by decide) (by decide)
  case exitCode => simpa [csrValue] using read 5 (by decide) (by decide)
  case cause =>
    intro p hp hcause
    refine (read 6 (by decide) (by decide)).trans ?_
    rw [csrValue, hcause]
    fin_cases hp <;> rfl
  case faultPc => simpa [csrValue] using read 7 (by decide) (by decide)
  case entry => simpa [csrValue] using read 10 (by decide) (by decide)
  case pc =>
    intro idle
    simpa [csrValue] using hostRead_csr (c := 11) (s := s) (by decide) (.inr idle)

/-! ## What a write to `CTRL` leaves (R42) -/

theorem onBit_of_set {v : Word} {i : Nat} (h : v.getLsbD i = true) (command : State → State) (s : State) :
    onBit v i command s = command s := if_pos h

theorem onBit_of_clear {v : Word} {i : Nat} (h : v.getLsbD i = false) (command : State → State) (s : State) :
    onBit v i command s = s := if_neg (by simp [h])

/-- A command bit keeps what its command keeps. -/
theorem onBit_keeps {α : Type} {command : State → State} {f : State → α} (h : ∀ t, f (command t) = f t) (v : Word)
    (i : Nat) (s : State) : f (onBit v i command s) = f s := by
  rcases onBit_cases v i command s with ⟨_, e⟩ | ⟨_, e⟩
  · rw [e, h]
  · rw [e]

/-- What the first three commands of a `CTRL` write leave: IE stored, IRQ and HOSTERR cleared where the write says so. -/
def ctrlStored (v : Word) (s : State) : State :=
  { s with
    ie := v.getLsbD 3
    status := { s.status with
      irq := s.status.irq && !v.getLsbD 4
      hostErr := s.status.hostErr && !v.getLsbD 5 } }

theorem onBit_clearIrq (v : Word) (i : Nat) (s : State) :
    onBit v i clearIrq s = { s with status := { s.status with irq := s.status.irq && !v.getLsbD i } } := by
  rcases onBit_cases v i clearIrq s with ⟨hbit, e⟩ | ⟨hbit, e⟩ <;> simp [e, hbit, clearIrq]

theorem onBit_clearHostErr (v : Word) (i : Nat) (s : State) :
    onBit v i clearHostErr s =
      { s with status := { s.status with hostErr := s.status.hostErr && !v.getLsbD i } } := by
  rcases onBit_cases v i clearHostErr s with ⟨hbit, e⟩ | ⟨hbit, e⟩ <;> simp [e, hbit, clearHostErr]

theorem writeCtrl_eq (v : Word) (s : State) :
    writeCtrl v s = onBit v 0 startRun (onBit v 2 zeroize (onBit v 1 requestAbort (ctrlStored v s))) := by
  rw [writeCtrl, onBit_clearIrq, onBit_clearHostErr]
  rfl

theorem requestAbort_of_busy {s : State} (busy : s.status.busy = true) :
    requestAbort s = { s with status := { s.status with abortReq := true } } := if_pos busy

theorem onBit_requestAbort_busy {s : State} (busy : s.status.busy = true) (v : Word) (i : Nat) :
    onBit v i requestAbort s =
      { s with status := { s.status with abortReq := s.status.abortReq || v.getLsbD i } } := by
  rcases onBit_cases v i requestAbort s with ⟨hbit, e⟩ | ⟨hbit, e⟩ <;>
    simp [e, hbit, requestAbort_of_busy busy]

/-- A command bit whose command is refused latches HOSTERR (R512). -/
theorem onBit_refused {command : State → State} {s : State} (refused : command s = latchHostErr s) (v : Word)
    (i : Nat) :
    onBit v i command s = { s with status := { s.status with hostErr := s.status.hostErr || v.getLsbD i } } := by
  rcases onBit_cases v i command s with ⟨hbit, e⟩ | ⟨hbit, e⟩ <;> simp [e, hbit, refused, latchHostErr]

/-- While BUSY a `CTRL` write stores IE, clears and latches, and refuses START and ZEROIZE. -/
theorem writeCtrl_of_busy {s : State} (busy : s.status.busy = true) (v : Word) :
    writeCtrl v s =
      { s with
        ie := v.getLsbD 3
        status := { s.status with
          irq := s.status.irq && !v.getLsbD 4
          hostErr := (s.status.hostErr && !v.getLsbD 5) || v.getLsbD 2 || v.getLsbD 0
          abortReq := s.status.abortReq || v.getLsbD 1 } } := by
  rw [writeCtrl_eq, onBit_requestAbort_busy ?_, onBit_refused (zeroize_of_busy ?_), onBit_refused (startRun_of_busy ?_)]
  · rfl
  all_goals exact busy

/-- While idle ABORT is no request, and only ZEROIZE and START remain to act. -/
theorem writeCtrl_of_idle {s : State} (idle : s.status.busy = false) (v : Word) :
    writeCtrl v s = onBit v 0 startRun (onBit v 2 zeroize (ctrlStored v s)) := by
  have noRequest : onBit v 1 requestAbort (ctrlStored v s) = ctrlStored v s := by
    unfold onBit
    rw [requestAbort_of_idle (s := ctrlStored v s) idle, ite_self]
  rw [writeCtrl_eq, noRequest]

@[simp] theorem requestAbort_ie (s : State) : (requestAbort s).ie = s.ie := by unfold requestAbort; split <;> rfl
@[simp] theorem zeroize_ie (s : State) : (zeroize s).ie = s.ie := by unfold zeroize; split <;> rfl
@[simp] theorem startRun_ie (s : State) : (startRun s).ie = s.ie := by unfold startRun; split <;> rfl
@[simp] theorem zeroize_busy (s : State) : (zeroize s).status.busy = s.status.busy := by unfold zeroize; split <;> rfl
@[simp] theorem zeroize_entry (s : State) : (zeroize s).entry = s.entry := by unfold zeroize; split <;> rfl

/-- IE is stored as written, BUSY or idle. -/
@[simp] theorem writeCtrl_ie (v : Word) (s : State) : (writeCtrl v s).ie = v.getLsbD 3 := by
  rw [writeCtrl_eq, onBit_keeps startRun_ie, onBit_keeps zeroize_ie, onBit_keeps requestAbort_ie, ctrlStored]

/-- ZEROIZE while idle (R563). -/
theorem zeroize_of_idle {s : State} (idle : s.status.busy = false) :
    zeroize s =
      { s with
        dmem := [], regs := Vector.replicate 16 0#32, kregs := Vector.replicate 8 0#256, pc := 0#8
        flags := noFlags, err := 0#8, exitCode := 0#8, faultRegs := noFault
        status := { s.status with done := false, fault := false, irq := false } } := if_neg (by simp [idle])

/-- START while idle (R562). -/
theorem startRun_of_idle {s : State} (idle : s.status.busy = false) :
    startRun s =
      { s with
        pc := s.entry
        status := { s.status with busy := true, done := false, fault := false, irq := false, abortReq := false }
        flags := noFlags, err := 0#8, exitCode := 0#8, faultRegs := noFault, inFlight := false
        pcTrail := [s.entry] } := if_neg (by simp [idle])

theorem startRun_pc_of_idle {s : State} (idle : s.status.busy = false) : (startRun s).pc = s.entry := by
  rw [startRun_of_idle idle]

theorem startRun_pcTrail_of_idle {s : State} (idle : s.status.busy = false) : (startRun s).pcTrail = [s.entry] := by
  rw [startRun_of_idle idle]

/-- A `CTRL` write with START, while idle, ends with a run started, at ENTRY as it stands. -/
theorem writeCtrl_start {s : State} (idle : s.status.busy = false) {v : Word} (start : v.getLsbD 0 = true) :
    ∃ u : State, u.status.busy = false ∧ u.entry = s.entry ∧ writeCtrl v s = startRun u := by
  refine ⟨onBit v 2 zeroize (ctrlStored v s), ?_, ?_, ?_⟩
  · rw [onBit_keeps (f := fun t => t.status.busy) zeroize_busy]
    exact idle
  · rw [onBit_keeps (f := fun t => t.entry) zeroize_entry]
    rfl
  · rw [writeCtrl_of_idle idle, onBit, if_pos start]

/-- Settles O52. -/
theorem entryKeepsEightBitsWhileIdle : Obligations.EntryKeepsEightBitsWhileIdle := by
  intro s v
  have written (idle : s.status.busy = false) :
      hostWrite 0x28 v s = { s with entry := BitVec.ofNat 8 (v.toNat % 256) } := by
    rw [hostWrite_entry, setEntry_of_idle idle, extractLsb'_low_byte]
  refine ⟨written, fun busy => setEntry_of_busy busy v, ?start, ?read, rfl⟩
  case start =>
    intro idle
    obtain ⟨u, uIdle, hentry, e⟩ := writeCtrl_start (s := hostWrite 0x28 v s) (v := 1#32)
      (by rw [written idle]; exact idle) (by decide)
    rw [hostWrite_ctrl, e, startRun_pc_of_idle uIdle, hentry, written idle]
  case read => simpa [csrValue] using hostRead_csr (c := 10) (s := s) (by decide) (.inl (by decide))

/-- Settles O54: BUSY by what the write leaves as a whole; idle by whether ZEROIZE and START act, and field by field. -/
theorem ctrlCommandsActInOrder : Obligations.CtrlCommandsActInOrder := by
  intro s v start zero hstart hzero
  subst hstart hzero
  refine ⟨fun busy => writeCtrl_of_busy busy v, fun idle => ?idle, ?read⟩
  case idle =>
    rw [hostWrite_ctrl, writeCtrl_of_idle idle]
    have stillIdle : (ctrlStored v s).status.busy = false := idle
    cases zero : v.getLsbD 2 with
    | false =>
      rw [onBit_of_clear zero]
      cases start : v.getLsbD 0 with
      | false =>
        rw [onBit_of_clear start]
        simp [ctrlStored, idle, getReg, getK, dmemByte, imemWord]
      | true =>
        rw [onBit_of_set start, startRun_of_idle stillIdle]
        simp [ctrlStored, getReg, getK, dmemByte, imemWord, noFlags, noFault]
    | true =>
      rw [onBit_of_set zero]
      cases start : v.getLsbD 0 with
      | false =>
        rw [onBit_of_clear start, zeroize_of_idle stillIdle]
        simp [ctrlStored, idle, getReg, getK, dmemByte, imemWord, noFlags, noFault, unlisted, Vector.get_eq_getElem]
      | true =>
        rw [onBit_of_set start, startRun_of_idle ((zeroize_busy _).trans stillIdle), zeroize_of_idle stillIdle]
        simp [ctrlStored, getReg, getK, dmemByte, imemWord, noFlags, noFault, unlisted, Vector.get_eq_getElem]
  case read =>
    have shown := hostRead_csr (c := 1) (s := hostWrite 4 v s) (by decide) (.inl (by decide))
    simpa [csrValue, ctrlWord, b2i_eq_toNat, hostWrite_ctrl] using shown

/-! ## The reset values (R58) -/

@[simp] theorem getReg_reset (r : RReg) : getReg r State.reset = 0#32 := by
  simp [getReg, State.reset, Vector.get_eq_getElem]

@[simp] theorem getK_reset (k : KReg) : getK k State.reset = 0#256 := by
  simp [getK, State.reset, Vector.get_eq_getElem]

/-- Settles O55: the table row by row, then the reset move, which keeps the rest of the schedule. -/
theorem resetGivesEveryValueOfTheTable : Obligations.ResetGivesEveryValueOfTheTable := by
  refine ⟨getReg_reset, getK_reset, rfl, rfl, rfl, rfl, rfl, rfl, rfl, rfl, rfl, rfl, rfl, fun _ => rfl, fun _ => rfl,
    ⟨.unassignedOpcode, by decide⟩, rfl, fun s rest scheduled => ?step⟩
  case step =>
    rw [step_of_move scheduled]
    rfl

end Sys2Proof.Machine
end

section
/-! PROOFS. Which instructions write which register and flag (R31 to R38, R46). -/

open Sys2Proof Sys2Proof.Machine

namespace Sys2Proof.Machine

/-! ## What an instruction may write -/

/-- The general register an instruction may write (R32). -/
def gprDest : Instr → Option RReg
  | .lui rd _ | .ori rd _ _ | .addi rd _ _ | .add rd _ _ | .sub rd _ _ | .lb rd _ _ | .lw rd _ _ | .csrr rd _ => some rd
  | _ => none

/-- The scalar register an instruction may write (R34). -/
def scalarDest : Instr → Option KReg
  | .kld kd _ _ | .kmov kd _ | .kldc kd _ | .kadd kd _ _ | .kaddm kd _ _ | .kred kd _ => some kd
  | _ => none

/-- The flags an instruction may write (R38); E stands for ERR too, which is written with it (R46, R501). -/
def flagDests : Instr → Flags
  | .kadd _ _ _ | .kaddm _ _ _ | .kred _ _ => ⟨true, true, false, false, false⟩
  | .kcmp _ _ => ⟨true, false, true, false, false⟩
  | .kchk _ => ⟨true, false, true, true, false⟩
  | .pbkdf2 _ _ _ _ _ _ | .seterr _ => ⟨false, false, false, false, true⟩
  | .b39enc _ _ _ | .b39dec _ _ _ => ⟨false, false, false, true, true⟩
  | _ => noFlags

/-- From `f` to `g` only the flags of `m` may have changed. -/
structure FlagsWithin (m f g : Flags) : Prop where
  z : g.z ≠ f.z → m.z = true
  c : g.c ≠ f.c → m.c = true
  lt : g.lt ≠ f.lt → m.lt = true
  v : g.v ≠ f.v → m.v = true
  e : g.e ≠ f.e → m.e = true

theorem FlagsWithin.refl (m f : Flags) : FlagsWithin m f f :=
  ⟨fun h => absurd rfl h, fun h => absurd rfl h, fun h => absurd rfl h, fun h => absurd rfl h, fun h => absurd rfl h⟩

/-- What changed over two changes changed in one of them. -/
theorem ne_trans_cases {α : Type} {a b c : α} {p : Prop} (hab : b ≠ a → p) (hbc : c ≠ b → p) (h : c ≠ a) : p := by
  by_cases hb : b = a
  · exact hbc (hb ▸ h)
  · exact hab hb

theorem FlagsWithin.trans {m f g k : Flags} (hfg : FlagsWithin m f g) (hgk : FlagsWithin m g k) : FlagsWithin m f k :=
  ⟨ne_trans_cases hfg.z hgk.z, ne_trans_cases hfg.c hgk.c, ne_trans_cases hfg.lt hgk.lt, ne_trans_cases hfg.v hgk.v,
    ne_trans_cases hfg.e hgk.e⟩

/-- From `s` to `t` only what `i` may write has changed, of the registers, the flags and ERR. -/
structure Footprint (i : Instr) (s t : State) : Prop where
  gpr : ∀ r, getReg r t ≠ getReg r s → gprDest i = some r
  scalar : ∀ k, getK k t ≠ getK k s → scalarDest i = some k
  flags : FlagsWithin (flagDests i) s.flags t.flags
  err : t.err ≠ s.err → (flagDests i).e = true

namespace Footprint

variable {i : Instr} {s t u : State}

theorem of_fields (i : Instr) (hr : t.regs = s.regs) (hk : t.kregs = s.kregs) (hf : t.flags = s.flags)
    (he : t.err = s.err) : Footprint i s t where
  gpr r h := absurd (by rw [getReg, getReg, hr]) h
  scalar k h := absurd (by rw [getK, getK, hk]) h
  flags := by rw [hf]; exact .refl ..
  err h := absurd he h

theorem trans (h : Footprint i s t) (k : Footprint i t u) : Footprint i s u where
  gpr r := ne_trans_cases (h.gpr r) (k.gpr r)
  scalar r := ne_trans_cases (h.scalar r) (k.scalar r)
  flags := h.flags.trans k.flags
  err := ne_trans_cases h.err k.err

theorem setReg {r : RReg} (dest : gprDest i = some r) (v : Word) (s : State) : Footprint i s (setReg r v s) where
  gpr r' changed := by
    by_cases hr : r' = r
    · exact hr ▸ dest
    · exact absurd (getReg_setReg_other hr v s) changed
  scalar k changed := absurd (getK_setReg s r v k) changed
  flags := by rw [setReg_flags]; exact .refl ..
  err changed := absurd (setReg_err s r v) changed

theorem setK {k : KReg} (dest : scalarDest i = some k) (v : Scalar) (s : State) : Footprint i s (setK k v s) where
  gpr r changed := absurd (getReg_setK s k v r) changed
  scalar k' changed := by
    by_cases hk : k' = k
    · exact hk ▸ dest
    · exact absurd (getK_setK_other hk v s) changed
  flags := .refl ..
  err changed := absurd rfl changed

theorem setFlags {f : Flags} (within : FlagsWithin (flagDests i) s.flags f) : Footprint i s (setFlags f s) where
  gpr _ changed := absurd rfl changed
  scalar _ changed := absurd rfl changed
  flags := within
  err changed := absurd rfl changed

theorem setValid (dest : (flagDests i).v = true) (b : Bool) (s : State) : Footprint i s (setValid b s) :=
  .setFlags { FlagsWithin.refl (flagDests i) s.flags with v := fun _ => dest }

theorem setChecked (dest : (flagDests i).e = true) (code : Byte) (s : State) : Footprint i s (setChecked code s) where
  gpr _ changed := absurd rfl changed
  scalar _ changed := absurd rfl changed
  flags := { FlagsWithin.refl (flagDests i) s.flags with e := fun _ => dest }
  err _ := dest

theorem memWrite (i : Instr) (a : Nat) (bs : List Byte) (s : State) : Footprint i s (memWrite a bs s) :=
  .of_fields i rfl rfl rfl rfl

theorem raise (i : Instr) (cause : FaultCause) (info : Word) (s : State) : Footprint i s (raise cause info s) :=
  .of_fields i rfl rfl rfl rfl

/-! ### The shapes of a meaning -/

theorem of_next (h : (Host.Outcome.next u : Result) = .next t) (k : Footprint i s u) : Footprint i s t :=
  Host.Outcome.next.inj h ▸ k

theorem seq (h : (Host.Outcome.next (seqNext u) : Result) = .next t) (k : Footprint i s u) : Footprint i s t :=
  .of_next h (k.trans (.of_fields i (seqNext_regs u) (seqNext_kregs u) (seqNext_flags u) (seqNext_err u)))

theorem branch {b : Bool} {off : BitVec 16} (h : (Host.Outcome.next (branchIf b off s) : Result) = .next t) :
    Footprint i s t :=
  .of_next h (.of_fields i (branchIf_regs ..) (branchIf_kregs ..) (branchIf_flags ..) (branchIf_err ..))

theorem of_regions {rs : List (Word × Nat)} {rest : State → Result} (h : withRegions rs rest s = .next t)
    (hrest : rest s = .next t → Footprint i s t) : Footprint i s t := by
  rcases withRegions_cases rs rest s with ⟨_, e⟩ | ⟨a, _, e⟩
  · exact hrest (e ▸ h)
  · exact .of_next (e ▸ h) (.raise ..)

theorem of_legal {j : Instr} {rest : State → Result} (h : ifLegal j rest s = .next t)
    (hrest : rest s = .next t → Footprint i s t) : Footprint i s t := by
  cases hj : j.wellFormed with
  | true => exact hrest (ifLegal_of_wellFormed hj rest s ▸ h)
  | false => exact .of_next (ifLegal_of_illegal hj rest s ▸ h) (.raise ..)

theorem packerError (hv : (flagDests i).v = true) (he : (flagDests i).e = true) {code : Byte}
    (h : (Host.Outcome.next (packerError code s) : Result) = .next t) : Footprint i s t :=
  .seq h ((Footprint.setChecked he code s).trans (.setValid hv false _))

theorem packerDone (hv : (flagDests i).v = true) (he : (flagDests i).e = true) {a : Nat} {bs : List Byte}
    (h : (Host.Outcome.next (packerDone a bs s) : Result) = .next t) : Footprint i s t :=
  .seq h (((Footprint.memWrite i a bs s).trans (.setChecked he 0#8 _)).trans (.setValid hv true _))

end Footprint

/-- KADD, KADDM and KRED write Z and C (R357, R358, R361). -/
theorem FlagsWithin.zeroCarry (z c : Bool) (f : Flags) : FlagsWithin ⟨true, true, false, false, false⟩ f { f with c, z } :=
  { FlagsWithin.refl _ f with z := fun _ => rfl, c := fun _ => rfl }

/-- KCMP writes Z and LT (R359). -/
theorem FlagsWithin.zeroLess (z lt : Bool) (f : Flags) : FlagsWithin ⟨true, false, true, false, false⟩ f { f with z, lt } :=
  { FlagsWithin.refl _ f with z := fun _ => rfl, lt := fun _ => rfl }

/-- KCHK writes Z, LT and V (R360). -/
theorem FlagsWithin.zeroLessValid (z lt v : Bool) (f : Flags) :
    FlagsWithin ⟨true, false, true, true, false⟩ f { f with z, lt, v } :=
  { FlagsWithin.refl _ f with z := fun _ => rfl, lt := fun _ => rfl, v := fun _ => rfl }

/-- An instruction changes, of the registers, the flags and ERR, only what it may write. -/
theorem exec_footprint {i : Instr} {s t : State} (h : exec i s = .next t) : Footprint i s t := by
  cases i with
  | lui | ori | addi | add | sub =>
    simp only [exec, execLui, execOri, execAddi, execAdd, execSub] at h
    exact .seq h (.setReg rfl ..)
  | lb | lw =>
    simp only [exec, execLb, execLw] at h
    exact .of_regions h fun h => .seq h (.setReg rfl ..)
  | csrr =>
    simp only [exec, execCsrr] at h
    exact .of_legal h fun h => .seq h (.setReg rfl ..)
  | sb | sw | mcpy | kst | sha256 | sha512 | hmac512 =>
    simp only [exec, execSb, execSw, execMcpy, execKst, execSha256, execSha512, execHmac512] at h
    exact .of_regions h fun h => .seq h (.memWrite ..)
  | beq | bne | bltu | bgeu | bfs | bfc =>
    simp only [exec, execBeq, execBne, execBltu, execBgeu, execBfs, execBfc] at h
    exact .branch h
  | halt =>
    simp only [exec, execHalt] at h
    exact .of_next h (.of_fields _ rfl rfl rfl rfl)
  | seterr =>
    simp only [exec, execSeterr] at h
    exact .of_legal h fun h => .seq h (.setChecked rfl ..)
  | kld =>
    simp only [exec, execKld] at h
    exact .of_regions h fun h => .seq h (.setK rfl ..)
  | kmov =>
    simp only [exec, execKmov] at h
    exact .seq h (.setK rfl ..)
  | kldc =>
    simp only [exec, execKldc] at h
    exact .of_legal h fun h => .seq h (.setK rfl ..)
  | kadd | kaddm | kred =>
    simp only [exec, execKadd, execKaddm, execKred] at h
    exact .seq h ((Footprint.setK rfl ..).trans (.setFlags (.zeroCarry ..)))
  | kcmp =>
    simp only [exec, execKcmp] at h
    exact .seq h (.setFlags (.zeroLess ..))
  | kchk =>
    simp only [exec, execKchk] at h
    exact .seq h (.setFlags (.zeroLessValid ..))
  | pbkdf2 =>
    simp only [exec, execPbkdf2] at h
    split at h
    · exact .seq h (.setChecked rfl ..)
    · exact .of_regions h fun h => .seq h ((Footprint.memWrite ..).trans (.setChecked rfl ..))
  | b39enc =>
    simp only [exec, execB39enc] at h
    split at h
    · exact .of_regions h fun h => .packerDone rfl rfl h
    · exact .packerError rfl rfl h
  | b39dec =>
    simp only [exec, execB39dec] at h
    split at h
    · refine .of_regions h fun h => ?_
      unfold unpackInto at h
      split_ifs at h
      · exact .packerError rfl rfl h
      · exact .packerDone rfl rfl h
      · exact .packerError rfl rfl h
    · exact .packerError rfl rfl h
  | entropy rd rl =>
    simp only [exec, execEntropy] at h
    refine .of_regions h fun h => ?_
    split at h
    · exact .seq h (.of_fields _ rfl rfl rfl rfl)
    · generalize entropyAnswer (regNat rl s) s = answer at h
      cases answer with
      | waiting => exact .of_next h (.of_fields _ rfl rfl rfl rfl)
      | failed => exact .of_next h (.of_fields _ rfl rfl rfl rfl)
      | bytes bs =>
        simp only [entropyFill] at h
        split_ifs at h
        exact .seq h (.of_fields _ rfl rfl rfl rfl)
  | pubk rd ks =>
    simp only [exec, execPubk] at h
    refine .of_regions h fun h => ?_
    split at h
    · generalize curveAnswer s = answer at h
      cases answer with
      | waiting => exact .of_next h (.of_fields _ rfl rfl rfl rfl)
      | failed => exact .of_next h (.of_fields _ rfl rfl rfl rfl)
      | point => exact .seq h (.of_fields _ rfl rfl rfl rfl)
    · exact .of_next h (.raise ..)

/-- Settles O8: a register that changed is the instruction's own destination, and only the listed instructions have one. -/
theorem onlyListedInstructionsWriteRegisters : Obligations.OnlyListedInstructionsWriteRegisters := by
  intro i s t h
  have print := exec_footprint h
  constructor
  · intro r changed
    have dest := print.gpr r changed
    cases i with
    | lui | ori | addi | add | sub | lb | lw | csrr =>
      obtain rfl := Option.some.inj dest
      simp
    | _ => simp [gprDest] at dest
  · intro k changed
    have dest := print.scalar k changed
    cases i with
    | kld | kmov | kldc | kadd | kaddm | kred =>
      obtain rfl := Option.some.inj dest
      simp
    | _ => simp [scalarDest] at dest

/-- Settles O9: a flag that changed is one the instruction may write. -/
theorem onlyListedInstructionsWriteFlagsAndErr : Obligations.OnlyListedInstructionsWriteFlagsAndErr := by
  intro i s t h
  have print := exec_footprint h
  refine ⟨fun changed => ?z, fun changed => ?c, fun changed => ?lt, fun changed => ?v, fun changed => ?e⟩
  case z =>
    have dest := print.flags.z changed
    cases i with
    | kadd | kaddm | kcmp | kchk | kred => simp
    | _ => simp [flagDests, noFlags] at dest
  case c =>
    have dest := print.flags.c changed
    cases i with
    | kadd | kaddm | kred => simp
    | _ => simp [flagDests, noFlags] at dest
  case lt =>
    have dest := print.flags.lt changed
    cases i with
    | kcmp | kchk => simp
    | _ => simp [flagDests, noFlags] at dest
  case v =>
    have dest := print.flags.v changed
    cases i with
    | kchk | b39enc | b39dec => simp
    | _ => simp [flagDests, noFlags] at dest
  case e =>
    have dest : (flagDests i).e = true := changed.elim print.flags.e print.err
    cases i with
    | pbkdf2 | b39enc | b39dec | seterr => simp
    | _ => simp [flagDests, noFlags] at dest

/-! ## R0 as a destination (R31) -/

/-- The word of an instruction that writes a general register decodes to it, with every register as destination. -/
theorem decode_encode_of_gprDest {i : Instr} {rd : RReg} (dest : gprDest i = some rd) (legal : i.wellFormed = true) :
    decode (encode i) = .ok i := by
  cases i with
  | lui => simp [encode, decode, pure, Except.pure, bind, Except.bind]
  | ori | addi | lb | lw => simp [encode, decode, formatAB, pure, Except.pure, bind, Except.bind]
  | add | sub => simp [encode, decode, formatABC, pure, Except.pure, bind, Except.bind]
  | csrr => simp [encode, decode, legalIf, legal, bind, Except.bind]
  | _ => simp [gprDest] at dest

/-- Settles O7: R0 by its read and its write; and the eight instructions have it as their destination, so that their words
decode to them. -/
theorem registerZeroIsHardwired : Obligations.RegisterZeroIsHardwired := by
  refine ⟨fun s v => ⟨getReg_zero s, setReg_zero v s⟩, fun a b imm i named => ?_⟩
  have zeroDest : gprDest i = some 0 ∧ i.wellFormed = true := by
    rcases named with listed | ⟨rfl, hcsr⟩
    · simp only [List.mem_cons, List.not_mem_nil, or_false] at listed
      rcases listed with rfl | rfl | rfl | rfl | rfl | rfl | rfl <;> exact ⟨rfl, rfl⟩
    · exact ⟨rfl, decide_eq_true hcsr⟩
  exact decode_encode_of_gprDest zeroDest.1 zeroDest.2

end Sys2Proof.Machine
end

section
/-! PROOFS. What a host read of PC shows (R53, R572): the pcs of the trail, which every step of a run extends by the pc it
reaches, and the pcs still ahead. -/

open Sys2Proof Sys2Proof.Machine

namespace Sys2Proof.Machine

/-- The choices at a state are the pcs of its trail, then those that the run passes once the read is answered. -/
theorem pcAt_choices {s : State} {p : Byte} :
    (∃ n, pcAt n s = p) ↔ p ∈ s.pcTrail ∨ Ahead (pcAnswered s) p := by
  rw [ahead_iff]
  constructor
  · rintro ⟨n, rfl⟩
    unfold pcAt
    split_ifs with onTrail
    · rw [List.getD_eq_getElem _ _ onTrail]
      exact .inl (List.getElem_mem onTrail)
    · exact .inr ⟨_, rfl⟩
  · rintro (onTrail | ⟨n, rfl⟩)
    · obtain ⟨n, hn, rfl⟩ := List.mem_iff_getElem.1 onTrail
      exact ⟨n, by rw [pcAt, if_pos hn, List.getD_eq_getElem _ _ hn]⟩
    · exact ⟨s.pcTrail.length + n, by rw [pcAt, if_neg (by omega), Nat.add_sub_cancel_left]⟩

/-- From `s` to `t` the trail keeps its pcs and gains at most the pc now running. -/
structure TrailGrows (s t : State) : Prop where
  kept : ∀ p ∈ s.pcTrail, p ∈ t.pcTrail
  gained : ∀ p ∈ t.pcTrail, p ∈ s.pcTrail ∨ p = t.pc

namespace TrailGrows

variable {s t : State}

theorem of_eq (h : t.pcTrail = s.pcTrail) : TrailGrows s t where
  kept _ hp := h ▸ hp
  gained _ hp := .inl (h ▸ hp)

theorem goto {target : Int} (stillBusy : (goto target s).status.busy = true) : TrailGrows s (goto target s) := by
  rcases goto_cases target s with ⟨_, _, e⟩ | ⟨_, e⟩
  · rw [e]
    exact ⟨fun _ hp => mem_trailAdd.2 (.inl hp), fun _ hp => mem_trailAdd.1 hp⟩
  · rw [e] at stillBusy
    cases stillBusy

theorem endsAs {i : Instr} (e : EndsAs i s t) (stillBusy : t.status.busy = true) : TrailGrows s t := by
  cases e with
  | onward u target w ht =>
    subst ht
    have grows := goto stillBusy
    exact ⟨w.pcTrail ▸ grows.kept, w.pcTrail ▸ grows.gained⟩
  | faulted u cause info w _ _ _ ht =>
    rw [ht] at stillBusy
    cases stillBusy
  | halted rs _ ht =>
    rw [ht] at stillBusy
    cases stillBusy
  | waiting u w _ ht => exact .of_eq (ht ▸ w.pcTrail)

theorem engineTurn (h : engineTurn s = .next t) (stillBusy : t.status.busy = true) : TrailGrows s t := by
  cases engineTurn_is h with
  | idle _ ht => exact .of_eq (ht ▸ rfl)
  | aborted _ ht =>
    rw [ht] at stillBusy
    cases stillBusy
  | illegal _ ht =>
    rw [ht] at stillBusy
    cases stillBusy
  | ran _ i ends => exact endsAs ends stillBusy

theorem passBoundary (s : State) : TrailGrows s (passBoundary s) := by
  refine .of_eq ?_
  unfold Machine.passBoundary
  split_ifs <;> rfl

/-- While BUSY no write of the window starts a run. -/
theorem afterHostWrite {v : Word} (busy : s.status.busy = true) (w : AfterHostWrite v s t) : TrailGrows s t := by
  refine .of_eq ?_
  cases w with
  | ignored => rfl
  | refused => rfl
  | ctrl => rw [writeCtrl_of_busy busy]
  | entry => rw [setEntry_of_busy busy, latchHostErr_pcTrail]
  | imem => rfl
  | dmem => rfl

end TrailGrows

/-- A step of the run extends the trail, or is an answered read of `PC`, which cuts it to the pc running. -/
theorem step_trail {s t : State} (busy : s.status.busy = true) (h : step s = .next t) (stillBusy : t.status.busy = true) :
    TrailGrows s t ∨ ∃ a rest, s.env.inbox = .host a :: rest ∧ a.value = none ∧ a.addr = Config.hspBase + 0x2C ∧
      t.pcTrail = [s.pc] ∧ t.pc = s.pc := by
  cases step_is h with
  | engine rest hturn =>
    have grows := TrailGrows.engineTurn hturn stillBusy
    exact .inl ⟨grows.kept, grows.gained⟩
  | boundary rest ht =>
    have grows := TrailGrows.passBoundary (setInbox rest s)
    exact .inl ⟨ht ▸ grows.kept, ht ▸ grows.gained⟩
  | reset rest ht =>
    rw [ht] at stillBusy
    cases stillBusy
  | host a rest scheduled after =>
    cases after with
    | outside => exact .inl (.of_eq rfl)
    | write after =>
      have grows := TrailGrows.afterHostWrite (s := setInbox rest s) busy after
      exact .inl ⟨grows.kept, grows.gained⟩
    | read addr value data after =>
      cases after with
      | same => exact .inl (.of_eq rfl)
      | refused => exact .inl (.of_eq rfl)
      | pcShown hoff _ => exact .inr ⟨a, rest, scheduled, value, hoff ▸ addr, rfl, rfl⟩

/-- Settles O53: a read by the state it finds, START by the run it begins, and a step of the run by what it does to the
trail. -/
theorem pcReadsStayOnTheTrail : Obligations.PcReadsStayOnTheTrail := by
  refine ⟨fun s _ => ⟨fun idle => ?idleRead, fun busy => ?busyRead⟩, fun s v idle start => ?start,
    fun s t inv busy hstep stillBusy => ?step⟩
  case idleRead => simpa [csrValue] using hostRead_csr (c := 11) (s := s) (by decide) (.inr idle)
  case busyRead =>
    rw [hostRead_pc_busy busy]
    exact ⟨by simp [drawnPc], fun _ => pcAt_choices, rfl, rfl⟩
  case start =>
    obtain ⟨u, uIdle, hentry, e⟩ := writeCtrl_start idle start
    rw [hostWrite_ctrl, e, startRun_pcTrail_of_idle uIdle, hentry]
  case step =>
    have onTrail : t.pc ∈ t.pcTrail := (everyStepKeepsTheInvariant s t inv hstep).pcOnTrail stillBusy
    rcases step_trail busy hstep stillBusy with grows | ⟨a, rest, scheduled, value, addr, cut, samePc⟩
    · exact ⟨onTrail, grows.gained, .inl grows.kept⟩
    · exact ⟨onTrail, fun p hp => .inr (by simpa [cut, samePc] using hp), .inr ⟨a, rest, scheduled, value, addr, cut⟩⟩

end Sys2Proof.Machine
end

section
/-! PROOFS. What stops the machine (R101, R566), and how a run that is left alone goes on (R581). -/

open Sys2Proof Sys2Proof.Machine

namespace Sys2Proof.Machine

/-! ## What a move that is refused says of the world outside -/

/-- The engine's turn is refused only where the entropy source's answer has the wrong length (R566). -/
theorem engineTurn_stops (s : State) : (∃ t, engineTurn s = .next t) ∨
    (engineTurn s = .refused .answerLength ∧ ∃ bs rest rd rl, s.env.entropyIn = .bytes bs :: rest ∧
      decode (fetchWord s) = .ok (.entropy rd rl) ∧ bs.length ≠ regNat rl s) := by
  cases busy : s.status.busy with
  | false => exact .inl ⟨s, engineTurn_idle busy⟩
  | true =>
    cases due : abortDue s with
    | true => exact .inl ⟨_, engineTurn_abort busy due⟩
    | false =>
      rw [engineTurn_run busy due]
      cases hdec : decode (fetchWord s) with
      | error e => exact .inl ⟨_, runInstruction_illegal hdec⟩
      | ok i =>
        rw [runInstruction_legal hdec]
        rcases exec_stops i s with goesOn | ⟨stops, rd, rl, bs, rest, rfl, supplied, wrongLength⟩
        · exact .inl goesOn
        · exact .inr ⟨stops, bs, rest, rd, rl, supplied, rfl, wrongLength⟩

/-- A host access is refused only where it is of another width than 32 bits, or misaligned, in the window (R101). -/
theorem hostAccess_stops (shown : State → Byte) (a : BusAccess) (s : State) :
    (∃ t, hostAccess shown a s = .next t) ∨ (hostAccess shown a s = .refused .hostAccess ∧ ¬DutifulAccess a) := by
  unfold hostAccess
  cases hwin : windowOffset Config.hspBase a.addr with
  | none => exact .inl ⟨s, rfl⟩
  | some off =>
    dsimp only
    unfold windowAccess
    split_ifs with legal
    · cases a.value with
      | none => exact .inl ⟨_, rfl⟩
      | some v => exact .inl ⟨_, rfl⟩
    · exact .inr ⟨rfl, fun dutiful => legal (dutiful off hwin)⟩

theorem step_stops (s : State) : (∃ t, step s = .next t) ∨
    (step s = .refused .hostAccess ∧ ∃ a rest, s.env.inbox = .host a :: rest ∧ ¬DutifulAccess a) ∨
    (step s = .refused .answerLength ∧ ∃ bs rest rd rl, s.env.entropyIn = .bytes bs :: rest ∧
      decode (fetchWord s) = .ok (.entropy rd rl) ∧ bs.length ≠ regNat rl s) := by
  cases hbox : s.env.inbox with
  | nil =>
    rw [step_of_empty hbox]
    exact (engineTurn_stops s).imp_right .inr
  | cons m rest =>
    rw [step_of_move hbox]
    cases m with
    | host a =>
      rcases hostAccess_stops drawnPc a (setInbox rest s) with goesOn | ⟨stops, notDutiful⟩
      · exact .inl goesOn
      · exact .inr (.inl ⟨stops, a, rest, rfl, notDutiful⟩)
    | reset => exact .inl ⟨_, rfl⟩
    | boundary => exact .inl ⟨_, rfl⟩
    | engine => exact (engineTurn_stops (setInbox rest s)).imp_right .inr

/-! ## An instruction that ends in its turn -/

/-- An access to one region that fits goes on. -/
theorem withRegions_of_fits {a : Word} {n : Nat} (fits : Fits a n) (rest : State → Result) (s : State) :
    withRegions [(a, n)] rest s = rest s := withRegions_of_ok (by simpa [Fits] using fits) rest s


/-- The result is a next state in which no instruction is in progress, with the schedule of `s`. -/
def EndsNow (s : State) (r : Result) : Prop := ∃ t, r = .next t ∧ t.inFlight = false ∧ t.env.inbox = s.env.inbox

namespace EndsNow

variable {s u : State}

theorem seq (kept : u.env.inbox = s.env.inbox) : EndsNow s (.next (seqNext u)) :=
  ⟨_, rfl, seqNext_inFlight u, by rw [seqNext_env, kept]⟩

theorem branch (b : Bool) (off : BitVec 16) (s : State) : EndsNow s (.next (branchIf b off s)) :=
  ⟨_, rfl, branchIf_inFlight .., by rw [branchIf_env]⟩

theorem raise (kept : u.env.inbox = s.env.inbox) (cause : FaultCause) (info : Word) :
    EndsNow s (.next (raise cause info u)) := ⟨_, rfl, rfl, kept⟩

theorem of_regions {rs : List (Word × Nat)} {rest : State → Result}
    (hrest : (∀ r ∈ rs, r.1.toNat + r.2 ≤ 4096) → EndsNow s (rest s)) : EndsNow s (withRegions rs rest s) := by
  rcases withRegions_cases rs rest s with ⟨fit, e⟩ | ⟨a, _, e⟩ <;> rw [e]
  · exact hrest fit
  · exact .raise rfl ..

theorem of_legal {i : Instr} {rest : State → Result} (hrest : EndsNow s (rest s)) : EndsNow s (ifLegal i rest s) := by
  cases legal : i.wellFormed with
  | true => exact ifLegal_of_wellFormed legal rest s ▸ hrest
  | false => exact ifLegal_of_illegal legal rest s ▸ .raise rfl ..

end EndsNow

/-- Every instruction but the two of the ports ends in its turn. -/
theorem exec_endsNow {i : Instr} (notEntropy : ∀ rd rl, i ≠ .entropy rd rl) (notPubk : ∀ rd ks, i ≠ .pubk rd ks)
    (s : State) : EndsNow s (exec i s) := by
  cases i with
  | lui | ori | addi | add | sub | kmov | kadd | kaddm | kcmp | kchk | kred =>
    simp only [exec, execLui, execOri, execAddi, execAdd, execSub, execKmov, execKadd, execKaddm, execKcmp, execKchk,
      execKred]
    exact .seq (by simp)
  | lb | lw | sb | sw | mcpy | kld | kst | sha256 | sha512 | hmac512 =>
    simp only [exec, execLb, execLw, execSb, execSw, execMcpy, execKld, execKst, execSha256, execSha512, execHmac512]
    exact .of_regions fun _ => .seq (by simp)
  | beq | bne | bltu | bgeu | bfs | bfc => exact .branch ..
  | halt => exact ⟨_, rfl, rfl, rfl⟩
  | seterr | csrr | kldc =>
    simp only [exec, execSeterr, execCsrr, execKldc]
    exact .of_legal (.seq (by simp))
  | pbkdf2 =>
    simp only [exec, execPbkdf2]
    split
    · exact .seq rfl
    · exact .of_regions fun _ => .seq rfl
  | b39enc =>
    simp only [exec, execB39enc]
    split
    · exact .of_regions fun _ => .seq rfl
    · exact .seq rfl
  | b39dec =>
    simp only [exec, execB39dec]
    split
    · refine .of_regions fun _ => ?_
      unfold unpackInto
      split_ifs <;> exact .seq rfl
    · exact .seq rfl
  | entropy rd rl => exact absurd rfl (notEntropy rd rl)
  | pubk rd ks => exact absurd rfl (notPubk rd ks)

/-- ENTROPY of no byte, or with a region that does not fit, asks for nothing and ends in its turn (R452). -/
theorem exec_entropy_endsNow {s : State} {rd rl : RReg}
    (noRequest : regNat rl s = 0 ∨ ¬Fits (getReg rd s) (regNat rl s)) :
    EndsNow s (exec (.entropy rd rl) s) := by
  simp only [exec, execEntropy]
  refine .of_regions fun fit => ?_
  have zero : regNat rl s = 0 := noRequest.resolve_right fun notFits => notFits (fit _ (.head _))
  rw [if_pos zero]
  exact .seq rfl

/-- PUBK with a region that does not fit, or a scalar out of range, asks for nothing and ends in its turn (R454). -/
theorem exec_pubk_endsNow {s : State} {rd : RReg} {ks : KReg}
    (noRequest : ¬(Fits (getReg rd s) 33 ∧ 0 < scalarNat ks s ∧ scalarNat ks s < Config.curveOrder)) :
    EndsNow s (exec (.pubk rd ks) s) := by
  simp only [exec, execPubk]
  refine .of_regions fun fit => ?_
  rw [if_neg fun inRange => noRequest ⟨fit _ (.head _), inRange⟩]
  exact .raise rfl ..

/-- With no move scheduled and no abort due, a turn that makes no request ends its instruction. -/
theorem step_endsNow {s : State} (alone : s.env.inbox = []) (runs : RunsNow s) (noEntropy : ∀ n, ¬RequestsEntropy n s)
    (noCurve : ¬RequestsCurve s) : EndsNow s (step s) := by
  rw [step_of_empty alone, engineTurn_run runs.1 runs.abortDue_eq_false]
  cases hdec : decode (fetchWord s) with
  | error e =>
    rw [runInstruction_illegal hdec]
    exact .raise rfl ..
  | ok i =>
    rw [runInstruction_legal hdec]
    cases i with
    | entropy rd rl =>
      refine exec_entropy_endsNow (or_iff_not_and_not.2 fun asks => ?_)
      exact noEntropy _ ⟨runs, rd, rl, hdec, rfl, asks.1, not_not.1 asks.2⟩
    | pubk rd ks => exact exec_pubk_endsNow fun asks => noCurve ⟨runs, rd, ks, hdec, asks⟩
    | _ => exact exec_endsNow (by simp) (by simp) s

/-! ## Waiting for an answer, and then ending -/

theorem EndsAs.status_kept_or_idle {i : Instr} {s t : State} (e : EndsAs i s t) :
    t.status = s.status ∨ t.status.busy = false := by
  cases e with
  | onward u target w ht =>
    rcases goto_cases target u with ⟨_, _, e⟩ | ⟨_, e⟩
    · exact .inl (by rw [ht, e, arrive_status, w.status])
    · exact .inr (by rw [ht, e, raise_status])
  | faulted u cause info w _ _ _ ht => exact .inr (by rw [ht, raise_status])
  | halted rs _ ht => exact .inr (by rw [ht, endDone_status])
  | waiting u w _ ht => exact .inl (by rw [ht, keepWaiting_status, w.status])

theorem engineTurn_status {s t : State} (h : engineTurn s = .next t) :
    t.status = s.status ∨ t.status.busy = false := by
  cases engineTurn_is h with
  | idle _ ht => exact .inl (by rw [ht])
  | aborted _ ht => exact .inr (by rw [ht, abortEntry_status])
  | illegal _ ht => exact .inr (by rw [ht, raise_status])
  | ran _ i ends => exact ends.status_kept_or_idle

/-- From `s` the instruction at pc does nothing but wait up to `t`, and the step to `u` ends it; the abort latch is as
before, if the run has not ended. -/
structure WaitsThenEnds (s t u : State) : Prop where
  waits : Completes 0 s t
  onlyWaited : t = { s with env := t.env, inFlight := t.inFlight }
  ends : step t = .next u
  ended : u.inFlight = false
  alone : u.env.inbox = []
  status : u.status = s.status ∨ u.status.busy = false

theorem WaitsThenEnds.now {s : State} (alone : s.env.inbox = []) (h : EndsNow s (step s)) :
    ∃ t u, WaitsThenEnds s t u := by
  obtain ⟨u, ends, ended, inbox⟩ := h
  exact ⟨s, u, .here s, rfl, ends, ended, inbox.trans alone, engineTurn_status (step_of_empty alone ▸ ends)⟩

theorem WaitsThenEnds.later {s v t u : State} (hstep : step s = .next v)
    (hv : v = { s with env := v.env, inFlight := true }) (h : WaitsThenEnds v t u) : WaitsThenEnds s t u where
  waits := .waits hstep (by rw [hv]) h.waits
  onlyWaited := by rw [h.onlyWaited, hv]
  ends := h.ends
  ended := h.ended
  alone := h.alone
  status := by rw [show s.status = v.status by rw [hv]]; exact h.status

theorem WaitsThenEnds.completes {s t u : State} (h : WaitsThenEnds s t u) : Completes 1 s u := by
  simpa using h.waits.trans (.ends h.ends h.ended (.here u))

/-- A look at a port, `k` looks before its answer at the latest, ends the instruction, or waits and leaves fewer looks. -/
def LookSettles (Stands : Nat → State → Prop) : Prop :=
  ∀ k s, Stands k s → EndsNow s (step s) ∨
    ∃ j v, k = j + 1 ∧ step s = .next v ∧ v = { s with env := v.env, inFlight := true } ∧ Stands j v

theorem waitsThenEnds_of_looks {Stands : Nat → State → Prop} (look : LookSettles Stands)
    (alone : ∀ k s, Stands k s → s.env.inbox = []) (k : Nat) (s : State) (stands : Stands k s) :
    ∃ t u, WaitsThenEnds s t u := by
  induction k using Nat.strong_induction_on generalizing s with
  | _ k ih =>
    rcases look k s stands with ends | ⟨j, v, rfl, hstep, hv, stands'⟩
    · exact WaitsThenEnds.now (alone k s stands) ends
    · obtain ⟨t, u, h⟩ := ih j (Nat.lt_succ_self j) v stands'
      exact ⟨t, u, h.later hstep hv⟩

/-! ### The entropy source -/

/-- An ENTROPY that is due has its request standing, and the source answers it at look `k` at the latest (R450, R451). -/
structure EntropyStands (rd rl : RReg) (k : Nat) (s : State) : Prop where
  alone : s.env.inbox = []
  runs : RunsNow s
  decodes : decode (fetchWord s) = .ok (.entropy rd rl)
  nonzero : regNat rl s ≠ 0
  fits : Fits (getReg rd s) (regNat rl s)
  waiting : ∀ a ∈ s.env.entropyIn.take k, a = .waiting
  supplied : ∀ a, s.env.entropyIn[k]? = some a → a = .failed ∨ ∃ bs, a = .bytes bs ∧ bs.length = regNat rl s
  drawn : s.env.entropyIn[k]? = none → Config.portAnswers (s.env.draws + k) = true

theorem entropyAnswer_of_drawn {s : State} (noneSupplied : s.env.entropyIn = [])
    (answers : Config.portAnswers s.env.draws = true) (n : Nat) : entropyAnswer n s ≠ .waiting := by
  rw [entropyAnswer, noneSupplied]
  dsimp only
  rw [if_pos answers]
  split <;> simp

theorem exec_entropy_of_request {s : State} {rd rl : RReg} (nonzero : regNat rl s ≠ 0)
    (fits : Fits (getReg rd s) (regNat rl s)) :
    exec (.entropy rd rl) s =
      entropyFill (regNat rd s) (regNat rl s) (entropyAnswer (regNat rl s) s) (entropyLooked s) := by
  simp only [exec, execEntropy]
  rw [withRegions_of_fits fits, if_neg nonzero]

namespace EntropyStands

variable {rd rl : RReg} {k : Nat} {s : State}

theorem step_eq (h : EntropyStands rd rl k s) :
    step s = entropyFill (regNat rd s) (regNat rl s) (entropyAnswer (regNat rl s) s) (entropyLooked s) := by
  rw [step_of_empty h.alone, engineTurn_eq_exec h.runs h.decodes, exec_entropy_of_request h.nonzero h.fits]

/-- At the last look the source has an answer. -/
theorem answered (h : EntropyStands rd rl 0 s) : entropyAnswer (regNat rl s) s ≠ .waiting := by
  cases hin : s.env.entropyIn with
  | nil => exact entropyAnswer_of_drawn hin (h.drawn (by rw [hin]; rfl)) _
  | cons a rest =>
    rw [entropyAnswer_supplied hin]
    rcases h.supplied a (by rw [hin]; rfl) with rfl | ⟨bs, rfl, _⟩ <;> simp

/-- Bytes that the source gives are as many as were asked for. -/
theorem length_bytes (h : EntropyStands rd rl k s) {bs : List Byte} (hb : entropyAnswer (regNat rl s) s = .bytes bs) :
    bs.length = regNat rl s := by
  cases hin : s.env.entropyIn with
  | nil => exact entropyAnswer_drawn_length hin hb
  | cons a rest =>
    obtain rfl := (entropyAnswer_supplied hin _).symm.trans hb
    cases k with
    | zero =>
      rcases h.supplied _ (by rw [hin]; rfl) with e | ⟨bs', e, hlen⟩
      · cases e
      · cases e
        exact hlen
    | succ k => cases h.waiting (.bytes bs) (by simp [hin])

/-- After a look that found nothing the request stands, with one look fewer to go. -/
theorem looked (h : EntropyStands rd rl (k + 1) s) : EntropyStands rd rl k (keepWaiting (entropyLooked s)) where
  alone := h.alone
  runs := ⟨h.runs.1, .inr rfl⟩
  decodes := h.decodes
  nonzero := h.nonzero
  fits := h.fits
  waiting a ha := h.waiting a (by
    cases hin : s.env.entropyIn with
    | nil => simp [hin] at ha
    | cons b rest => exact List.mem_cons_of_mem _ (by simpa [hin] using ha))
  supplied a ha := h.supplied a (by simpa [List.getElem?_tail] using ha)
  drawn ha := by
    have := h.drawn (by simpa [List.getElem?_tail] using ha)
    rwa [Nat.add_comm k 1, ← Nat.add_assoc] at this

theorem look : LookSettles (EntropyStands rd rl) := by
  intro k s h
  rw [h.step_eq]
  cases hans : entropyAnswer (regNat rl s) s with
  | waiting =>
    cases k with
    | zero => exact absurd hans h.answered
    | succ k => exact .inr ⟨k, _, rfl, rfl, rfl, h.looked⟩
  | failed => exact .inl (.raise rfl ..)
  | bytes bs =>
    rw [entropyFill, if_pos (h.length_bytes hans)]
    exact .inl (.seq rfl)

end EntropyStands

/-! ### The curve port -/

/-- A PUBK that is due has its request standing, and the port answers it at look `k` at the latest (R450, R453). -/
structure CurveStands (rd : RReg) (ks : KReg) (k : Nat) (s : State) : Prop where
  alone : s.env.inbox = []
  runs : RunsNow s
  decodes : decode (fetchWord s) = .ok (.pubk rd ks)
  fits : Fits (getReg rd s) 33
  inRange : 0 < scalarNat ks s ∧ scalarNat ks s < Config.curveOrder
  supplied : ∀ a, s.env.curveIn[k]? = some a → a ≠ .waiting
  drawn : s.env.curveIn[k]? = none → Config.portAnswers (s.env.draws + k) = true

theorem curveAnswer_of_drawn {s : State} (noneSupplied : s.env.curveIn = [])
    (answers : Config.portAnswers s.env.draws = true) : curveAnswer s ≠ .waiting := by
  rw [curveAnswer, noneSupplied]
  dsimp only
  rw [if_pos answers]
  split <;> simp

theorem exec_pubk_of_request {s : State} {rd : RReg} {ks : KReg} (fits : Fits (getReg rd s) 33)
    (inRange : 0 < scalarNat ks s ∧ scalarNat ks s < Config.curveOrder) :
    exec (.pubk rd ks) s = .next (curveFill (regNat rd s) (getK ks s) (curveAnswer s) (curveLooked s)) := by
  simp only [exec, execPubk]
  rw [withRegions_of_fits fits, if_pos inRange]

namespace CurveStands

variable {rd : RReg} {ks : KReg} {k : Nat} {s : State}

theorem step_eq (h : CurveStands rd ks k s) :
    step s = .next (curveFill (regNat rd s) (getK ks s) (curveAnswer s) (curveLooked s)) := by
  rw [step_of_empty h.alone, engineTurn_eq_exec h.runs h.decodes, exec_pubk_of_request h.fits h.inRange]

/-- At the last look the port has an answer. -/
theorem answered (h : CurveStands rd ks 0 s) : curveAnswer s ≠ .waiting := by
  cases hin : s.env.curveIn with
  | nil => exact curveAnswer_of_drawn hin (h.drawn (by rw [hin]; rfl))
  | cons a rest =>
    rw [curveAnswer_supplied hin]
    exact h.supplied a (by rw [hin]; rfl)

/-- After a look that found nothing the request stands, with one look fewer to go. -/
theorem looked (h : CurveStands rd ks (k + 1) s) : CurveStands rd ks k (keepWaiting (curveLooked s)) where
  alone := h.alone
  runs := ⟨h.runs.1, .inr rfl⟩
  decodes := h.decodes
  fits := h.fits
  inRange := h.inRange
  supplied a ha := h.supplied a (by simpa [List.getElem?_tail] using ha)
  drawn ha := by
    have := h.drawn (by simpa [List.getElem?_tail] using ha)
    rwa [Nat.add_comm k 1, ← Nat.add_assoc] at this

theorem look : LookSettles (CurveStands rd ks) := by
  intro k s h
  rw [h.step_eq]
  cases hans : curveAnswer s with
  | waiting =>
    cases k with
    | zero => exact absurd hans h.answered
    | succ k => exact .inr ⟨k, _, rfl, rfl, rfl, h.looked⟩
  | failed => exact .inl (.raise rfl ..)
  | point => exact .inl (.seq rfl)

end CurveStands

/-! ## Progress (R581) -/

theorem AnswersEntropy.stands {s : State} {rd rl : RReg} (alone : s.env.inbox = []) (runs : RunsNow s)
    (decodes : decode (fetchWord s) = .ok (.entropy rd rl)) (nonzero : regNat rl s ≠ 0)
    (fits : Fits (getReg rd s) (regNat rl s)) (h : AnswersEntropy (regNat rl s) s) : ∃ k, EntropyStands rd rl k s := by
  obtain ⟨k, waiting, answer⟩ := h
  exact ⟨k, alone, runs, decodes, nonzero, fits, waiting, fun a ha => by rw [ha] at answer; exact answer,
    fun ha => by rw [ha] at answer; exact answer⟩

theorem AnswersCurve.stands {s : State} {rd : RReg} {ks : KReg} (alone : s.env.inbox = []) (runs : RunsNow s)
    (decodes : decode (fetchWord s) = .ok (.pubk rd ks)) (fits : Fits (getReg rd s) 33)
    (inRange : 0 < scalarNat ks s ∧ scalarNat ks s < Config.curveOrder) (h : AnswersCurve s) :
    ∃ k, CurveStands rd ks k s := by
  obtain ⟨k, answer⟩ := h
  exact ⟨k, alone, runs, decodes, fits, inRange, fun a ha => by rw [ha] at answer; exact answer,
    fun ha => by rw [ha] at answer; exact answer⟩

/-- An instruction whose request, if it makes one, is answered eventually ends, having done nothing but wait before. -/
theorem waitsThenEnds_of_answered {s : State} (alone : s.env.inbox = []) (runs : RunsNow s)
    (answered : RequestAnswered s) : ∃ t u, WaitsThenEnds s t u := by
  by_cases asksEntropy : ∃ n, RequestsEntropy n s
  · obtain ⟨n, request⟩ := asksEntropy
    have answers := answered.1 n request
    obtain ⟨_, rd, rl, decodes, rfl, nonzero, fits⟩ := request
    obtain ⟨k, stands⟩ := answers.stands alone runs decodes nonzero fits
    exact waitsThenEnds_of_looks EntropyStands.look (fun _ _ h => h.alone) k s stands
  · by_cases asksCurve : RequestsCurve s
    · have answers := answered.2 asksCurve
      obtain ⟨_, rd, ks, decodes, fits, inRange⟩ := asksCurve
      obtain ⟨k, stands⟩ := answers.stands alone runs decodes fits inRange
      exact waitsThenEnds_of_looks CurveStands.look (fun _ _ h => h.alone) k s stands
    · exact WaitsThenEnds.now alone (step_endsNow alone runs (not_exists.1 asksEntropy) asksCurve)

theorem step_of_abortDue {s : State} (alone : s.env.inbox = []) (busy : s.status.busy = true)
    (due : abortDue s = true) : step s = .next (abortEntry s) := by
  rw [step_of_empty alone, engineTurn_abort busy due]

theorem runsNow_of_not_due {s : State} (busy : s.status.busy = true) (notDue : abortDue s = false) : RunsNow s := by
  refine ⟨busy, ?_⟩
  simpa [abortDue, or_iff_not_imp_left] using notDue

/-- A latched abort ends the run: at once at a boundary, else once the instruction in progress has ended (R515). -/
theorem reaches_idle_of_abort {s : State} (alone : s.env.inbox = []) (busy : s.status.busy = true)
    (abort : s.status.abortReq = true) (answered : RequestAnswered s) : ∃ u, Reaches s u ∧ u.status.busy = false := by
  cases due : abortDue s with
  | true => exact ⟨_, .later (step_of_abortDue alone busy due) (.here _), rfl⟩
  | false =>
    obtain ⟨t, u, h⟩ := waitsThenEnds_of_answered alone (runsNow_of_not_due busy due) answered
    have reached : Reaches s u := h.completes.reaches
    rcases h.status with kept | idle
    · have uBusy : u.status.busy = true := by rw [kept, busy]
      have uDue : abortDue u = true := by simp [abortDue, kept, abort, h.ended]
      exact ⟨_, reached.trans (.later (step_of_abortDue h.alone uBusy uDue) (.here _)), rfl⟩
    · exact ⟨u, reached, idle⟩

/-- Under the premise of R581 the run ends, or another instruction completes. -/
theorem Fair.completes_one {s : State} (fair : Fair s) (alone : s.env.inbox = []) (busy : s.status.busy = true) :
    ∃ u, Completes 1 s u ∧ u.env.inbox = [] := by
  cases due : abortDue s with
  | true => exact ⟨_, .ends (step_of_abortDue alone busy due) rfl (.here _), alone⟩
  | false =>
    obtain ⟨t, u, h⟩ := waitsThenEnds_of_answered alone (runsNow_of_not_due busy due) (fair.now alone)
    exact ⟨u, h.completes, h.alone⟩

theorem Fair.completes (n : Nat) {s : State} (fair : Fair s) (alone : s.env.inbox = []) (busy : s.status.busy = true) :
    ∃ m u, m ≤ n ∧ Completes m s u ∧ (u.status.busy = false ∨ m = n) := by
  induction n generalizing s with
  | zero => exact ⟨0, s, le_rfl, .here s, .inr rfl⟩
  | succ n ih =>
    obtain ⟨t, one, tAlone⟩ := fair.completes_one alone busy
    cases tBusy : t.status.busy with
    | false => exact ⟨1, t, by omega, one, .inl tBusy⟩
    | true =>
      obtain ⟨m, u, hm, more, last⟩ := ih (fair.later one.reaches) tAlone tBusy
      exact ⟨1 + m, u, by omega, one.trans more, last.imp_right (by omega)⟩

/-- Settles O60: a refusal by the move that it refuses; progress by the looks at the port, one induction for both ports. -/
theorem onlyABrokenDutyStopsTheMachine : Obligations.OnlyABrokenDutyStopsTheMachine := by
  refine ⟨step_stops, fun s alone busy => ⟨fun runs i decodes notEntropy notPubk => ?plain,
    fun runs noEntropy noCurve => ?noRequest, fun runs answered => ?answered,
    reaches_idle_of_abort alone busy, fun fair n => fair.completes n alone busy⟩⟩
  case plain =>
    obtain ⟨u, next, ended, _⟩ := exec_endsNow notEntropy notPubk s
    exact ⟨u, by rw [step_of_empty alone, engineTurn_eq_exec runs decodes, next], ended⟩
  case noRequest =>
    obtain ⟨u, next, ended, _⟩ := step_endsNow alone runs noEntropy noCurve
    exact ⟨u, next, ended⟩
  case answered =>
    obtain ⟨t, u, h⟩ := waitsThenEnds_of_answered alone runs answered
    exact ⟨t, u, h.waits.reaches, h.onlyWaited, h.ends, h.ended⟩

end Sys2Proof.Machine
end

section
/-! PROOFS. DMEM and IMEM as the instructions reach them (R91 to R98): what no instruction writes, the loads and stores by
effective address, and the byte that a later load sees. -/

open Sys2Proof Sys2Proof.Machine

namespace Sys2Proof.Machine

/-! ## What no instruction writes (R92, R253) -/

@[simp] theorem goto_hostErr (target : Int) (s : State) : (goto target s).status.hostErr = s.status.hostErr := by
  rcases goto_cases target s with ⟨_, _, e⟩ | ⟨_, e⟩ <;> rw [e]
  · rw [arrive_status]
  · rw [raise_status]

/-- IMEM, ENTRY, IE and HOSTERR are the same in both states. -/
structure HostStateKept (s t : State) : Prop where
  imem : t.imem = s.imem
  entry : t.entry = s.entry
  ie : t.ie = s.ie
  hostErr : t.status.hostErr = s.status.hostErr

theorem OwnWrites.hostStateKept {s u : State} (w : OwnWrites s u) : HostStateKept s u :=
  ⟨w.imem, w.entry, w.ie, by rw [w.status]⟩

theorem EndsAs.hostStateKept {i : Instr} {s t : State} (e : EndsAs i s t) : HostStateKept s t := by
  cases e with
  | onward u target w ht =>
    have own := w.hostStateKept
    exact ht ▸ ⟨by simp [own.imem], by simp [own.entry], by simp [own.ie], by simp [own.hostErr]⟩
  | faulted u cause info w _ _ _ ht =>
    have own := w.hostStateKept
    exact ht ▸ ⟨own.imem, own.entry, own.ie, own.hostErr⟩
  | halted rs _ ht => exact ht ▸ ⟨rfl, rfl, rfl, rfl⟩
  | waiting u w _ ht =>
    have own := w.hostStateKept
    exact ht ▸ ⟨own.imem, own.entry, own.ie, own.hostErr⟩

/-- Settles O10, by the four ends of an instruction. -/
theorem noInstructionWritesTheHostsState : Obligations.NoInstructionWritesTheHostsState := by
  intro i s t h
  have kept := (exec_ends h).hostStateKept
  exact ⟨fun n => by rw [imemWord, imemWord, kept.imem], kept.entry, kept.ie, kept.hostErr⟩

/-! ## Loads and stores by effective address -/

theorem exec_lw_of_fits {s : State} {rb : RReg} {off : BitVec 16} (fits : Fits (effAddr (getReg rb s) off) 4)
    (rd : RReg) :
    exec (.lw rd rb off) s =
      .next (seqNext (setReg rd (BitVec.ofNat 32 (intBE (memRead (effAddr (getReg rb s) off).toNat 4 s))) s)) := by
  rw [exec, execLw]
  exact withRegions_of_fits fits _ s

theorem exec_kld_of_fits {s : State} {rb : RReg} {off : BitVec 16} (fits : Fits (effAddr (getReg rb s) off) 32)
    (kd : KReg) :
    exec (.kld kd rb off) s =
      .next (seqNext (setK kd (BitVec.ofNat 256 (intBE (memRead (effAddr (getReg rb s) off).toNat 32 s))) s)) := by
  rw [exec, execKld]
  exact withRegions_of_fits fits _ s

theorem exec_sb_of_fits {s : State} {rb : RReg} {off : BitVec 16} (fits : Fits (effAddr (getReg rb s) off) 1)
    (rt : RReg) :
    exec (.sb rt rb off) s =
      .next (seqNext (memWrite (effAddr (getReg rb s) off).toNat (beBytes 1 (regNat rt s)) s)) := by
  rw [exec, execSb]
  exact withRegions_of_fits fits _ s

theorem exec_sw_of_fits {s : State} {rb : RReg} {off : BitVec 16} (fits : Fits (effAddr (getReg rb s) off) 4)
    (rt : RReg) :
    exec (.sw rt rb off) s =
      .next (seqNext (memWrite (effAddr (getReg rb s) off).toNat (beBytes 4 (regNat rt s)) s)) := by
  rw [exec, execSw]
  exact withRegions_of_fits fits _ s

/-- An instruction over one region that does not fit raises DMEM_BOUNDS with its start. -/
theorem FaultsAt.of_region {i : Instr} {s : State} {a : Word} {n : Nat} {rest : State → Result}
    (h : exec i s = withRegions [(a, n)] rest s) (notFits : ¬Fits a n) : FaultsAt i .dmemBounds a s :=
  ReportsFirstBad.of_regions h [] a n [] rfl (by simp) notFits

/-- Settles O17: each of the six accesses checks the one region at its effective address. -/
theorem outOfBoundsAccessFaultsPrecisely : Obligations.OutOfBoundsAccessFaultsPrecisely := by
  intro s rd rb k off
  refine ⟨fun bad => ⟨.of_region (by rw [exec, execLb]) bad, .of_region (by rw [exec, execSb]) bad⟩,
    fun bad => ⟨.of_region (by rw [exec, execLw]) bad, .of_region (by rw [exec, execSw]) bad⟩,
    fun bad => ⟨.of_region (by rw [exec, execKld]) bad, .of_region (by rw [exec, execKst]) bad⟩⟩

/-! ## One byte of a region, and the integer of the region (R11, R97) -/

/-- The byte with `ys.length` bytes after it is that digit, base 256, of the integer. -/
theorem intBE_digit (xs : List Byte) (b : Byte) (ys : List Byte) :
    intBE (xs ++ b :: ys) / 256 ^ ys.length % 256 = b.toNat := by
  have split : intBE (xs ++ b :: ys) = intBE ys + (intBE xs * 256 + b.toNat) * 256 ^ ys.length := by
    rw [intBE_append, intBE_cons, List.length_cons, pow_succ]
    ring
  rw [split, Nat.add_mul_div_right _ _ (by positivity), Nat.div_eq_of_lt (intBE_lt ys)]
  have := b.isLt
  omega

theorem memRead_succ (a n : Nat) (s : State) : memRead a (n + 1) s = dmemByte s a :: memRead (a + 1) n s := rfl

/-- A region read, cut at one of its bytes. -/
theorem memRead_cut (a i j : Nat) (s : State) :
    memRead a (i + (j + 1)) s = memRead a i s ++ dmemByte s (a + i) :: memRead (a + i + 1) j s := by
  induction i generalizing a with
  | zero => simp [memRead, readCells, dmemByte]
  | succ i ih =>
    rw [show i + 1 + (j + 1) = i + (j + 1) + 1 by omega, memRead_succ, ih, memRead_succ,
      show a + 1 + i = a + (i + 1) by omega]
    rfl

theorem intBE_memRead_digit {i n : Nat} (h : i < n) (a : Nat) (s : State) :
    intBE (memRead a n s) / 256 ^ (n - 1 - i) % 256 = (dmemByte s (a + i)).toNat := by
  obtain ⟨j, rfl⟩ : ∃ j, n = i + (j + 1) := ⟨n - i - 1, by omega⟩
  have digit := intBE_digit (memRead a i s) (dmemByte s (a + i)) (memRead (a + i + 1) j s)
  rw [show i + (j + 1) - 1 - i = j by omega]
  rwa [length_memRead, ← memRead_cut] at digit

theorem intBE_memRead_lt (a n : Nat) (s : State) : intBE (memRead a n s) < 256 ^ n := by
  simpa using intBE_lt (memRead a n s)

/-- SB leaves the low byte of its register at its address. -/
theorem dmemByte_of_exec_sb {s t : State} {rt rb : RReg} {off : BitVec 16} (fits : Fits (effAddr (getReg rb s) off) 1)
    (h : exec (.sb rt rb off) s = .next t) :
    (dmemByte t (effAddr (getReg rb s) off).toNat).toNat = regNat rt s % 256 := by
  rw [exec_sb_of_fits fits] at h
  obtain rfl := Host.Outcome.next.inj h
  simp [dmemByte_memWrite, beBytes]

/-- Settles O16: byte `a - b` of the loaded value is the byte of DMEM at `a`, which SB has just stored. -/
theorem laterLoadsSeeTheStoredByte : Obligations.LaterLoadsSeeTheStoredByte := by
  intro s t rt rb rd rb2 kd off off2 _ fits stored a b ha hb hba
  subst ha hb
  rw [← dmemByte_of_exec_sb fits stored]
  generalize (effAddr (getReg rb s) off).toNat = a at hba ⊢
  have loadedByte (n : Nat) (h : a < (effAddr (getReg rb2 t) off2).toNat + n) :
      intBE (memRead (effAddr (getReg rb2 t) off2).toNat n t) /
        256 ^ (n - 1 - (a - (effAddr (getReg rb2 t) off2).toNat)) % 256 = (dmemByte t a).toNat := by
    rw [intBE_memRead_digit (by omega), Nat.add_sub_cancel' hba]
  constructor
  · intro covers loadFits
    refine ⟨_, exec_lw_of_fits loadFits rd, fun notR0 => ?_⟩
    rw [regNat_seqNext, regNat, getReg_setReg_same notR0, BitVec.toNat_ofNat,
      Nat.mod_eq_of_lt (b := 2 ^ 32) (intBE_memRead_lt _ 4 t)]
    exact loadedByte 4 covers
  · intro covers loadFits
    refine ⟨_, exec_kld_of_fits loadFits kd, ?_⟩
    rw [scalarNat_seqNext, scalarNat, getK_setK_same, BitVec.toNat_ofNat,
      Nat.mod_eq_of_lt (b := 2 ^ 256) (intBE_memRead_lt _ 32 t)]
    exact loadedByte 32 covers

end Sys2Proof.Machine
end

section
/-! PROOFS. The host window's memories (20_memory.md, R100 to R104): a host access as a step, the words of DMEM and IMEM
while idle, and the refusals while BUSY. -/

open Sys2Proof Sys2Proof.Machine

namespace Sys2Proof.Machine

/-! ## A host access as a step (R100, R101) -/

theorem windowOffset_outside {base addr : Nat} (h : addr < base ∨ base + 0x2000 ≤ addr) :
    windowOffset base addr = none := by
  rw [windowOffset, if_neg]
  simp only [Config.windowSize]
  omega

theorem step_of_hostMove {s : State} {a : BusAccess} {rest : List Move} (h : s.env.inbox = .host a :: rest) :
    step s = hostAccess drawnPc a (setInbox rest s) := by
  rw [step_of_move h, takeMove]

theorem hostAccess_outside {a : BusAccess} (h : a.addr < Config.hspBase ∨ Config.hspBase + 0x2000 ≤ a.addr)
    (shown : State → Byte) (s : State) : hostAccess shown a s = .next s := by
  rw [hostAccess, windowOffset_outside h]

theorem hostAccess_window {a : BusAccess} {off : Nat} (addr : a.addr = Config.hspBase + off) (inWindow : off < 0x2000)
    (shown : State → Byte) (s : State) : hostAccess shown a s = windowAccess shown off a.width a.value s := by
  rw [hostAccess, addr, windowOffset_window inWindow]

theorem windowAccess_read {off : Nat} (aligned : off % 4 = 0) (s : State) :
    windowAccess drawnPc off 4 none s = .next (setBusData (hostRead off s).1 (hostRead off s).2) :=
  if_pos ⟨rfl, aligned⟩

theorem windowAccess_write {off : Nat} (aligned : off % 4 = 0) (shown : State → Byte) (v : Word) (s : State) :
    windowAccess shown off 4 (some v) s = .next (hostWrite off v s) :=
  if_pos ⟨rfl, aligned⟩

theorem windowAccess_refused {off width : Nat} (h : off % 4 ≠ 0 ∨ width ≠ 4) (shown : State → Byte)
    (value : Option Word) (s : State) : windowAccess shown off width value s = .refused .hostAccess :=
  if_neg fun legal => h.elim (· legal.2) (· legal.1)

/-- Settles O46. -/
theorem hostAccessesAreSteps : Obligations.HostAccessesAreSteps := by
  intro s a rest scheduled
  rw [step_of_hostMove scheduled]
  refine ⟨fun off addr inWindow => ?window, fun outside => hostAccess_outside outside _ _⟩
  case window =>
    rw [hostAccess_window addr inWindow]
    refine ⟨fun aligned width => ⟨fun isRead => ?read, fun v isWrite => ?write⟩,
      fun illegal => windowAccess_refused illegal ..⟩
    case read => rw [width, isRead, windowAccess_read aligned]
    case write => rw [width, isWrite, windowAccess_write aligned]

/-! ## The parts of the window that are memory, idle and BUSY (R102 to R104) -/

theorem windowPart_imem {i : Nat} (h : i < 256) : windowPart (0x400 + 4 * i) = .imem i := by
  rw [windowPart, if_neg (by omega), if_neg (by omega), if_pos (by omega), Nat.add_sub_cancel_left,
    Nat.mul_div_cancel_left i (by decide)]

theorem windowPart_dmem (j : Nat) : windowPart (0x1000 + 4 * j) = .dmem (4 * j) := by
  rw [windowPart, if_neg (by omega), if_neg (by omega), if_neg (by omega), if_neg (by omega), Nat.add_sub_cancel_left,
    Nat.mul_div_cancel_left j (by decide)]

theorem hostRead_imem_of_idle {s : State} (idle : s.status.busy = false) {i : Nat} (h : i < 256) :
    hostRead (0x400 + 4 * i) s = (imemWord s i, s) := by
  rw [hostRead, hostAnswer, windowPart_imem h]
  exact if_neg (by simp [idle])

theorem hostWrite_imem_of_idle {s : State} (idle : s.status.busy = false) {i : Nat} (h : i < 256) (v : Word) :
    hostWrite (0x400 + 4 * i) v s = setImem i v s := by
  rw [hostWrite, windowPart_imem h]
  exact if_neg (by simp [idle])

theorem hostRead_dmem_of_idle {s : State} (idle : s.status.busy = false) (j : Nat) :
    hostRead (0x1000 + 4 * j) s = (BitVec.ofNat 32 (intBE (memRead (4 * j) 4 s)), s) := by
  rw [hostRead, hostAnswer, windowPart_dmem]
  exact if_neg (by simp [idle])

theorem hostWrite_dmem_of_idle {s : State} (idle : s.status.busy = false) (j : Nat) (v : Word) :
    hostWrite (0x1000 + 4 * j) v s = memWrite (4 * j) (beBytes 4 v.toNat) s := by
  rw [hostWrite, windowPart_dmem]
  exact if_neg (by simp [idle])

/-- While BUSY an access to a memory is refused, read or written. -/
theorem host_memory_of_busy {s : State} (busy : s.status.busy = true) {off : Nat}
    (hpart : (∃ i, windowPart off = .imem i) ∨ ∃ a, windowPart off = .dmem a) (v : Word) :
    hostRead off s = (0#32, latchHostErr s) ∧ hostWrite off v s = latchHostErr s := by
  rcases hpart with ⟨i, hpart⟩ | ⟨a, hpart⟩ <;> simp [hostRead, hostAnswer, hostWrite, hpart, busy]

theorem windowPart_memory {off : Nat} (aligned : off % 4 = 0)
    (h : (0x400 ≤ off ∧ off < 0x800) ∨ (0x1000 ≤ off ∧ off < 0x2000)) :
    (∃ i, windowPart off = .imem i) ∨ ∃ a, windowPart off = .dmem a := by
  rcases h with ⟨lo, hi⟩ | ⟨lo, hi⟩
  · obtain ⟨i, rfl⟩ : ∃ i, off = 0x400 + 4 * i := ⟨(off - 0x400) / 4, by omega⟩
    exact .inl ⟨i, windowPart_imem (by omega)⟩
  · obtain ⟨j, rfl⟩ : ∃ j, off = 0x1000 + 4 * j := ⟨(off - 0x1000) / 4, by omega⟩
    exact .inr ⟨4 * j, windowPart_dmem j⟩

/-- Settles O48. -/
theorem hostReadsAndWritesImem : Obligations.HostReadsAndWritesImem := by
  intro s i v idle hi
  rw [hostWrite_imem_of_idle idle hi]
  exact ⟨hostRead_imem_of_idle idle hi, imemWord_setImem s i v, rfl⟩

/-! ## While BUSY (R104) -/

/-- No read of a CSR changes STATUS, that of `PC` while BUSY neither. -/
theorem hostRead_csr_status {c : Nat} (hc : c < 14) (s : State) : (hostRead (4 * c) s).2.status = s.status := by
  by_cases quiet : c ≠ 11 ∨ s.status.busy = false
  · rw [hostRead_csr hc quiet]
  · obtain ⟨rfl, busy⟩ : c = 11 ∧ s.status.busy = true := by simpa using quiet
    rw [hostRead_pc_busy busy, pcAnswered_status]

/-- Settles O49: the memories by their part of the window, the CSRs by their numbers, `CTRL` by what a write while BUSY
leaves as a whole. -/
theorem memoriesAreRefusedWhileBusy : Obligations.MemoriesAreRefusedWhileBusy := by
  intro s off v busy aligned
  obtain ⟨c, rfl⟩ : ∃ c, off = 4 * c := ⟨off / 4, by omega⟩
  refine ⟨fun inMemory => host_memory_of_busy busy (windowPart_memory aligned inMemory) v,
    fun isCsr => hostRead_csr_status (by omega) s, fun isCsr notPc => ?csrRead,
    fun isCsr notCtrl notEntry => hostWrite_readOnly (by omega) (by omega) (by omega) v s,
    setEntry_of_busy busy v, fun noStart noZeroize => ?ctrl, fun refused => ?startOrZeroize⟩
  case csrRead => rw [hostRead_csr (by omega) (.inl (by omega)), Nat.mul_div_cancel_left c (by decide)]
  case ctrl => simp only [hostWrite_ctrl, writeCtrl_of_busy busy, noStart, noZeroize, Bool.or_false]
  case startOrZeroize => rcases refused with set | set <;> simp [hostWrite_ctrl, writeCtrl_of_busy busy, set]

/-! ## Host words of DMEM and the words of LW and SW (R102) -/

/-- An instruction that writes one general register and goes on. -/
theorem WritesReg.of_exec {i : Instr} {rd : RReg} {v : Word} {s : State} (hpc : s.pc.toNat < 255)
    (h : exec i s = .next (seqNext (setReg rd v s))) : WritesReg i rd v.toNat s := by
  refine ⟨_, h, ?_, .seqNext hpc (.setReg rd v s) (.setReg rd v s) (setReg_env s rd v), ?_, ?_⟩
  · rw [getReg_seqNext, getReg_setReg]
    by_cases isR0 : rd = 0 <;> simp [isR0]
  · rw [seqNext_flags, setReg_flags]
  · rw [seqNext_err, setReg_err]

theorem toNat_append_byte {w : Nat} (x : BitVec w) (b : Byte) : (x ++ b).toNat = x.toNat * 256 + b.toNat := by
  rw [BitVec.toNat_append, ← Nat.shiftLeft_add_eq_or_of_lt b.isLt, Nat.shiftLeft_eq]

/-- The word of four bytes, most significant first. -/
theorem ofNat_intBE_four (b0 b1 b2 b3 : Byte) : BitVec.ofNat 32 (intBE [b0, b1, b2, b3]) = b0 ++ b1 ++ b2 ++ b3 := by
  apply BitVec.eq_of_toNat_eq
  have := b0.isLt
  have := b1.isLt
  have := b2.isLt
  have := b3.isLt
  simp only [BitVec.toNat_ofNat, intBE, List.foldl, toNat_append_byte]
  omega

theorem memRead_four (a : Nat) (s : State) :
    memRead a 4 s = [dmemByte s a, dmemByte s (a + 1), dmemByte s (a + 2), dmemByte s (a + 3)] := rfl

theorem ofNat_byte_eq_extractLsb' (v : Word) (i : Nat) : BitVec.ofNat 8 (v.toNat / 2 ^ i) = v.extractLsb' i 8 := by
  apply BitVec.eq_of_toNat_eq
  rw [BitVec.toNat_ofNat, BitVec.extractLsb'_toNat, Nat.shiftRight_eq_div_pow]

/-- The bytes of a word, most significant first. -/
theorem beBytes_four (v : Word) :
    beBytes 4 v.toNat = [v.extractLsb' 24 8, v.extractLsb' 16 8, v.extractLsb' 8 8, v.extractLsb' 0 8] := by
  simp only [beBytes, ofNat_byte_eq_extractLsb', Nat.reduceMul]

/-- An offset from R0 that fits in DMEM is the address. -/
theorem toNat_effAddr_zero {a : Nat} (h : a < 2 ^ 15) (s : State) :
    (effAddr (getReg 0 s) (BitVec.ofNat 16 a)).toNat = a := by
  have positive : (BitVec.ofNat 16 a).msb = false := by
    rw [BitVec.msb_eq_decide, BitVec.toNat_ofNat]
    simp
    omega
  rw [getReg_zero, effAddr, sextImm, BitVec.zero_add, BitVec.signExtend_eq_setWidth_of_msb_false positive,
    BitVec.toNat_setWidth, BitVec.toNat_ofNat]
  omega

/-- Settles O47: the host's word and that of LW are the integer of the same four bytes, and the host's write and SW write
the same bytes. -/
theorem hostDmemLanesAreBigEndian : Obligations.HostDmemLanesAreBigEndian := by
  intro s j v idle hj
  have addr : (effAddr (getReg 0 s) (BitVec.ofNat 16 (4 * j))).toNat = 4 * j := toNat_effAddr_zero (by omega) s
  have fits : Fits (effAddr (getReg 0 s) (BitVec.ofNat 16 (4 * j))) 4 := by
    rw [Fits, addr]
    omega
  have lane (i : Nat) (hi : i < 4) :
      dmemByte (hostWrite (0x1000 + 4 * j) v s) (4 * j + i) = (beBytes 4 v.toNat).getD i 0#8 := by
    rw [hostWrite_dmem_of_idle idle, dmemByte_memWrite_inside (by rwa [length_beBytes])]
  rw [beBytes_four] at lane
  refine ⟨?read, lane 0 (by decide), lane 1 (by decide), lane 2 (by decide), lane 3 (by decide), ?outside, ?rest,
    fun rd hpc => ?lw, fun rt => ?sw⟩
  case read => rw [hostRead_dmem_of_idle idle, memRead_four, ofNat_intBE_four]
  case outside =>
    intro a outside
    rw [hostWrite_dmem_of_idle idle, dmemByte_memWrite_outside (by rwa [length_beBytes])]
  case rest => rw [hostWrite_dmem_of_idle idle, memWrite]
  case lw =>
    rw [hostRead_dmem_of_idle idle]
    exact .of_exec hpc (by rw [exec_lw_of_fits fits, addr])
  case sw =>
    refine ⟨_, exec_sw_of_fits fits rt, fun a => ?_⟩
    rw [dmemByte_seqNext, addr, hostWrite_dmem_of_idle idle, regNat]

end Sys2Proof.Machine
end

section
/-! PROOFS. The encoding (30_encoding.md): the encoder, the decoder and the opcode table agree. One circle of three
implications says it: a word that decodes is admitted by a row of the table (`exists_row_of_decode`), a word that a row
admits is the word of a legal instruction (`exists_encodes_of_row`), and the word of a legal instruction decodes to it
(`decode_encode`). -/

open Sys2Proof Sys2Proof.Machine

namespace Sys2Proof.Machine

/-- `w` is the word of the legal instruction `i`. -/
def Encodes (i : Instr) (w : Word) : Prop := i.wellFormed = true ∧ encode i = w

/-! ## The fields of a word as bits of the table -/

theorem toNat_opcode (w : Word) : (opcode w).toNat = bitsAt w 26 6 := toNat_field w 26 6

theorem toNat_fieldA (w : Word) : (fieldA w).toNat = bitsAt w 22 4 := toNat_field w 22 4

theorem toNat_fieldB (w : Word) : (fieldB w).toNat = bitsAt w 18 4 := toNat_field w 18 4

theorem toNat_fieldC (w : Word) : (fieldC w).toNat = bitsAt w 14 4 := toNat_field w 14 4

theorem toNat_imm16 (w : Word) : (imm16 w).toNat = bitsAt w 0 16 := toNat_field w 0 16

/-- Field B and R133's two bits stand side by side. -/
theorem bitsAt_unusedB {w : Word} : bitsAt w 16 6 = 0 ↔ bitsAt w 18 4 = 0 ∧ bitsAt w 16 2 = 0 := by
  unfold bitsAt
  omega

/-- So do fields A and B and R133's two bits. -/
theorem bitsAt_unusedAB {w : Word} :
    bitsAt w 16 10 = 0 ↔ bitsAt w 22 4 = 0 ∧ bitsAt w 18 4 = 0 ∧ bitsAt w 16 2 = 0 := by
  unfold bitsAt
  omega

/-! ## The conditions of R141 items 6 to 8 as bits of the word -/

theorem wellFormed_seterr_imm16 {w : Word} : (Instr.seterr (imm16 w)).wellFormed = true ↔ bitsAt w 8 8 = 0 := by
  rw [Instr.wellFormed, beq_iff_eq, ← BitVec.toNat_inj, toNat_field, toNat_imm16, BitVec.toNat_zero]
  unfold bitsAt
  omega

theorem wellFormed_csrr_imm16 {w : Word} {rd : RReg} :
    (Instr.csrr rd (imm16 w)).wellFormed = true ↔ bitsAt w 0 16 < 14 := by
  rw [Instr.wellFormed, decide_eq_true_iff, toNat_imm16, Nat.lt_succ_iff]

theorem wellFormed_kldc_imm16 {w : Word} {kd : KReg} :
    (Instr.kldc kd (imm16 w)).wellFormed = true ↔ bitsAt w 0 16 < 2 := by
  rw [Instr.wellFormed, decide_eq_true_iff, toNat_imm16, Nat.lt_succ_iff]

/-! ## Scalar and condition fields (R137, R138): the numbers that name one -/

theorem toNat_lt_of_asScalar {f : BitVec 4} {k : KReg} (h : asScalar f = .ok k) : f.toNat < 8 := by
  have small : ∀ k : KReg, (scalarField k).toNat < 8 := by decide
  exact scalarField_of_asScalar h ▸ small k

theorem toNat_lt_of_asCond {f : BitVec 4} {cond : Cond} (h : asCond f = .ok cond) : f.toNat < 5 := by
  rw [← condField_of_asCond h]
  cases cond <;> decide

theorem exists_scalarField_eq {f : BitVec 4} (h : f.toNat < 8) : ∃ k, scalarField k = f :=
  ⟨⟨f.toNat, h⟩, by simp [scalarField]⟩

theorem exists_condField_eq {f : BitVec 4} (h : f.toNat < 5) : ∃ cond, condField cond = f := by
  have named : f = 0#4 ∨ f = 1#4 ∨ f = 2#4 ∨ f = 3#4 ∨ f = 4#4 := by bv_omega
  obtain rfl | rfl | rfl | rfl | rfl := named
  exacts [⟨.z, rfl⟩, ⟨.c, rfl⟩, ⟨.lt, rfl⟩, ⟨.v, rfl⟩, ⟨.e, rfl⟩]

/-! ## From an instruction to its word and back: each format reads the fields that the encoder wrote -/

section FormatsOfEncodedWords

variable (op : BitVec 6) (ra rb rc : RReg) (ka kb kc : KReg) (imm : BitVec 16)

@[simp] theorem formatAB_wordI (k : RReg → RReg → BitVec 16 → Instr) :
    formatAB (wordI op (regField ra) (regField rb) imm) k = .ok (k ra rb imm) :=
  formatAB_ok.2 ⟨mustBeZero_ok.1 (by simp), by simp⟩

@[simp] theorem formatKB_wordI (k : KReg → RReg → BitVec 16 → Instr) :
    formatKB (wordI op (scalarField ka) (regField rb) imm) k = .ok (k ka rb imm) :=
  formatKB_ok.2 ⟨mustBeZero_ok.1 (by simp), by simp⟩

@[simp] theorem formatCond_wordI (cond : Cond) (k : Cond → BitVec 16 → Instr) :
    formatCond (wordI op (condField cond) 0#4 imm) k = .ok (k cond imm) :=
  formatCond_ok.2 ⟨mustBeZero_ok.1 (by simp), by simp⟩

@[simp] theorem formatABC_wordR (k : RReg → RReg → RReg → Instr) :
    formatABC (wordR op (regField ra) (regField rb) (regField rc) 0#4 0#4 0#4) k = .ok (k ra rb rc) :=
  formatABC_ok.2 ⟨mustBeZero_ok.1 (by simp), by simp⟩

@[simp] theorem formatKKK_wordR (k : KReg → KReg → KReg → Instr) :
    formatKKK (wordR op (scalarField ka) (scalarField kb) (scalarField kc) 0#4 0#4 0#4) k = .ok (k ka kb kc) :=
  formatKKK_ok.2 ⟨mustBeZero_ok.1 (by simp), by simp⟩

@[simp] theorem formatKK_wordR (k : KReg → KReg → Instr) :
    formatKK (wordR op (scalarField ka) (scalarField kb) 0#4 0#4 0#4 0#4) k = .ok (k ka kb) :=
  formatKK_ok.2 ⟨mustBeZero_ok.1 (by simp), by simp⟩

end FormatsOfEncodedWords

/-- The opcode selects the arm of the instruction's own row, and the arm's format reads the operands back. -/
theorem decode_encode {i : Instr} (legal : i.wellFormed = true) : decode (encode i) = .ok i := by
  cases i with
  | lui | ori | addi | lb | lw | add | sub | csrr => exact decode_encode_of_gprDest rfl legal
  | sb | sw | mcpy | beq | bne | bltu | bgeu | bfs | bfc | kld | kst | kmov | kadd | kaddm | kcmp | kred
  | sha256 | sha512 | b39enc | b39dec => simp [encode, decode]
  | seterr | kldc => simp [encode, decode, legalIf, legal, bind, Except.bind]
  | halt | kchk | hmac512 | pbkdf2 | entropy | pubk => simp [encode, decode, pure, Except.pure, bind, Except.bind]

/-! ## From a word that decodes to its row: what each format asks of the word's bits -/

section RowsOfDecodedWords

variable {w : Word} {i : Instr} {op : BitVec 6}

/-- A row admits a word of its opcode whose bits meet its conditions. -/
theorem admits_of_opcode {zeros : List (Nat × Nat)} {bounds : List (Nat × Nat × Nat)} (hop : opcode w = op)
    (hz : ∀ z ∈ zeros, bitsAt w z.1 z.2 = 0) (hb : ∀ b ∈ bounds, bitsAt w b.1 b.2.1 < b.2.2) :
    Row.Admits ⟨op.toNat, zeros, bounds⟩ w :=
  ⟨by rw [← hop, toNat_opcode], hz, hb⟩

theorem bitsAt_lt_of_scalarA {k : KReg} (h : asScalar (fieldA w) = .ok k) : bitsAt w 22 4 < 8 :=
  toNat_fieldA w ▸ toNat_lt_of_asScalar h

theorem bitsAt_lt_of_scalarB {k : KReg} (h : asScalar (fieldB w) = .ok k) : bitsAt w 18 4 < 8 :=
  toNat_fieldB w ▸ toNat_lt_of_asScalar h

theorem bitsAt_lt_of_scalarC {k : KReg} (h : asScalar (fieldC w) = .ok k) : bitsAt w 14 4 < 8 :=
  toNat_fieldC w ▸ toNat_lt_of_asScalar h

theorem admits_of_formatAB {k : RReg → RReg → BitVec 16 → Instr} (hop : opcode w = op)
    (h : formatAB w k = .ok i) : Row.Admits ⟨op.toNat, [(16, 2)], []⟩ w := by
  obtain ⟨zero, -⟩ := formatAB_ok.1 h
  exact admits_of_opcode hop (List.forall_mem_singleton.2 zero) (by simp)

theorem admits_of_formatKB {k : KReg → RReg → BitVec 16 → Instr} (hop : opcode w = op)
    (h : formatKB w k = .ok i) : Row.Admits ⟨op.toNat, [(16, 2)], [(22, 4, 8)]⟩ w := by
  obtain ⟨zero, a, ha, -⟩ := formatKB_ok.1 h
  exact admits_of_opcode hop (List.forall_mem_singleton.2 zero) (by simpa using bitsAt_lt_of_scalarA ha)

theorem admits_of_formatCond {k : Cond → BitVec 16 → Instr} (hop : opcode w = op)
    (h : formatCond w k = .ok i) : Row.Admits ⟨op.toNat, [(18, 4), (16, 2)], [(22, 4, 5)]⟩ w := by
  obtain ⟨zero, cond, hcond, -⟩ := formatCond_ok.1 h
  have named : bitsAt w 22 4 < 5 := toNat_fieldA w ▸ toNat_lt_of_asCond hcond
  exact admits_of_opcode hop (by simpa using bitsAt_unusedB.1 zero) (by simpa using named)

theorem admits_of_formatABC {k : RReg → RReg → RReg → Instr} (hop : opcode w = op)
    (h : formatABC w k = .ok i) : Row.Admits ⟨op.toNat, [(0, 14)], []⟩ w := by
  obtain ⟨zero, -⟩ := formatABC_ok.1 h
  exact admits_of_opcode hop (List.forall_mem_singleton.2 zero) (by simp)

theorem admits_of_formatKKK {k : KReg → KReg → KReg → Instr} (hop : opcode w = op)
    (h : formatKKK w k = .ok i) : Row.Admits ⟨op.toNat, [(0, 14)], [(22, 4, 8), (18, 4, 8), (14, 4, 8)]⟩ w := by
  obtain ⟨zero, a, ha, b, hb, c, hc, -⟩ := formatKKK_ok.1 h
  exact admits_of_opcode hop (List.forall_mem_singleton.2 zero)
    (by simpa using ⟨bitsAt_lt_of_scalarA ha, bitsAt_lt_of_scalarB hb, bitsAt_lt_of_scalarC hc⟩)

theorem admits_of_formatKK {k : KReg → KReg → Instr} (hop : opcode w = op)
    (h : formatKK w k = .ok i) : Row.Admits ⟨op.toNat, [(0, 18)], [(22, 4, 8), (18, 4, 8)]⟩ w := by
  obtain ⟨zero, a, ha, b, hb, -⟩ := formatKK_ok.1 h
  exact admits_of_opcode hop (List.forall_mem_singleton.2 zero)
    (by simpa using ⟨bitsAt_lt_of_scalarA ha, bitsAt_lt_of_scalarB hb⟩)

/-- An arm that asks for unused bits alone. -/
theorem admits_of_mustBeZero {lo len : Nat} {f : Unit → Except Illegal Instr} (hop : opcode w = op)
    (h : (mustBeZero w lo len >>= f) = .ok i) : Row.Admits ⟨op.toNat, [(lo, len)], []⟩ w := by
  obtain ⟨zero, -⟩ := mustBeZero_bind_ok.1 h
  exact admits_of_opcode hop (List.forall_mem_singleton.2 zero) (by simp)

/-- Arm by arm of the decoder, in its order; the arms of one format together. -/
theorem exists_row_of_decode (h : decode w = .ok i) : ∃ r ∈ opcodeRows, r.Admits w := by
  unfold decode at h
  split at h
  case h_2 hop | h_3 hop | h_6 hop | h_7 hop | h_8 hop | h_9 hop | h_11 hop | h_12 hop | h_13 hop | h_14 hop =>
    exact ⟨_, by decide, admits_of_formatAB hop h⟩
  case h_4 hop | h_5 hop | h_10 hop | h_29 hop | h_30 hop | h_33 hop | h_34 hop =>
    exact ⟨_, by decide, admits_of_formatABC hop h⟩
  case h_15 hop | h_16 hop => exact ⟨_, by decide, admits_of_formatCond hop h⟩
  case h_20 hop | h_21 hop => exact ⟨_, by decide, admits_of_formatKB hop h⟩
  case h_22 hop | h_26 hop | h_28 hop => exact ⟨_, by decide, admits_of_formatKK hop h⟩
  case h_24 hop | h_25 hop => exact ⟨_, by decide, admits_of_formatKKK hop h⟩
  case h_17 hop | h_31 hop | h_32 hop | h_35 hop => exact ⟨_, by decide, admits_of_mustBeZero hop h⟩
  case h_1 hop => -- LUI
    obtain ⟨zero, -⟩ := mustBeZero_bind_ok.1 h
    exact ⟨⟨0x01, [(18, 4), (16, 2)], []⟩, by decide,
      admits_of_opcode hop (by simpa using bitsAt_unusedB.1 zero) (by simp)⟩
  case h_18 hop => -- SETERR
    obtain ⟨zero, legal⟩ := mustBeZero_bind_ok.1 h
    have code := wellFormed_seterr_imm16.1 (legalIf_ok.1 legal).1
    obtain ⟨zeroA, zeroB, zeroLow⟩ := bitsAt_unusedAB.1 zero
    exact ⟨⟨0x19, [(22, 4), (18, 4), (16, 2), (8, 8)], []⟩, by decide,
      admits_of_opcode hop (by simpa using ⟨zeroA, zeroB, zeroLow, code⟩) (by simp)⟩
  case h_19 hop => -- CSRR
    obtain ⟨zero, legal⟩ := mustBeZero_bind_ok.1 h
    have number := wellFormed_csrr_imm16.1 (legalIf_ok.1 legal).1
    exact ⟨⟨0x1A, [(18, 4), (16, 2)], [(0, 16, 14)]⟩, by decide,
      admits_of_opcode hop (by simpa using bitsAt_unusedB.1 zero) (by simpa using number)⟩
  case h_23 hop => -- KLDC
    obtain ⟨zero, rest⟩ := mustBeZero_bind_ok.1 h
    obtain ⟨a, ha, legal⟩ := bind_ok.1 rest
    have selector := wellFormed_kldc_imm16.1 (legalIf_ok.1 legal).1
    exact ⟨⟨0x23, [(18, 4), (16, 2)], [(22, 4, 8), (0, 16, 2)]⟩, by decide,
      admits_of_opcode hop (by simpa using bitsAt_unusedB.1 zero)
        (by simpa using ⟨bitsAt_lt_of_scalarA ha, Nat.le_of_lt_succ selector⟩)⟩
  case h_27 hop => -- KCHK
    obtain ⟨zero, rest⟩ := mustBeZero_bind_ok.1 h
    obtain ⟨a, ha, -⟩ := bind_ok.1 rest
    exact ⟨⟨0x27, [(0, 22)], [(22, 4, 8)]⟩, by decide,
      admits_of_opcode hop (List.forall_mem_singleton.2 zero) (by simpa using bitsAt_lt_of_scalarA ha)⟩
  case h_36 hop => -- PUBK
    obtain ⟨zero, rest⟩ := mustBeZero_bind_ok.1 h
    obtain ⟨k, hk, -⟩ := bind_ok.1 rest
    exact ⟨⟨0x3D, [(0, 18)], [(18, 4, 8)]⟩, by decide,
      admits_of_opcode hop (List.forall_mem_singleton.2 zero) (by simpa using bitsAt_lt_of_scalarB hk)⟩
  case h_37 => exact nomatch h -- an unassigned opcode

end RowsOfDecodedWords

/-! ## From a row's word to the instruction it encodes -/

section InstructionsOfRows

variable {w : Word} {r : Row} {n : Nat}

theorem Row.Admits.opcode_eq {zeros : List (Nat × Nat)} {bounds : List (Nat × Nat × Nat)}
    (h : Row.Admits ⟨n, zeros, bounds⟩ w) : BitVec.ofNat 6 n = opcode w := by
  have hop : bitsAt w 26 6 = n := h.1
  rw [← hop, ← toNat_opcode, BitVec.ofNat_toNat, BitVec.setWidth_eq]

theorem Row.Admits.zero (h : r.Admits w) (lo len : Nat) (listed : (lo, len) ∈ r.zeros) : bitsAt w lo len = 0 :=
  h.2.1 _ listed

theorem Row.Admits.below (h : r.Admits w) (lo len bound : Nat) (listed : (lo, len, bound) ∈ r.bounds) :
    bitsAt w lo len < bound :=
  h.2.2 _ listed

theorem Row.Admits.scalarA (h : r.Admits w) (listed : (22, 4, 8) ∈ r.bounds) : ∃ k, scalarField k = fieldA w :=
  exists_scalarField_eq (toNat_fieldA w ▸ h.below 22 4 8 listed)

theorem Row.Admits.scalarB (h : r.Admits w) (listed : (18, 4, 8) ∈ r.bounds) : ∃ k, scalarField k = fieldB w :=
  exists_scalarField_eq (toNat_fieldB w ▸ h.below 18 4 8 listed)

theorem Row.Admits.scalarC (h : r.Admits w) (listed : (14, 4, 8) ∈ r.bounds) : ∃ k, scalarField k = fieldC w :=
  exists_scalarField_eq (toNat_fieldC w ▸ h.below 14 4 8 listed)

theorem Row.Admits.unusedB {bounds : List (Nat × Nat × Nat)} (h : Row.Admits ⟨n, [(18, 4), (16, 2)], bounds⟩ w) :
    bitsAt w 16 6 = 0 :=
  bitsAt_unusedB.2 ⟨h.zero 18 4 (by simp), h.zero 16 2 (by simp)⟩

/-! ### A word whose unused bits are zero is the word of the fields it uses -/

theorem wordI_of_unusedB (h : bitsAt w 16 6 = 0) : wordI (opcode w) (fieldA w) 0#4 (imm16 w) = w := by
  obtain ⟨zeroB, zeroLow⟩ := bitsAt_unusedB.1 h
  have hB : fieldB w = 0#4 := BitVec.eq_of_toNat_eq ((toNat_fieldB w).trans zeroB)
  rw [← hB, wordI_fields zeroLow]

theorem wordI_of_unusedAB (h : bitsAt w 16 10 = 0) : wordI (opcode w) 0#4 0#4 (imm16 w) = w := by
  obtain ⟨zeroA, zeroB⟩ := bitsAt_unusedAB.1 h
  have hA : fieldA w = 0#4 := BitVec.eq_of_toNat_eq ((toNat_fieldA w).trans zeroA)
  have word := wordI_of_unusedB (bitsAt_unusedB.2 zeroB)
  rwa [hA] at word

theorem bitsAt_low {n : Nat} : bitsAt w 0 n = 0 ↔ 2 ^ n ∣ w.toNat := by
  rw [bitsAt, pow_zero, Nat.div_one, Nat.dvd_iff_mod_eq_zero]

theorem bitsAt_low_of_le {m n : Nat} (h : bitsAt w 0 n = 0) (le : m ≤ n) : bitsAt w 0 m = 0 :=
  bitsAt_low.2 ((Nat.pow_dvd_pow 2 le).trans (bitsAt_low.1 h))

/-- A field that lies among zero low bits is zero. -/
theorem field_eq_zero_of_low {lo n : Nat} (h : bitsAt w 0 n = 0) (within : lo + 4 ≤ n) : w.extractLsb' lo 4 = 0#4 := by
  obtain ⟨q, hq⟩ := bitsAt_low.1 (bitsAt_low_of_le h within)
  apply BitVec.eq_of_toNat_eq
  rw [toNat_field, hq, pow_add, mul_assoc, Nat.mul_div_cancel_left _ (by positivity), Nat.mul_mod_right,
    BitVec.toNat_zero]

theorem wordR_of_usedABCDEF (h : bitsAt w 0 2 = 0) :
    wordR (opcode w) (fieldA w) (fieldB w) (fieldC w) (fieldD w) (fieldE w) (fieldF w) = w :=
  wordR_fields (by simpa [bitsAt] using h)

theorem wordR_of_usedABCDE (h : bitsAt w 0 6 = 0) :
    wordR (opcode w) (fieldA w) (fieldB w) (fieldC w) (fieldD w) (fieldE w) 0#4 = w := by
  have hF : fieldF w = 0#4 := field_eq_zero_of_low h (by decide)
  rw [← hF, wordR_of_usedABCDEF (bitsAt_low_of_le h (by decide))]

theorem wordR_of_usedABC (h : bitsAt w 0 14 = 0) :
    wordR (opcode w) (fieldA w) (fieldB w) (fieldC w) 0#4 0#4 0#4 = w := by
  have hD : fieldD w = 0#4 := field_eq_zero_of_low h (by decide)
  have hE : fieldE w = 0#4 := field_eq_zero_of_low h (by decide)
  have word := wordR_of_usedABCDE (bitsAt_low_of_le h (by decide))
  rwa [hD, hE] at word

theorem wordR_of_usedAB (h : bitsAt w 0 18 = 0) :
    wordR (opcode w) (fieldA w) (fieldB w) 0#4 0#4 0#4 0#4 = w := by
  have hC : fieldC w = 0#4 := field_eq_zero_of_low h (by decide)
  have word := wordR_of_usedABC (bitsAt_low_of_le h (by decide))
  rwa [hC] at word

theorem wordR_of_usedA (h : bitsAt w 0 22 = 0) : wordR (opcode w) (fieldA w) 0#4 0#4 0#4 0#4 0#4 = w := by
  have hB : fieldB w = 0#4 := field_eq_zero_of_low h (by decide)
  have word := wordR_of_usedAB (bitsAt_low_of_le h (by decide))
  rwa [hB] at word

/-! ### The rows of one format -/

theorem exists_encodes_of_rowAB (k : RReg → RReg → BitVec 16 → Instr)
    (hk : ∀ a b imm, Encodes (k a b imm) (wordI (BitVec.ofNat 6 n) (regField a) (regField b) imm))
    (h : Row.Admits ⟨n, [(16, 2)], []⟩ w) : ∃ i, Encodes i w := by
  have code := hk (asReg (fieldA w)) (asReg (fieldB w)) (imm16 w)
  rw [regField_asReg, regField_asReg, h.opcode_eq, wordI_fields (h.zero 16 2 (by simp))] at code
  exact ⟨_, code⟩

theorem exists_encodes_of_rowKB (k : KReg → RReg → BitVec 16 → Instr)
    (hk : ∀ a b imm, Encodes (k a b imm) (wordI (BitVec.ofNat 6 n) (scalarField a) (regField b) imm))
    (h : Row.Admits ⟨n, [(16, 2)], [(22, 4, 8)]⟩ w) : ∃ i, Encodes i w := by
  obtain ⟨a, ha⟩ := h.scalarA (by simp)
  have code := hk a (asReg (fieldB w)) (imm16 w)
  rw [ha, regField_asReg, h.opcode_eq, wordI_fields (h.zero 16 2 (by simp))] at code
  exact ⟨_, code⟩

theorem exists_encodes_of_rowCond (k : Cond → BitVec 16 → Instr)
    (hk : ∀ cond imm, Encodes (k cond imm) (wordI (BitVec.ofNat 6 n) (condField cond) 0#4 imm))
    (h : Row.Admits ⟨n, [(18, 4), (16, 2)], [(22, 4, 5)]⟩ w) : ∃ i, Encodes i w := by
  obtain ⟨cond, hcond⟩ := exists_condField_eq (toNat_fieldA w ▸ h.below 22 4 5 (by simp))
  have code := hk cond (imm16 w)
  rw [hcond, h.opcode_eq, wordI_of_unusedB h.unusedB] at code
  exact ⟨_, code⟩

theorem exists_encodes_of_rowABC (k : RReg → RReg → RReg → Instr)
    (hk : ∀ a b c, Encodes (k a b c)
      (wordR (BitVec.ofNat 6 n) (regField a) (regField b) (regField c) 0#4 0#4 0#4))
    (h : Row.Admits ⟨n, [(0, 14)], []⟩ w) : ∃ i, Encodes i w := by
  have code := hk (asReg (fieldA w)) (asReg (fieldB w)) (asReg (fieldC w))
  rw [regField_asReg, regField_asReg, regField_asReg, h.opcode_eq,
    wordR_of_usedABC (h.zero 0 14 (by simp))] at code
  exact ⟨_, code⟩

theorem exists_encodes_of_rowKKK (k : KReg → KReg → KReg → Instr)
    (hk : ∀ a b c, Encodes (k a b c)
      (wordR (BitVec.ofNat 6 n) (scalarField a) (scalarField b) (scalarField c) 0#4 0#4 0#4))
    (h : Row.Admits ⟨n, [(0, 14)], [(22, 4, 8), (18, 4, 8), (14, 4, 8)]⟩ w) : ∃ i, Encodes i w := by
  obtain ⟨a, ha⟩ := h.scalarA (by simp)
  obtain ⟨b, hb⟩ := h.scalarB (by simp)
  obtain ⟨c, hc⟩ := h.scalarC (by simp)
  have code := hk a b c
  rw [ha, hb, hc, h.opcode_eq, wordR_of_usedABC (h.zero 0 14 (by simp))] at code
  exact ⟨_, code⟩

theorem exists_encodes_of_rowKK (k : KReg → KReg → Instr)
    (hk : ∀ a b, Encodes (k a b)
      (wordR (BitVec.ofNat 6 n) (scalarField a) (scalarField b) 0#4 0#4 0#4 0#4))
    (h : Row.Admits ⟨n, [(0, 18)], [(22, 4, 8), (18, 4, 8)]⟩ w) : ∃ i, Encodes i w := by
  obtain ⟨a, ha⟩ := h.scalarA (by simp)
  obtain ⟨b, hb⟩ := h.scalarB (by simp)
  have code := hk a b
  rw [ha, hb, h.opcode_eq, wordR_of_usedAB (h.zero 0 18 (by simp))] at code
  exact ⟨_, code⟩

/-! ### The rows whose conditions are their own -/

theorem exists_encodes_of_luiRow (h : Row.Admits ⟨0x01, [(18, 4), (16, 2)], []⟩ w) : ∃ i, Encodes i w :=
  ⟨.lui (asReg (fieldA w)) (imm16 w), rfl, by rw [encode, regField_asReg, h.opcode_eq, wordI_of_unusedB h.unusedB]⟩

theorem exists_encodes_of_haltRow (h : Row.Admits ⟨0x18, [(0, 22)], []⟩ w) : ∃ i, Encodes i w :=
  ⟨.halt (asReg (fieldA w)), rfl,
    by rw [encode, regField_asReg, h.opcode_eq, wordR_of_usedA (h.zero 0 22 (by simp))]⟩

theorem exists_encodes_of_seterrRow (h : Row.Admits ⟨0x19, [(22, 4), (18, 4), (16, 2), (8, 8)], []⟩ w) :
    ∃ i, Encodes i w := by
  have unused : bitsAt w 16 10 = 0 :=
    bitsAt_unusedAB.2 ⟨h.zero 22 4 (by simp), h.zero 18 4 (by simp), h.zero 16 2 (by simp)⟩
  exact ⟨.seterr (imm16 w), wellFormed_seterr_imm16.2 (h.zero 8 8 (by simp)),
    by rw [encode, h.opcode_eq, wordI_of_unusedAB unused]⟩

theorem exists_encodes_of_csrrRow (h : Row.Admits ⟨0x1A, [(18, 4), (16, 2)], [(0, 16, 14)]⟩ w) :
    ∃ i, Encodes i w :=
  ⟨.csrr (asReg (fieldA w)) (imm16 w), wellFormed_csrr_imm16.2 (h.below 0 16 14 (by simp)),
    by rw [encode, regField_asReg, h.opcode_eq, wordI_of_unusedB h.unusedB]⟩

theorem exists_encodes_of_kldcRow (h : Row.Admits ⟨0x23, [(18, 4), (16, 2)], [(22, 4, 8), (0, 16, 2)]⟩ w) :
    ∃ i, Encodes i w := by
  obtain ⟨kd, hkd⟩ := h.scalarA (by simp)
  exact ⟨.kldc kd (imm16 w), wellFormed_kldc_imm16.2 (h.below 0 16 2 (by simp)),
    by rw [encode, hkd, h.opcode_eq, wordI_of_unusedB h.unusedB]⟩

theorem exists_encodes_of_kchkRow (h : Row.Admits ⟨0x27, [(0, 22)], [(22, 4, 8)]⟩ w) : ∃ i, Encodes i w := by
  obtain ⟨ka, hka⟩ := h.scalarA (by simp)
  exact ⟨.kchk ka, rfl, by rw [encode, hka, h.opcode_eq, wordR_of_usedA (h.zero 0 22 (by simp))]⟩

theorem exists_encodes_of_hmac512Row (h : Row.Admits ⟨0x32, [(0, 6)], []⟩ w) : ∃ i, Encodes i w :=
  ⟨.hmac512 (asReg (fieldA w)) (asReg (fieldB w)) (asReg (fieldC w)) (asReg (fieldD w)) (asReg (fieldE w)), rfl,
    by simp only [encode, regField_asReg, h.opcode_eq, wordR_of_usedABCDE (h.zero 0 6 (by simp))]⟩

theorem exists_encodes_of_pbkdf2Row (h : Row.Admits ⟨0x33, [(0, 2)], []⟩ w) : ∃ i, Encodes i w :=
  ⟨.pbkdf2 (asReg (fieldA w)) (asReg (fieldB w)) (asReg (fieldC w)) (asReg (fieldD w)) (asReg (fieldE w))
    (asReg (fieldF w)), rfl,
    by simp only [encode, regField_asReg, h.opcode_eq, wordR_of_usedABCDEF (h.zero 0 2 (by simp))]⟩

theorem exists_encodes_of_entropyRow (h : Row.Admits ⟨0x3C, [(0, 18)], []⟩ w) : ∃ i, Encodes i w :=
  ⟨.entropy (asReg (fieldA w)) (asReg (fieldB w)), rfl,
    by rw [encode, regField_asReg, regField_asReg, h.opcode_eq, wordR_of_usedAB (h.zero 0 18 (by simp))]⟩

theorem exists_encodes_of_pubkRow (h : Row.Admits ⟨0x3D, [(0, 18)], [(18, 4, 8)]⟩ w) : ∃ i, Encodes i w := by
  obtain ⟨ks, hks⟩ := h.scalarB (by simp)
  exact ⟨.pubk (asReg (fieldA w)) ks, rfl,
    by rw [encode, regField_asReg, hks, h.opcode_eq, wordR_of_usedAB (h.zero 0 18 (by simp))]⟩

/-- Row by row of the table, in its order: the instruction that each row is of. -/
theorem exists_encodes_of_row : ∀ r ∈ opcodeRows, r.Admits w → ∃ i, Encodes i w := by
  simp only [opcodeRows, List.forall_mem_append, List.forall_mem_cons]
  refine ⟨⟨?integerAndMemory, ?controlAndScalar⟩, ?hashAndPorts⟩
  case integerAndMemory =>
    exact ⟨exists_encodes_of_luiRow,
      exists_encodes_of_rowAB .ori fun _ _ _ => ⟨rfl, rfl⟩,
      exists_encodes_of_rowAB .addi fun _ _ _ => ⟨rfl, rfl⟩,
      exists_encodes_of_rowABC .add fun _ _ _ => ⟨rfl, rfl⟩,
      exists_encodes_of_rowABC .sub fun _ _ _ => ⟨rfl, rfl⟩,
      exists_encodes_of_rowAB .lb fun _ _ _ => ⟨rfl, rfl⟩,
      exists_encodes_of_rowAB .lw fun _ _ _ => ⟨rfl, rfl⟩,
      exists_encodes_of_rowAB .sb fun _ _ _ => ⟨rfl, rfl⟩,
      exists_encodes_of_rowAB .sw fun _ _ _ => ⟨rfl, rfl⟩,
      exists_encodes_of_rowABC .mcpy fun _ _ _ => ⟨rfl, rfl⟩,
      exists_encodes_of_rowAB .beq fun _ _ _ => ⟨rfl, rfl⟩,
      exists_encodes_of_rowAB .bne fun _ _ _ => ⟨rfl, rfl⟩,
      exists_encodes_of_rowAB .bltu fun _ _ _ => ⟨rfl, rfl⟩,
      exists_encodes_of_rowAB .bgeu fun _ _ _ => ⟨rfl, rfl⟩, List.forall_mem_nil _⟩
  case controlAndScalar =>
    exact ⟨exists_encodes_of_rowCond .bfs fun _ _ => ⟨rfl, rfl⟩,
      exists_encodes_of_rowCond .bfc fun _ _ => ⟨rfl, rfl⟩,
      exists_encodes_of_haltRow,
      exists_encodes_of_seterrRow,
      exists_encodes_of_csrrRow,
      exists_encodes_of_rowKB .kld fun _ _ _ => ⟨rfl, rfl⟩,
      exists_encodes_of_rowKB .kst fun _ _ _ => ⟨rfl, rfl⟩,
      exists_encodes_of_rowKK .kmov fun _ _ => ⟨rfl, rfl⟩,
      exists_encodes_of_kldcRow,
      exists_encodes_of_rowKKK .kadd fun _ _ _ => ⟨rfl, rfl⟩,
      exists_encodes_of_rowKKK .kaddm fun _ _ _ => ⟨rfl, rfl⟩,
      exists_encodes_of_rowKK .kcmp fun _ _ => ⟨rfl, rfl⟩,
      exists_encodes_of_kchkRow,
      exists_encodes_of_rowKK .kred fun _ _ => ⟨rfl, rfl⟩, List.forall_mem_nil _⟩
  case hashAndPorts =>
    exact ⟨exists_encodes_of_rowABC .sha256 fun _ _ _ => ⟨rfl, rfl⟩,
      exists_encodes_of_rowABC .sha512 fun _ _ _ => ⟨rfl, rfl⟩,
      exists_encodes_of_hmac512Row,
      exists_encodes_of_pbkdf2Row,
      exists_encodes_of_rowABC .b39enc fun _ _ _ => ⟨rfl, rfl⟩,
      exists_encodes_of_rowABC .b39dec fun _ _ _ => ⟨rfl, rfl⟩,
      exists_encodes_of_entropyRow,
      exists_encodes_of_pubkRow, List.forall_mem_nil _⟩

end InstructionsOfRows

/-! ## The circle closed -/

theorem exists_encodes_of_decode {w : Word} {i : Instr} (h : decode w = .ok i) : ∃ j, Encodes j w :=
  let ⟨r, listed, admits⟩ := exists_row_of_decode h
  exists_encodes_of_row r listed admits

/-- The decoder answers with an instruction exactly on that instruction's own word. -/
theorem decode_eq_ok_iff {w : Word} {i : Instr} : decode w = .ok i ↔ Encodes i w := by
  constructor
  · intro h
    obtain ⟨j, legal, rfl⟩ := exists_encodes_of_decode h
    obtain rfl : j = i := Except.ok.inj ((decode_encode legal).symm.trans h)
    exact ⟨legal, rfl⟩
  · rintro ⟨legal, rfl⟩
    exact decode_encode legal

/-- A word is the word of at most one legal instruction. -/
theorem Encodes.unique {w : Word} {i j : Instr} (hi : Encodes i w) (hj : Encodes j w) : j = i :=
  Except.ok.inj ((decode_eq_ok_iff.2 hj).symm.trans (decode_eq_ok_iff.2 hi))

/-- An engine that is due to run an illegal word raises ILLEGAL_INSTRUCTION (R141, R510). -/
theorem engineTurn_illegal {s : State} {e : Illegal} (h : RunsNow s) (illegal : decode (fetchWord s) = .error e) :
    engineTurn s = .next (raise .illegalInstruction 0#32 s) :=
  (engineTurn_run h.1 h.abortDue_eq_false).trans (runInstruction_illegal illegal)


/-- Settles O1, by the format of the instruction's row. -/
theorem decodingAnEncodingGivesTheInstruction : Obligations.DecodingAnEncodingGivesTheInstruction :=
  fun _ => decode_encode

/-- Settles O2, by what the decoder answers: an instruction, and the word is that instruction's alone; or an error, and
the word is no instruction's and its turn is the fault. -/
theorem everyWordIsOneInstructionOrFaults : Obligations.EveryWordIsOneInstructionOrFaults := by
  intro w
  cases answer : decode w with
  | ok i =>
    have code : Encodes i w := decode_eq_ok_iff.1 answer
    exact .inl ⟨i, rfl, code.1, code.2, fun j legal hj => code.unique ⟨legal, hj⟩⟩
  | error e =>
    refine .inr ⟨fun j legal hj => ?noWord, fun s runs fetched => ?faults⟩
    case noWord =>
      have legalWord : decode w = .ok j := decode_eq_ok_iff.2 ⟨legal, hj⟩
      exact nomatch answer.symm.trans legalWord
    case faults =>
      subst fetched
      exact ⟨_, engineTurn_illegal runs answer, .raise .., rfl⟩

/-- Settles O3: a row for the decoded word, and for a row's word the instruction it encodes, which it decodes to. -/
theorem decoderAcceptsExactlyTheTable : Obligations.DecoderAcceptsExactlyTheTable := by
  intro w
  constructor
  · rintro ⟨i, h⟩
    exact exists_row_of_decode h
  · rintro ⟨r, listed, admits⟩
    exact (exists_encodes_of_row r listed admits).imp fun _ => decode_eq_ok_iff.2

theorem decode_ne_ok_of_error {w : Word} {e : Illegal} (h : decode w = .error e) (i : Instr) : decode w ≠ .ok i := by
  simp [h]

/-- Settles O4: the worked words by evaluation, and each illegal word by the reason it is refused for. -/
theorem specExampleWordsDecode : Obligations.SpecExampleWordsDecode := by
  refine ⟨by decide, by decide, by decide, by decide, by decide, by decide, by decide, by decide, by decide, by decide,
    by decide, by decide, by decide, by decide, by decide, by decide, by decide, by decide, by decide, ?illegal⟩
  case illegal =>
    simp only [List.forall_mem_cons]
    exact ⟨decode_ne_ok_of_error (e := .unassignedOpcode) (by decide),
      decode_ne_ok_of_error (e := .unassignedOpcode) (by decide),
      decode_ne_ok_of_error (e := .nonzeroUnusedBits) (by decide),
      decode_ne_ok_of_error (e := .nonzeroUnusedBits) (by decide), List.forall_mem_nil _⟩

end Sys2Proof.Machine
end

section
/-! PROOFS. The integer and data-memory instructions (40_integer_memory.md, R199 to R214): their operands as exact integers,
the bytes they load, store and copy, and the order in which regions are checked (R506). -/

open Sys2Proof Sys2Proof.Machine

namespace Sys2Proof.Machine

/-! ## Operands and results as exact integers (R11, R135) -/

theorem toNat_upperImm (imm : BitVec 16) : (upperImm imm).toNat = imm.toNat * 2 ^ 16 := by
  rw [upperImm, BitVec.toNat_append, BitVec.toNat_zero, Nat.or_zero, Nat.shiftLeft_eq]

theorem toNat_or_zextImm (x : Word) (imm : BitVec 16) : (x ||| zextImm imm).toNat = x.toNat ||| imm.toNat := by
  rw [BitVec.toNat_or, zextImm, BitVec.toNat_setWidth_of_le (by decide)]

theorem toInt_sextImm (imm : BitVec 16) : (sextImm imm).toInt = imm.toInt :=
  BitVec.toInt_signExtend_of_le (by decide)

theorem toNat_add_eq_emod (x y : Word) : ((x + y).toNat : Int) = ((x.toNat : Int) + y.toNat) % 2 ^ 32 := by
  rw [BitVec.toNat_add]
  omega

theorem toNat_sub_eq_emod (x y : Word) : ((x - y).toNat : Int) = ((x.toNat : Int) - y.toNat) % 2 ^ 32 := by
  have := y.isLt
  rw [BitVec.toNat_sub]
  omega

/-- A signed immediate is added as its integer, since the sum is taken modulo 2^32. -/
theorem toNat_add_sextImm (x : Word) (imm : BitVec 16) :
    ((x + sextImm imm).toNat : Int) = ((x.toNat : Int) + imm.toInt) % 2 ^ 32 := by
  rw [toNat_add_eq_emod, ← toInt_sextImm, BitVec.toInt_eq_toNat_cond]
  split <;> omega

/-- Settles O12. -/
theorem effectiveAddressWraps : Obligations.EffectiveAddressWraps :=
  fun base off => toNat_add_sextImm base off

/-- Settles O11: each result word is that of its exact integers. -/
theorem integerInstructionsWriteTheirResult : Obligations.IntegerInstructionsWriteTheirResult := by
  intro s rd rs rs2 imm hpc
  refine ⟨?lui, ?ori, ?addi, ?add, ?sub⟩
  case lui =>
    have result : ((upperImm imm).toNat : Int) = imm.toNat * 2 ^ 16 := by exact_mod_cast toNat_upperImm imm
    exact result ▸ .of_exec hpc rfl
  case ori => exact toNat_or_zextImm (getReg rs s) imm ▸ .of_exec hpc rfl
  case addi => exact toNat_add_sextImm (getReg rs s) imm ▸ .of_exec hpc rfl
  case add => exact toNat_add_eq_emod (getReg rs s) (getReg rs2 s) ▸ .of_exec hpc rfl
  case sub => exact toNat_sub_eq_emod (getReg rs s) (getReg rs2 s) ▸ .of_exec hpc rfl

/-! ## Loads (R210, R211) -/

theorem exec_lb_of_fits {s : State} {rb : RReg} {off : BitVec 16} (fits : Fits (effAddr (getReg rb s) off) 1)
    (rd : RReg) :
    exec (.lb rd rb off) s =
      .next (seqNext (setReg rd (BitVec.ofNat 32 (intBE (memRead (effAddr (getReg rb s) off).toNat 1 s))) s)) := by
  rw [exec, execLb]
  exact withRegions_of_fits fits _ s

/-- A load of at most four bytes fits a register, and fills the bits above with zeros. -/
theorem toNat_ofNat_intBE_memRead {n : Nat} (hn : n ≤ 4) (a : Nat) (s : State) :
    (BitVec.ofNat 32 (intBE (memRead a n s))).toNat = intBE (memRead a n s) := by
  rw [BitVec.toNat_ofNat]
  refine Nat.mod_eq_of_lt ?_
  calc intBE (memRead a n s) < 256 ^ n := intBE_memRead_lt a n s
    _ ≤ 256 ^ 4 := Nat.pow_le_pow_right (by decide) hn
    _ = 2 ^ 32 := by decide

theorem intBE_memRead_one (a : Nat) (s : State) : intBE (memRead a 1 s) = (dmemByte s a).toNat := by
  simp [memRead, readCells, intBE, dmemByte]

theorem intBE_memRead_four (a : Nat) (s : State) :
    intBE (memRead a 4 s) =
      (dmemByte s a).toNat * 2 ^ 24 + (dmemByte s (a + 1)).toNat * 2 ^ 16 + (dmemByte s (a + 2)).toNat * 2 ^ 8 +
        (dmemByte s (a + 3)).toNat := by
  rw [memRead_four]
  simp only [intBE, List.foldl]
  omega

/-- Settles O13: the loaded word is the big-endian integer of the region's bytes. -/
theorem loadsReadBigEndian : Obligations.LoadsReadBigEndian := by
  intro s rd rb off hpc
  constructor
  · intro fits
    have loaded := WritesReg.of_exec hpc (exec_lb_of_fits fits rd)
    rwa [toNat_ofNat_intBE_memRead (by decide), intBE_memRead_one] at loaded
  · intro fits
    have loaded := WritesReg.of_exec hpc (exec_lw_of_fits fits rd)
    rw [toNat_ofNat_intBE_memRead (by decide), intBE_memRead_four] at loaded
    exact_mod_cast loaded

/-! ## Stores and copies (R212 to R214) -/

/-- An instruction that writes one region inside DMEM and goes on. -/
theorem WritesRegion.of_exec {i : Instr} {a : Nat} {bs : List Byte} {s : State} (hpc : s.pc.toNat < 255)
    (inside : a + bs.length ≤ 4096) (h : exec i s = .next (seqNext (memWrite a bs s))) :
    WritesRegion i a bs.length bs s.flags s.err s := by
  refine ⟨_, h, rfl, fun j hj => ?_, ?_, ?_, .seqNext hpc (.memWrite inside) (.memWrite a bs s) rfl⟩
  · rw [dmemByte_seqNext, dmemByte_memWrite_inside hj]
  · rw [seqNext_flags, memWrite_flags]
  · rw [seqNext_err, memWrite_err]

/-- Byte `j` of a region read is the byte of DMEM at `j` from its start. -/
theorem getD_memRead {j n : Nat} (hj : j < n) (a : Nat) (s : State) :
    (memRead a n s).getD j 0#8 = dmemByte s (a + j) := by
  have listed : j < (memRead a n s).length := by rwa [length_memRead]
  rw [List.getD_eq_getElem _ _ listed]
  exact getElem_readCells s.dmem a n j listed

/-- Settles O14: the stored bytes are the big-endian bytes of the register. -/
theorem storesWriteBigEndian : Obligations.StoresWriteBigEndian := by
  intro s rt rb off hpc
  constructor
  · intro fits
    have stored := WritesRegion.of_exec hpc (by rwa [length_beBytes]) (exec_sb_of_fits fits rt)
    simpa [beBytes] using stored
  · intro fits
    have stored := WritesRegion.of_exec hpc (by rwa [length_beBytes]) (exec_sw_of_fits fits rt)
    simpa [beBytes] using stored

theorem exec_mcpy_of_fits {s : State} {rd rs rl : RReg} (source : Fits (getReg rs s) (regNat rl s))
    (dest : Fits (getReg rd s) (regNat rl s)) :
    exec (.mcpy rd rs rl) s =
      .next (seqNext (memWrite (regNat rd s) (memRead (regNat rs s) (regNat rl s) s) s)) := by
  rw [exec, execMcpy]
  exact withRegions_of_ok (by simpa [Fits] using And.intro source dest) _ s

/-- Settles O15: the bytes written are those of the source region as it was read before the write. -/
theorem mcpyCopiesTheOldSource : Obligations.McpyCopiesTheOldSource := by
  intro s rd rs rl hpc source dest
  have copied := WritesRegion.of_exec hpc (by rwa [length_memRead]) (exec_mcpy_of_fits source dest)
  rw [length_memRead] at copied
  obtain ⟨t, ends, _, bytes, flags, err, frame⟩ := copied
  exact ⟨t, ends, fun j hj => (bytes j hj).trans (getD_memRead hj ..), frame, flags, err⟩

/-! ## The order of the region checks (R506) -/

/-- Settles O18: each meaning is a check of exactly these regions in this order, PBKDF2 and the packer's two after the check
of their count, and everything else, a port request too, comes after it. -/
theorem firstFailingRegionIsReported : Obligations.FirstFailingRegionIsReported := by
  intro s a b c d e f k
  refine ⟨?mcpy, ?sha256, ?sha512, ?hmac512, fun nonzero => ?pbkdf2, fun legal => ?b39enc, fun legal => ?b39dec,
    ?entropy, ?pubk⟩
  case mcpy => exact .of_regions (by rw [exec, execMcpy])
  case sha256 => exact .of_regions (by rw [exec, execSha256])
  case sha512 => exact .of_regions (by rw [exec, execSha512])
  case hmac512 => exact .of_regions (by rw [exec, execHmac512])
  case pbkdf2 => exact .of_regions (by rw [exec, execPbkdf2, if_neg nonzero])
  case b39enc => exact .of_regions (by rw [exec, execB39enc, entropyLengths, if_pos legal])
  case b39dec => exact .of_regions (by rw [exec, execB39dec, wordCounts, if_pos legal])
  case entropy => exact .of_regions (by rw [exec, execEntropy])
  case pubk => exact .of_regions (by rw [exec, execPubk])

end Sys2Proof.Machine
end

section
/-! PROOFS. The control transfer and system instructions (41_control_system.md, R240 to R253): where a branch goes, what
HALT, SETERR and CSRR leave, and that an instruction does the same at every index, up to where it goes from there. -/

open Sys2Proof Sys2Proof.Machine

namespace Sys2Proof.Machine

/-! ## Branches (R240 to R247) -/

/-- The flag of a condition is the bit of `FLAGS` at the number that names it (R37, R138). -/
theorem condFlag_eq_getLsbD (cond : Cond) (f : Flags) :
    condFlag cond f = (flagsWord f).getLsbD (condField cond).toNat := by
  obtain ⟨z, c, lt, v, e⟩ := f
  cases cond <;> revert z c lt v e <;> decide

/-- A branch goes to the integer that its condition selects. -/
theorem branchIf_eq_goto {taken : Bool} {off : BitVec 16} {s : State} {target : Int}
    (isTaken : taken = true → target = s.pc.toNat + off.toInt) (isNot : ¬taken = true → target = s.pc.toNat + 1) :
    branchIf taken off s = goto target s := by
  cases taken with
  | true => rw [branchIf_true, branchTarget, isTaken rfl]
  | false => rw [branchIf_false, seqNext, fallThrough, isNot (by decide)]

theorem toNat_ofInt_of_inRange {t : Int} (h : 0 ≤ t ∧ t < 256) : ((BitVec.ofInt 8 t).toNat : Int) = t := by
  rw [BitVec.toNat_ofInt]
  omega

/-- An instruction whose meaning is `branchIf` is a branch: it arrives at its target, or raises PC_RANGE. -/
theorem BranchesOn.of_exec {i : Instr} {p : Prop} {taken : Bool} {off : BitVec 16} {s : State}
    (h : exec i s = .next (branchIf taken off s)) (hp : taken = true ↔ p) : BranchesOn i p off s := by
  intro target isTaken isNot
  rw [branchIf_eq_goto (isTaken ∘ hp.mp) (isNot ∘ mt hp.mpr)] at h
  constructor
  · intro inside
    have inRange : 0 ≤ target ∧ target < 256 := by omega
    rw [goto_of_inRange inRange] at h
    exact ⟨_, h, toNat_ofInt_of_inRange inRange, rfl, .of_fields rfl rfl rfl .., ⟨rfl, rfl⟩,
      ⟨rfl, rfl, rfl, rfl, rfl, fun _ => rfl, rfl⟩⟩
  · intro outside
    rw [goto_of_outOfRange (by omega)] at h
    exact ⟨_, h, .raise .., rfl⟩

/-- Settles O19: each of the six meanings is `branchIf` of its own condition. -/
theorem branchesGoWhereTheyPoint : Obligations.BranchesGoWhereTheyPoint := by
  intro s rs1 rs2 cond off
  refine ⟨?beq, ?bne, ?bltu, ?bgeu, ?bfs, ?bfc⟩
  case beq => exact .of_exec rfl decide_eq_true_iff
  case bne => exact .of_exec rfl decide_eq_true_iff
  case bltu => exact .of_exec rfl decide_eq_true_iff
  case bgeu => exact .of_exec rfl decide_eq_true_iff
  case bfs => exact .of_exec rfl (by rw [condFlag_eq_getLsbD])
  case bfc => exact .of_exec rfl (by rw [condFlag_eq_getLsbD, Bool.not_eq_true'])

/-! ## HALT and SETERR (R249, R250) -/

/-- Settles O21: HALT is `endDone` with the low byte of its register. -/
theorem haltEndsTheRunAsDone : Obligations.HaltEndsTheRunAsDone := by
  intro s rs
  have exitCode : ((getReg rs s).extractLsb' 0 8).toNat = regNat rs s % 256 := by
    rw [BitVec.extractLsb'_toNat, Nat.shiftRight_zero, regNat]
  exact ⟨_, rfl, rfl, exitCode, rfl, rfl, .of_fields rfl rfl rfl .., ⟨rfl, rfl⟩, rfl, rfl, rfl, fun _ => rfl, rfl⟩

/-- An instruction that writes flags and ERR alone and goes on. -/
theorem WritesFlags.of_exec {i : Instr} {s u : State} (hpc : s.pc.toNat < 255) (h : exec i s = .next (seqNext u))
    (w : OwnWrites s u) (kept : DataKept [] [] 0 0 s u) (env : u.env = s.env) : WritesFlags i u.flags u.err s :=
  ⟨_, h, seqNext_flags u, seqNext_err u, .seqNext hpc w kept env⟩

/-- A code below 256 is a legal one (R141 item 6). -/
theorem wellFormed_seterr_of_lt {imm : BitVec 16} (himm : imm.toNat < 256) : (Instr.seterr imm).wellFormed = true := by
  have upperByte : imm.extractLsb' 8 8 = 0#8 := by
    apply BitVec.eq_of_toNat_eq
    rw [BitVec.extractLsb'_toNat, Nat.shiftRight_eq_div_pow, Nat.div_eq_of_lt himm]
    rfl
  exact beq_iff_eq.mpr upperByte

theorem exec_seterr_of_lt {imm : BitVec 16} (himm : imm.toNat < 256) (s : State) :
    exec (.seterr imm) s = .next (seqNext (setChecked (BitVec.ofNat 8 imm.toNat) s)) := by
  rw [exec, execSeterr, ifLegal_of_wellFormed (wellFormed_seterr_of_lt himm)]
  rfl

/-- Settles O22: a legal code fits the byte of ERR, so that the byte is zero when the code is. -/
theorem seterrRecordsTheCode : Obligations.SeterrRecordsTheCode := by
  intro s imm hpc himm
  have nonzero : BitVec.ofNat 8 imm.toNat ≠ 0#8 ↔ imm.toNat ≠ 0 := by
    rw [Ne, ← BitVec.toNat_inj, BitVec.toNat_ofNat, Nat.mod_eq_of_lt himm]
    rfl
  have recorded := WritesFlags.of_exec hpc (exec_seterr_of_lt himm s) (.setChecked _ s) (.of_fields rfl rfl rfl ..) rfl
  rwa [setChecked_flags, setChecked_err, decide_eq_decide.mpr nonzero] at recorded

/-! ## CSRR (R252) -/

theorem exec_csrr_of_lt {csr : BitVec 16} (hcsr : csr.toNat < 14) (rd : RReg) (s : State) :
    exec (.csrr rd csr) s = .next (seqNext (setReg rd (csrValue csr.toNat s) s)) := by
  have legal : (Instr.csrr rd csr).wellFormed = true := decide_eq_true (Nat.le_of_lt_succ hcsr)
  rw [exec, execCsrr, ifLegal_of_wellFormed legal]

/-- A byte shown in a register, its upper bits zero. -/
theorem toNat_byteWord (b : Byte) : (b.zeroExtend 32).toNat = b.toNat := BitVec.toNat_setWidth_of_le (by decide)

theorem toNat_ctrlWord (s : State) : (ctrlWord s).toNat = 8 * s.ie.toNat := by
  have := s.ie.toNat_lt
  rw [ctrlWord, b2i_eq_toNat, BitVec.toNat_ofNat]
  omega

theorem toNat_statusWord (st : Status) :
    (statusWord st).toNat = st.busy.toNat + 2 * st.done.toNat + 4 * st.fault.toNat + 8 * st.irq.toNat +
      16 * st.hostErr.toNat + 32 * st.abortReq.toNat := by
  have := st.busy.toNat_lt
  have := st.done.toNat_lt
  have := st.fault.toNat_lt
  have := st.irq.toNat_lt
  have := st.hostErr.toNat_lt
  have := st.abortReq.toNat_lt
  simp only [statusWord, b2i_eq_toNat, BitVec.toNat_ofNat]
  omega

theorem toNat_flagsWord (f : Flags) :
    (flagsWord f).toNat = f.z.toNat + 2 * f.c.toNat + 4 * f.lt.toNat + 8 * f.v.toNat + 16 * f.e.toNat := by
  have := f.z.toNat_lt
  have := f.c.toNat_lt
  have := f.lt.toNat_lt
  have := f.v.toNat_lt
  have := f.e.toNat_lt
  simp only [flagsWord, b2i_eq_toNat, BitVec.toNat_ofNat]
  omega

/-! ### While BUSY, what the end of a run records is clear -/

theorem Inv.irq_eq_false {s : State} (h : Inv s) (busy : s.status.busy = true) : s.status.irq = false := by
  by_contra raised
  simpa [h.done_eq_false busy, h.fault_eq_false busy] using h.irqAtEnd (by simpa using raised)

theorem Inv.exitCode_eq_zero {s : State} (h : Inv s) (busy : s.status.busy = true) : s.exitCode = 0#8 := by
  by_contra nonzero
  exact absurd (h.exitDone nonzero) (by simp [h.done_eq_false busy])

/-- Settles O23: the words of the CSRs as integers, and by the invariant no end of a run recorded while BUSY. -/
theorem csrrReadsEachRegister : Obligations.CsrrReadsEachRegister := by
  intro s rd inv busy hpc
  have noneRecorded : s.faultRegs = noFault := inv.faultClear (inv.fault_eq_false busy)
  have reads (csr : BitVec 16) (hcsr : csr.toNat < 14) {v : Nat} (value : (csrValue csr.toNat s).toNat = v) :
      WritesReg (.csrr rd csr) rd v s := value ▸ .of_exec hpc (exec_csrr_of_lt hcsr rd s)
  refine ⟨reads 0#16 (by decide) rfl, reads 1#16 (by decide) (toNat_ctrlWord s), reads 2#16 (by decide) ?status,
    reads 3#16 (by decide) (toNat_flagsWord s.flags), reads 4#16 (by decide) (toNat_byteWord s.err),
    reads 5#16 (by decide) ?exitCode, reads 6#16 (by decide) ?cause, reads 7#16 (by decide) ?faultPc,
    reads 8#16 (by decide) ?insn, reads 9#16 (by decide) ?info, reads 10#16 (by decide) (toNat_byteWord s.entry),
    reads 11#16 (by decide) (toNat_byteWord s.pc), reads 12#16 (by decide) rfl, reads 13#16 (by decide) rfl⟩
  case status =>
    refine (toNat_statusWord s.status).trans ?_
    simp [busy, inv.done_eq_false busy, inv.fault_eq_false busy, inv.irq_eq_false busy]
  case exitCode => exact (toNat_byteWord s.exitCode).trans (by rw [inv.exitCode_eq_zero busy]; rfl)
  case cause => exact (toNat_byteWord (causeCode s.faultRegs.cause)).trans (by rw [noneRecorded]; rfl)
  case faultPc => exact (toNat_byteWord s.faultRegs.pc).trans (by rw [noneRecorded]; rfl)
  case insn => exact congrArg (fun f => f.insn.toNat) noneRecorded
  case info => exact congrArg (fun f => f.info.toNat) noneRecorded

end Sys2Proof.Machine
end

section
/-! PROOFS. The instruction at index 255 (41_control_system.md, R240, R507): an instruction does the same at every index,
up to where it goes from there, and one that goes on from a lower index raises PC_RANGE at the last. -/

open Sys2Proof Sys2Proof.Machine

namespace Sys2Proof.Machine

/-- The state with another instruction index (R35). -/
def atPc (p : Byte) (s : State) : State := { s with pc := p }

/-! ## What the meanings read and write, beside pc -/

section AtPc

variable (p : Byte) (s : State)

@[simp] theorem atPc_pc : (atPc p s).pc = p := rfl
@[simp] theorem atPc_flags : (atPc p s).flags = s.flags := rfl
@[simp] theorem getReg_atPc (r : RReg) : getReg r (atPc p s) = getReg r s := rfl
@[simp] theorem regNat_atPc (r : RReg) : regNat r (atPc p s) = regNat r s := rfl
@[simp] theorem getK_atPc (k : KReg) : getK k (atPc p s) = getK k s := rfl
@[simp] theorem scalarNat_atPc (k : KReg) : scalarNat k (atPc p s) = scalarNat k s := rfl
@[simp] theorem memRead_atPc (a n : Nat) : memRead a n (atPc p s) = memRead a n s := rfl
@[simp] theorem entropyAnswer_atPc (n : Nat) : entropyAnswer n (atPc p s) = entropyAnswer n s := rfl
@[simp] theorem curveAnswer_atPc : curveAnswer (atPc p s) = curveAnswer s := rfl

@[simp] theorem setReg_atPc (r : RReg) (v : Word) : setReg r v (atPc p s) = atPc p (setReg r v s) := by
  unfold setReg
  split <;> rfl
@[simp] theorem setK_atPc (k : KReg) (v : Scalar) : setK k v (atPc p s) = atPc p (setK k v s) := rfl
@[simp] theorem setFlags_atPc (f : Flags) : setFlags f (atPc p s) = atPc p (setFlags f s) := rfl
@[simp] theorem setValid_atPc (b : Bool) : setValid b (atPc p s) = atPc p (setValid b s) := rfl
@[simp] theorem setChecked_atPc (code : Byte) : setChecked code (atPc p s) = atPc p (setChecked code s) := rfl
@[simp] theorem memWrite_atPc (a : Nat) (bs : List Byte) : memWrite a bs (atPc p s) = atPc p (memWrite a bs s) := rfl
@[simp] theorem entropyLooked_atPc : entropyLooked (atPc p s) = atPc p (entropyLooked s) := rfl
@[simp] theorem curveLooked_atPc : curveLooked (atPc p s) = atPc p (curveLooked s) := rfl

/-- Of the CSRs only PC shows the index (R53). -/
theorem csrValue_atPc {c : Nat} (notPc : c ≠ 11) : csrValue c (atPc p s) = csrValue c s := by
  unfold csrValue
  split
  case h_12 => exact absurd rfl notPc
  all_goals rfl

end AtPc

/-! ## The same at every index -/

/-- What `run` answers from each index of `s`: either the same writes and a move by the same distance, or no move. -/
inductive AlikeAtEveryPc (s : State) (run : Byte → Result) : Prop where
  | moves (u : State) (distance : Int) (status : u.status = s.status) (imem : u.imem = s.imem)
    (h : ∀ p, run p = .next (goto (p.toNat + distance) (atPc p u)))
  | stays (h : ∀ p t, run p = .next t → t.pc = p)

namespace AlikeAtEveryPc

variable {s u : State}

theorem seq (status : u.status = s.status := by simp) (imem : u.imem = s.imem := by simp) :
    AlikeAtEveryPc s fun p => .next (seqNext (atPc p u)) :=
  .moves u 1 status imem fun _ => rfl

theorem branch {run : Byte → Result} (taken : Bool) (off : BitVec 16)
    (h : ∀ p, run p = .next (branchIf taken off (atPc p s))) : AlikeAtEveryPc s run := by
  cases taken with
  | true => exact .moves s off.toInt rfl rfl fun p => (h p).trans (by rw [branchIf_true]; rfl)
  | false => exact .moves s 1 rfl rfl fun p => (h p).trans (by rw [branchIf_false]; rfl)

theorem of_pc {f : Byte → State} (h : ∀ p, (f p).pc = p) : AlikeAtEveryPc s fun p => .next (f p) :=
  .stays fun p _ e => Host.Outcome.next.inj e ▸ h p

theorem regions {rs : List (Word × Nat)} {rest : State → Result} (h : AlikeAtEveryPc s fun p => rest (atPc p s)) :
    AlikeAtEveryPc s fun p => withRegions rs rest (atPc p s) := by
  unfold withRegions
  cases firstBad rs with
  | none => exact h
  | some a => exact .of_pc fun _ => rfl

theorem legal {i : Instr} {rest : State → Result} (h : AlikeAtEveryPc s fun p => rest (atPc p s)) :
    AlikeAtEveryPc s fun p => ifLegal i rest (atPc p s) := by
  unfold ifLegal
  split
  · exact h
  · exact .of_pc fun _ => rfl

/-- A choice that does not depend on the index, though the way it is decided may. -/
theorem choice {c : Prop} {dec : Byte → Decidable c} {a b : Byte → Result} (ha : c → AlikeAtEveryPc s a)
    (hb : ¬c → AlikeAtEveryPc s b) : AlikeAtEveryPc s fun p => @ite _ c (dec p) (a p) (b p) := by
  by_cases h : c
  · simpa only [if_pos h] using ha h
  · simpa only [if_neg h] using hb h

theorem packerError (code : Byte) : AlikeAtEveryPc s fun p => .next (packerError code (atPc p s)) := by
  simp only [Machine.packerError, setChecked_atPc, setValid_atPc]
  exact .seq

theorem packerDone (a : Nat) (bs : List Byte) : AlikeAtEveryPc s fun p => .next (packerDone a bs (atPc p s)) := by
  simp only [Machine.packerDone, memWrite_atPc, setChecked_atPc, setValid_atPc]
  exact .seq

theorem unpackInto (a : Nat) (idx : List Nat) : AlikeAtEveryPc s fun p => .next (unpackInto a idx (atPc p s)) := by
  unfold Machine.unpackInto
  split_ifs
  · exact .packerError _
  · exact .packerDone ..
  · exact .packerError _

/-- An instruction that went on from one index goes on from every index, with the same writes. -/
theorem seq_of_advance {run : Byte → Result} {p : Byte} {t : State} (alike : AlikeAtEveryPc s run)
    (ran : run p = .next t) (advanced : t.pc.toNat = p.toNat + 1) :
    ∃ u, u.status = s.status ∧ u.imem = s.imem ∧ ∀ q, run q = .next (seqNext (atPc q u)) := by
  cases alike with
  | stays h =>
    rw [h p t ran] at advanced
    omega
  | moves u distance status imem h =>
    obtain rfl := Host.Outcome.next.inj ((h p).symm.trans ran)
    rcases goto_cases (p.toNat + distance) (atPc p u) with ⟨low, high, e⟩ | ⟨_, e⟩
    · have arrived := toNat_ofInt_of_inRange ⟨low, high⟩
      rw [e, arrive_pc] at advanced
      obtain rfl : distance = 1 := by omega
      exact ⟨u, status, imem, h⟩
    · rw [e, raise_pc, atPc_pc] at advanced
      omega

end AlikeAtEveryPc

/-- Every instruction does the same at every index, but for CSRR of PC. -/
theorem exec_alikeAtEveryPc {i : Instr} (notPc : ∀ rd, i ≠ .csrr rd 11#16) (s : State) :
    AlikeAtEveryPc s fun p => exec i (atPc p s) := by
  cases i with
  | lui | ori | addi | add | sub =>
    simp only [exec, execLui, execOri, execAddi, execAdd, execSub, getReg_atPc, setReg_atPc]
    exact .seq
  | lb | lw =>
    simp only [exec, execLb, execLw, getReg_atPc]
    refine .regions ?_
    simp only [memRead_atPc, setReg_atPc]
    exact .seq
  | sb | sw | mcpy | kst | sha256 | sha512 | hmac512 =>
    simp only [exec, execSb, execSw, execMcpy, execKst, execSha256, execSha512, execHmac512, getReg_atPc, regNat_atPc]
    refine .regions ?_
    simp only [memRead_atPc, regNat_atPc, scalarNat_atPc, memWrite_atPc]
    exact .seq
  | beq rs1 rs2 off => exact .branch (decide (regNat rs1 s = regNat rs2 s)) off fun _ => rfl
  | bne rs1 rs2 off => exact .branch (decide (regNat rs1 s ≠ regNat rs2 s)) off fun _ => rfl
  | bltu rs1 rs2 off => exact .branch (decide (regNat rs1 s < regNat rs2 s)) off fun _ => rfl
  | bgeu rs1 rs2 off => exact .branch (decide (regNat rs1 s ≥ regNat rs2 s)) off fun _ => rfl
  | bfs cond off => exact .branch (condFlag cond s.flags) off fun _ => rfl
  | bfc cond off => exact .branch (!condFlag cond s.flags) off fun _ => rfl
  | halt => exact .of_pc fun _ => rfl
  | seterr =>
    simp only [exec, execSeterr]
    refine .legal ?_
    simp only [setChecked_atPc]
    exact .seq
  | csrr rd csr =>
    have notPcNumber : csr.toNat ≠ 11 := fun e => notPc rd (congrArg _ (BitVec.eq_of_toNat_eq e))
    simp only [exec, execCsrr]
    refine .legal ?_
    simp only [csrValue_atPc _ _ notPcNumber, setReg_atPc]
    exact .seq
  | kld =>
    simp only [exec, execKld, getReg_atPc]
    refine .regions ?_
    simp only [memRead_atPc, setK_atPc]
    exact .seq
  | kldc =>
    simp only [exec, execKldc]
    refine .legal ?_
    simp only [setK_atPc]
    exact .seq
  | kmov | kadd | kaddm | kcmp | kchk | kred =>
    simp only [exec, execKmov, execKadd, execKaddm, execKcmp, execKchk, execKred, getK_atPc, scalarNat_atPc, atPc_flags,
      setK_atPc, setFlags_atPc]
    exact .seq
  | pbkdf2 =>
    simp only [exec, execPbkdf2, regNat_atPc, getReg_atPc, setChecked_atPc]
    refine .choice (fun _ => .seq) fun _ => .regions ?_
    simp only [memRead_atPc, regNat_atPc, memWrite_atPc, setChecked_atPc]
    exact .seq
  | b39enc =>
    simp only [exec, execB39enc, regNat_atPc, getReg_atPc]
    refine .choice (fun _ => .regions ?_) fun _ => .packerError _
    simp only [memRead_atPc, regNat_atPc]
    exact .packerDone ..
  | b39dec =>
    simp only [exec, execB39dec, regNat_atPc, getReg_atPc]
    refine .choice (fun _ => .regions ?_) fun _ => .packerError _
    simp only [memRead_atPc, regNat_atPc]
    exact .unpackInto ..
  | entropy rd rl =>
    simp only [exec, execEntropy, regNat_atPc, getReg_atPc]
    refine .regions ?_
    simp only [regNat_atPc, entropyAnswer_atPc, entropyLooked_atPc]
    refine .choice (fun _ => .seq) fun _ => ?_
    cases entropyAnswer (regNat rl s) s with
    | waiting => exact .of_pc fun _ => rfl
    | failed => exact .of_pc fun _ => rfl
    | bytes bs =>
      simp only [entropyFill, memWrite_atPc]
      exact .choice (fun _ => .seq) fun _ => .stays fun _ _ stopped => by cases stopped
  | pubk rd ks =>
    simp only [exec, execPubk, getReg_atPc]
    refine .regions ?_
    simp only [regNat_atPc, scalarNat_atPc, getK_atPc, curveAnswer_atPc, curveLooked_atPc]
    refine .choice (fun _ => ?_) fun _ => .of_pc fun _ => rfl
    cases curveAnswer s with
    | waiting => exact .of_pc fun _ => rfl
    | failed => exact .of_pc fun _ => rfl
    | point =>
      simp only [curveFill, memWrite_atPc]
      exact .seq

/-- What PC_RANGE records of an instruction at index 255 whose writes are made. -/
theorem raise_pcRange_at_last {s u : State} (last : s.pc = 255#8) (pc : u.pc = s.pc) (status : u.status = s.status)
    (imem : u.imem = s.imem) :
    (raise .pcRange 0x100#32 u).status =
        { s.status with busy := false, fault := true, irq := true, abortReq := false } ∧
      (raise .pcRange 0x100#32 u).faultRegs =
        { cause := .pcRange, pc := 255#8, insn := fetchWord s, info := 0x100#32 } := by
  have fetched : fetchWord u = fetchWord s := by rw [fetchWord, fetchWord, imemWord, imemWord, pc, imem]
  rw [raise_status, raise_faultRegs, status, fetched, pc, last]
  exact ⟨rfl, rfl⟩

/-- Settles O20: the writes are those at the lower index, since the instruction does the same at both, and the index that
follows 255 is not in IMEM; CSRR of PC is read off its own meaning. -/
theorem lastIndexKeepsTheWritesThenFaults : Obligations.LastIndexKeepsTheWritesThenFaults := by
  refine ⟨fun i s t' p last _ notPc ran advanced => ?others, fun s rd last => ?csrrOfPc⟩
  case others =>
    obtain ⟨u, status, imem, goesOn⟩ := (exec_alikeAtEveryPc notPc s).seq_of_advance ran advanced
    obtain rfl : seqNext (atPc p u) = t' := Host.Outcome.next.inj ((goesOn p).symm.trans ran)
    have atLast : exec i s = .next (raise .pcRange 0x100#32 (atPc 255#8 u)) := by
      have here : atPc 255#8 s = s := by rw [← last]; rfl
      rw [← seqNext_of_last (atPc_pc 255#8 u), ← goesOn, here]
    obtain ⟨ended, recorded⟩ := raise_pcRange_at_last (u := atPc 255#8 u) last last.symm status imem
    exact ⟨_, atLast, fun r => (getReg_seqNext (atPc p u) r).symm, fun k => (getK_seqNext (atPc p u) k).symm,
      fun a => (dmemByte_seqNext (atPc p u) a).symm, (seqNext_flags (atPc p u)).symm, (seqNext_err (atPc p u)).symm,
      (seqNext_env (atPc p u)).symm, ended, recorded, rfl⟩
  case csrrOfPc =>
    have ran := exec_csrr_of_lt (csr := 11#16) (by decide) rd s
    have written := OwnWrites.setReg rd (csrValue (11#16).toNat s) s
    rw [seqNext_of_last (written.pc.trans last)] at ran
    obtain ⟨ended, recorded⟩ := raise_pcRange_at_last last written.pc written.status written.imem
    refine ⟨_, ran, ?value, (DataKept.setReg ..).trans (.of_fields rfl rfl rfl ..), ⟨?flags, ?err⟩, recorded, ended⟩
    case value =>
      have ownIndex : csrValue (11#16).toNat s = 255#32 := congrArg (·.zeroExtend 32) last
      rw [getReg_raise, getReg_setReg, ownIndex]
      by_cases isR0 : rd = 0 <;> simp [isR0]
    case flags => rw [raise_flags, setReg_flags]
    case err => rw [raise_err, setReg_err]

end Sys2Proof.Machine
end

section
/-! PROOFS. SHA-256 and SHA-512 (42_hash.md, R300 to R310): the padding, the schedule, the rounds and the chain of hash
values as their rules give them, and the round constants as fractional parts of cube roots of primes. -/

open Sys2Proof Sys2Proof.Machine

namespace Sys2Proof.Machine

/-! ## Padding (R302, R307) -/

theorem padZeros_fills {block : Nat} (pos : 0 < block) (lengthBytes len : Nat) :
    (len + 1 + padZeros block lengthBytes len + lengthBytes) % block = 0 := by
  have least : len + 1 + lengthBytes + (block - (len + 1 + lengthBytes) % block) ≡ 0 [MOD block] := by
    rw [Nat.ModEq, ← Nat.mod_add_mod, Nat.add_sub_cancel' (Nat.mod_lt _ pos).le, Nat.mod_self, Nat.zero_mod]
  rw [Nat.add_right_comm, padZeros, Nat.add_mod_mod]
  exact least

/-- Two counts of zeros that fill whole blocks are equal modulo the block, and `padZeros` is the remainder. -/
theorem padZeros_le {block lengthBytes len q : Nat} (pos : 0 < block)
    (fills : (len + 1 + q + lengthBytes) % block = 0) : padZeros block lengthBytes len ≤ q := by
  have same : len + 1 + lengthBytes + padZeros block lengthBytes len ≡ len + 1 + lengthBytes + q [MOD block] := by
    rw [Nat.ModEq, Nat.add_right_comm, padZeros_fills pos, Nat.add_right_comm, fills]
  calc padZeros block lengthBytes len
      = padZeros block lengthBytes len % block := (Nat.mod_mod _ _).symm
    _ = q % block := same.add_left_cancel'
    _ ≤ q := Nat.mod_le q block

/-- Settles O29, by the laws of `padZeros` for blocks of 64 and of 128 bytes. -/
theorem paddingFillsWholeBlocksWithTheLeastZeros : Obligations.PaddingFillsWholeBlocksWithTheLeastZeros := by
  intro m
  exact ⟨⟨padZeros 64 8 m.length, rfl, padZeros_fills (by decide) 8 m.length, fun _ => padZeros_le (by decide)⟩,
    ⟨padZeros 128 16 m.length, rfl, padZeros_fills (by decide) 16 m.length, fun _ => padZeros_le (by decide)⟩⟩

section

variable {w : Nat} (p : Sha2 w)

/-- The padded message is whole blocks. -/
theorem padMessage_whole_blocks (pos : 0 < blockBytes p) (m : List Byte) :
    (padMessage p m).length = (padMessage p m).length / blockBytes p * blockBytes p := by
  have fills := padZeros_fills pos p.lengthBytes m.length
  refine (Nat.div_mul_cancel (Nat.dvd_of_mod_eq_zero ?_)).symm
  rw [← fills]
  congr 1
  simp only [padMessage, List.length_append, List.length_cons, List.length_nil, List.length_replicate, length_beBytes]

/-! ## The message schedule (R302, R305, R307) -/

/-- The words already made stay the words first made. -/
theorem suffix_extendSchedule (n : Nat) (before : List (BitVec w)) : before <:+ extendSchedule p n before := by
  induction n generalizing before with
  | zero => exact List.suffix_rfl
  | succ n ih => exact (List.suffix_cons _ before).trans (ih _)

@[simp] theorem length_extendSchedule (n : Nat) (before : List (BitVec w)) :
    (extendSchedule p n before).length = before.length + n := by
  induction n generalizing before with
  | zero => rfl
  | succ n ih =>
    rw [extendSchedule, ih, List.length_cons]
    omega

theorem getD_extendSchedule_of_lt {t : Nat} {before : List (BitVec w)} (early : t < before.length) (n : Nat) :
    (extendSchedule p n before).reverse.getD t 0#w = before.reverse.getD t 0#w := by
  obtain ⟨later, made⟩ := suffix_extendSchedule p n before
  rw [← made, List.reverse_append, List.getD_append _ _ _ _ (by rwa [List.length_reverse])]

/-- Each further word is the next one after those before it. -/
theorem getD_extendSchedule {n t : Nat} {before : List (BitVec w)} (further : before.length ≤ t)
    (inside : t < before.length + n) :
    (extendSchedule p n before).reverse.getD t 0#w =
      nextScheduleWord p ((extendSchedule p n before).reverse.take t).reverse := by
  induction n generalizing before with
  | zero => omega
  | succ n ih =>
    rw [extendSchedule]
    rcases further.eq_or_lt with rfl | later
    · obtain ⟨after, made⟩ := suffix_extendSchedule p n (nextScheduleWord p before :: before)
      rw [← made]
      simp [List.getD_eq_getElem?_getD]
    · exact ih later (by rw [List.length_cons]; omega)

/-- The next word, from the words before it in the order of the schedule (R305). -/
theorem nextScheduleWord_reverse_take {t : Nat} {words : List (BitVec w)} (enough : 16 ≤ t)
    (inside : t ≤ words.length) :
    nextScheduleWord p (words.take t).reverse =
      p.smallSigma1 (words.getD (t - 2) 0#w) + words.getD (t - 7) 0#w + p.smallSigma0 (words.getD (t - 15) 0#w) +
        words.getD (t - 16) 0#w := by
  have back {j : Nat} (hj : j < 16) : (words.take t).reverse.getD j 0 = words.getD (t - (j + 1)) 0#w := by
    rw [List.getD_reverse _ (by simp; omega), List.length_take, Nat.min_eq_left inside, Nat.sub_sub, Nat.add_comm 1,
      List.getD_eq_getElem?_getD, List.getElem?_take_of_lt (by omega), ← List.getD_eq_getElem?_getD]
    rfl
  simp only [nextScheduleWord]
  rw [back (by decide), back (by decide), back (by decide), back (by decide)]

@[simp] theorem length_blockWords (block : List Byte) : (blockWords p block).length = 16 := by
  rw [blockWords, List.length_map, length_pieces]

theorem getD_blockWords {t : Nat} (ht : t < 16) (block : List Byte) :
    (blockWords p block).getD t 0#w =
      BitVec.ofNat w (intBE ((block.drop (p.wordBytes * t)).take p.wordBytes)) := by
  have mapped := List.getD_map (pieces p.wordBytes 16 block) [] (n := t) fun bs => BitVec.ofNat w (intBE bs)
  rwa [pieces_getD 16 block t ht] at mapped

theorem length_scheduleWords (enough : 16 ≤ p.constants.length) (block : List Byte) :
    (scheduleWords p block).length = p.constants.length := by
  rw [scheduleWords, List.length_reverse, length_extendSchedule, List.length_reverse, length_blockWords,
    Nat.add_sub_cancel' enough]

/-- The first 16 words are those of the block. -/
theorem getD_scheduleWords_of_lt {t : Nat} (ht : t < 16) (block : List Byte) :
    (scheduleWords p block).getD t 0#w =
      BitVec.ofNat w (intBE ((block.drop (p.wordBytes * t)).take p.wordBytes)) := by
  rw [scheduleWords, getD_extendSchedule_of_lt p (by simpa using ht), List.reverse_reverse, getD_blockWords p ht]

/-- The recurrence of the schedule. -/
theorem getD_scheduleWords_of_le {t : Nat} (further : 16 ≤ t) (inside : t < p.constants.length) (block : List Byte) :
    (scheduleWords p block).getD t 0#w =
      p.smallSigma1 ((scheduleWords p block).getD (t - 2) 0#w) + (scheduleWords p block).getD (t - 7) 0#w +
        p.smallSigma0 ((scheduleWords p block).getD (t - 15) 0#w) + (scheduleWords p block).getD (t - 16) 0#w := by
  have whole := length_scheduleWords p (by omega) block
  rw [← nextScheduleWord_reverse_take p further (by omega)]
  exact getD_extendSchedule p (by simpa using further) (by simp; omega)

/-! ## The rounds of a block, and the blocks of a message (R305, R310) -/

theorem foldl_take_succ {α β : Type} (f : β → α → β) (init : β) {l : List α} {t : Nat} (ht : t < l.length) :
    (l.take (t + 1)).foldl f init = f ((l.take t).foldl f init) l[t] := by
  rw [List.take_succ_eq_append_getElem ht, List.foldl_append, List.foldl_cons, List.foldl_nil]

/-- The working words after `t` rounds of a block, from the hash value `h`. -/
def workingWords (h : Hash8 w) (block : List Byte) (t : Nat) : Hash8 w :=
  ((p.constants.zip (scheduleWords p block)).take t).foldl (hashRound p) h

theorem workingWords_succ {t : Nat} (enough : 16 ≤ p.constants.length) (ht : t < p.constants.length) (h : Hash8 w)
    (block : List Byte) :
    workingWords p h block (t + 1) =
      hashRound p (workingWords p h block t) (p.constants.getD t 0#w, (scheduleWords p block).getD t 0#w) := by
  have whole := length_scheduleWords p enough block
  rw [workingWords, foldl_take_succ _ _ (by simp; omega), List.getElem_zip, ← List.getD_eq_getElem _ 0#w,
    ← List.getD_eq_getElem _ 0#w, workingWords]

theorem hashBlock_eq_addHash (h : Hash8 w) (block : List Byte) :
    hashBlock p h block = addHash h (workingWords p h block p.constants.length) := by
  rw [hashBlock, workingWords, List.take_of_length_le (by simp)]

/-- Block `i` of the padded message. -/
def paddedBlock (m : List Byte) (i : Nat) : List Byte :=
  ((padMessage p m).drop (blockBytes p * i)).take (blockBytes p)

/-- The hash value after `i` blocks of the padded message. -/
def hashAfter (m : List Byte) (i : Nat) : Hash8 w :=
  ((pieces (blockBytes p) ((padMessage p m).length / blockBytes p) (padMessage p m)).take i).foldl (hashBlock p)
    p.initial

theorem hashAfter_succ {m : List Byte} {i : Nat} (hi : i < (padMessage p m).length / blockBytes p) :
    hashAfter p m (i + 1) = hashBlock p (hashAfter p m i) (paddedBlock p m i) := by
  rw [hashAfter, foldl_take_succ _ _ (by rwa [length_pieces]), ← List.getD_eq_getElem _ [], pieces_getD _ _ _ hi,
    hashAfter, paddedBlock]

/-- The digest is the hash value after every block. -/
theorem sha2_eq_hashAfter (m : List Byte) :
    sha2 p m = (hashWords (hashAfter p m ((padMessage p m).length / blockBytes p))).flatMap
      fun x => beBytes p.wordBytes x.toNat := by
  rw [hashAfter, List.take_of_length_le (by rw [length_pieces])]
  rfl

/-- The first words of the schedule of block `i`, as bytes of the padded message. -/
theorem getD_scheduleWords_paddedBlock {t : Nat} (ht : t < 16) (m : List Byte) (i : Nat) :
    (scheduleWords p (paddedBlock p m i)).getD t 0#w =
      BitVec.ofNat w (intBE (((padMessage p m).drop (blockBytes p * i + p.wordBytes * t)).take p.wordBytes)) := by
  have inBlock : p.wordBytes ≤ blockBytes p - p.wordBytes * t := by
    have : p.wordBytes * t + p.wordBytes ≤ p.wordBytes * 16 := Nat.mul_le_mul_left p.wordBytes ht
    rw [blockBytes]
    omega
  rw [getD_scheduleWords_of_lt p ht, paddedBlock, List.drop_take, List.take_take, Nat.min_eq_left inBlock,
    List.drop_drop]

end

/-! ## Round constants (R304, R309) -/

/-- The 80 primes, evaluated by the kernel once; the statements on the constants then search no further than a root. -/
theorem firstPrimes_eq : firstPrimes =
    [2, 3, 5, 7, 11, 13, 17, 19, 23, 29, 31, 37, 41, 43, 47, 53, 59, 61, 67, 71, 73, 79, 83, 89, 97, 101, 103, 107, 109,
      113, 127, 131, 137, 139, 149, 151, 157, 163, 167, 173, 179, 181, 191, 193, 197, 199, 211, 223, 227, 229, 233, 239,
      241, 251, 257, 263, 269, 271, 277, 281, 283, 293, 307, 311, 313, 317, 331, 337, 347, 349, 353, 359, 367, 373, 379,
      383, 389, 397, 401, 409] := by
  decide +kernel

/-- R304: for each constant the kernel finds the integer part of the cube root. -/
theorem isCubeRootFraction_sha256Constants :
    ∀ t < 64, IsCubeRootFraction (firstPrimes.getD t 0) (sha256Constants.getD t 0#32) := by
  rw [firstPrimes_eq]
  unfold IsCubeRootFraction
  decide +kernel

/-- R309, likewise. -/
theorem isCubeRootFraction_sha512Constants :
    ∀ t < 80, IsCubeRootFraction (firstPrimes.getD t 0) (sha512Constants.getD t 0#64) := by
  rw [firstPrimes_eq]
  unfold IsCubeRootFraction
  decide +kernel

/-! ## The digests (R300 to R310) -/

theorem rotr_eq_rotateRight {w r : Nat} (hr : r < w) (x : BitVec w) : rotr r x = x.rotateRight r :=
  (BitVec.rotateRight_eq_rotateRightAux_of_lt hr).symm

theorem bigSigma_eq_rotr {w a b c : Nat} (h : a < w ∧ b < w ∧ c < w) :
    bigSigma (a, b, c) = fun x : BitVec w => rotr a x ^^^ rotr b x ^^^ rotr c x := by
  obtain ⟨ha, hb, hc⟩ := h
  simp only [rotr_eq_rotateRight ha, rotr_eq_rotateRight hb, rotr_eq_rotateRight hc]
  rfl

theorem smallSigma_eq_rotr {w a b : Nat} (c : Nat) (h : a < w ∧ b < w) :
    smallSigma (a, b, c) = fun x : BitVec w => rotr a x ^^^ rotr b x ^^^ (x >>> c) := by
  obtain ⟨ha, hb⟩ := h
  simp only [rotr_eq_rotateRight ha, rotr_eq_rotateRight hb]
  rfl

/-- The parameters `p` of the model are those of the rule `r`. -/
structure Implements {w : Nat} (p : Sha2 w) (r : ShaRule w) : Prop where
  wordBytes : r.wordBytes = p.wordBytes
  wordBytes_pos : 0 < p.wordBytes
  lengthBytes : r.lengthBytes = p.lengthBytes
  rounds : r.rounds = p.constants.length
  enough : 16 ≤ p.constants.length
  bigSigma0 : bigSigma r.bigSigma0 = p.bigSigma0
  bigSigma1 : bigSigma r.bigSigma1 = p.bigSigma1
  smallSigma0 : smallSigma r.smallSigma0 = p.smallSigma0
  smallSigma1 : smallSigma r.smallSigma1 = p.smallSigma1
  initial : r.initial = p.initial
  constants : ∀ t < p.constants.length, IsCubeRootFraction (firstPrimes.getD t 0) (p.constants.getD t 0#w)

theorem implements_sha256 : Implements sha256Params sha256Rule where
  wordBytes := rfl
  wordBytes_pos := by decide
  lengthBytes := rfl
  rounds := rfl
  enough := by decide
  bigSigma0 := bigSigma_eq_rotr (by decide)
  bigSigma1 := bigSigma_eq_rotr (by decide)
  smallSigma0 := smallSigma_eq_rotr _ (by decide)
  smallSigma1 := smallSigma_eq_rotr _ (by decide)
  initial := rfl
  constants := isCubeRootFraction_sha256Constants

theorem implements_sha512 : Implements sha512Params sha512Rule where
  wordBytes := rfl
  wordBytes_pos := by decide
  lengthBytes := rfl
  rounds := rfl
  enough := by decide
  bigSigma0 := bigSigma_eq_rotr (by decide)
  bigSigma1 := bigSigma_eq_rotr (by decide)
  smallSigma0 := smallSigma_eq_rotr _ (by decide)
  smallSigma1 := smallSigma_eq_rotr _ (by decide)
  initial := rfl
  constants := isCubeRootFraction_sha512Constants

namespace Implements

variable {w : Nat} {p : Sha2 w} {r : ShaRule w}

theorem isRound (h : Implements p r) (k word : BitVec w) (s : Hash8 w) :
    IsRound r k word s (hashRound p s (k, word)) := by
  rw [IsRound, h.bigSigma0, h.bigSigma1]
  exact ⟨_, _, rfl, rfl, rfl⟩

/-- The digest of the model is that of the rule, by its own words, working words and hash values. -/
theorem isDigest_sha2 (h : Implements p r) (m : List Byte) : IsDigest r m (sha2 p m) := by
  have pos : 0 < blockBytes p := Nat.mul_pos (by decide) h.wordBytes_pos
  simp only [IsDigest, h.wordBytes, h.lengthBytes, h.rounds, h.smallSigma0, h.smallSigma1, h.initial]
  refine ⟨_, _, padMessage p m, fun t => p.constants.getD t 0#w, hashAfter p m,
    fun i t => (scheduleWords p (paddedBlock p m i)).getD t 0#w,
    fun i => workingWords p (hashAfter p m i) (paddedBlock p m i), rfl, padMessage_whole_blocks p pos m,
    fun q => padZeros_le pos, h.constants, rfl, fun i hi => ⟨fun t ht => ?firstWords, fun t => ?recurrence, rfl,
      fun t ht => ?round, ?sum⟩, sha2_eq_hashAfter p m⟩
  case firstWords => exact getD_scheduleWords_paddedBlock p ht m i
  case recurrence => exact fun further inside => getD_scheduleWords_of_le p further inside _
  case round =>
    beta_reduce
    rw [workingWords_succ p h.enough ht]
    exact h.isRound ..
  case sum => rw [hashAfter_succ p hi, hashBlock_eq_addHash, addHash]

end Implements

/-- Settles O30: both parameter sets are those of their rules, and a schedule's words follow its recurrence. -/
theorem digestsFollowScheduleAndRounds : Obligations.DigestsFollowScheduleAndRounds := by
  refine ⟨fun m => ⟨implements_sha256.isDigest_sha2 m, implements_sha512.isDigest_sha2 m⟩,
    fun block => ⟨?sha256, ?sha512⟩⟩
  case sha256 =>
    exact ⟨length_scheduleWords sha256Params (by decide) block,
      fun _ ht => getD_scheduleWords_of_lt sha256Params ht block,
      fun _ further inside => getD_scheduleWords_of_le sha256Params further inside block⟩
  case sha512 =>
    exact ⟨length_scheduleWords sha512Params (by decide) block,
      fun _ ht => getD_scheduleWords_of_lt sha512Params ht block,
      fun _ further inside => getD_scheduleWords_of_le sha512Params further inside block⟩

end Sys2Proof.Machine
end

section
/-! PROOFS. HMAC-SHA512 and PBKDF2 (42_hash.md, R312, R314) as nested and chained hashes, and the four hash instructions
(R330 to R333). -/

open Sys2Proof Sys2Proof.Machine

namespace Sys2Proof.Machine

/-! ## HMAC-SHA512 (R312) -/

/-- The XOR with one byte repeated is the XOR of every byte with it. -/
theorem xorBytes_replicate (x : List Byte) (b : Byte) :
    xorBytes x (List.replicate x.length b) = x.map (· ^^^ b) := by
  induction x with
  | nil => rfl
  | cons a x ih => exact congrArg _ ih

theorem hmacKey_of_le {key : List Byte} (short : key.length ≤ 128) :
    hmacKey key = key ++ List.replicate (128 - key.length) 0#8 := by
  rw [hmacKey, if_neg (by omega)]

theorem hmacKey_of_lt {key : List Byte} (long : 128 < key.length) :
    hmacKey key = sha512 key ++ List.replicate 64 0#8 := by
  rw [hmacKey, if_pos long, length_sha512]

theorem hmac512_eq_nested (key msg : List Byte) :
    hmac512 key msg =
      sha512 ((hmacKey key).map (· ^^^ 0x5C#8) ++ sha512 ((hmacKey key).map (· ^^^ 0x36#8) ++ msg)) := by
  rw [hmac512, ← length_hmacKey key, xorBytes_replicate, xorBytes_replicate]

/-- Settles O31, with `hmacKey` as the padded key. -/
theorem hmacNestsTwoHashes : Obligations.HmacNestsTwoHashes := fun key msg =>
  ⟨hmacKey key, length_hmacKey key, hmacKey_of_le, hmacKey_of_lt, hmac512_eq_nested key msg, length_hmac512 key msg⟩

/-! ## PBKDF2 (R314) -/

theorem getD_xorBytes {x y : List Byte} {i : Nat} (hx : i < x.length) (hy : i < y.length) :
    (xorBytes x y).getD i 0#8 = x.getD i 0#8 ^^^ y.getD i 0#8 := by
  rw [List.getD_eq_getElem _ _ (by rw [length_xorBytes]; omega), List.getD_eq_getElem _ _ hx,
    List.getD_eq_getElem _ _ hy]
  exact List.getElem_zipWith

/-- From the `j`-th HMAC of a chain, `n` more iterations take the next `n` of the chain into the XOR. -/
theorem getD_pbkdf2Iterate {password t : List Byte} {u : Nat → List Byte} {i j n : Nat} (hi : i < 64)
    (ht : t.length = 64) (chain : ∀ k, j ≤ k → k < j + n → u (k + 1) = hmac512 password (u k)) :
    (pbkdf2Iterate password n (u j) t).getD i 0#8 =
      (List.range' j n).foldl (fun x k => x ^^^ (u (k + 1)).getD i 0#8) (t.getD i 0#8) := by
  induction n generalizing j t with
  | zero => rfl
  | succ n ih =>
    have next : u (j + 1) = hmac512 password (u j) := chain j le_rfl (by omega)
    have nextLength : (u (j + 1)).length = 64 := by rw [next, length_hmac512]
    have rest := ih (j := j + 1) (t := xorBytes t (u (j + 1))) (by rw [length_xorBytes, ht, nextLength, min_self])
      fun k lo hi => chain k (by omega) (by omega)
    rw [getD_xorBytes (by omega) (by omega)] at rest
    rw [pbkdf2Iterate, ← next, rest, List.range'_succ, List.foldl_cons]

/-- Settles O32: the first HMAC starts the XOR, and the others follow by the iteration. -/
theorem pbkdfIsTheXorOfTheChain : Obligations.PbkdfIsTheXorOfTheChain := by
  intro password salt c u atLeastOne first chain
  refine ⟨length_pbkdf2 password salt c, fun i hi => ?_⟩
  obtain ⟨n, rfl⟩ : ∃ n, c = n + 1 := ⟨c - 1, by omega⟩
  have start : (u 1).length = 64 := by rw [first, length_hmac512]
  have iterated := getD_pbkdf2Iterate (j := 1) (n := n) hi start fun k lo hi => chain k lo (by omega)
  calc (pbkdf2 password salt (n + 1)).getD i 0#8
      = (pbkdf2Iterate password n (u 1) (u 1)).getD i 0#8 := by rw [first]; rfl
    _ = (List.range' 1 n).foldl (fun x k => x ^^^ (u (k + 1)).getD i 0#8) ((u 1).getD i 0#8) := iterated
    _ = (List.range (n + 1)).foldl (fun x j => x ^^^ (u (j + 1)).getD i 0#8) 0#8 := by
      rw [List.range_eq_range', List.range'_succ, List.foldl_cons, BitVec.zero_xor]

/-! ## The hash instructions (R330 to R333) -/

section

variable {s : State} {rd rs rl : RReg}

theorem exec_sha256_of_fits (source : Fits (getReg rs s) (regNat rl s)) (dest : Fits (getReg rd s) 32) :
    exec (.sha256 rd rs rl) s =
      .next (seqNext (memWrite (regNat rd s) (sha256 (memRead (regNat rs s) (regNat rl s) s)) s)) := by
  rw [exec, execSha256]
  exact withRegions_of_ok (by simpa [Fits] using And.intro source dest) _ s

theorem exec_sha512_of_fits (source : Fits (getReg rs s) (regNat rl s)) (dest : Fits (getReg rd s) 64) :
    exec (.sha512 rd rs rl) s =
      .next (seqNext (memWrite (regNat rd s) (sha512 (memRead (regNat rs s) (regNat rl s) s)) s)) := by
  rw [exec, execSha512]
  exact withRegions_of_ok (by simpa [Fits] using And.intro source dest) _ s

theorem exec_hmac512_of_fits {rk rkl rm rml : RReg} (key : Fits (getReg rk s) (regNat rkl s))
    (msg : Fits (getReg rm s) (regNat rml s)) (dest : Fits (getReg rd s) 64) :
    exec (.hmac512 rd rk rkl rm rml) s =
      .next (seqNext (memWrite (regNat rd s)
        (hmac512 (memRead (regNat rk s) (regNat rkl s) s) (memRead (regNat rm s) (regNat rml s) s)) s)) := by
  rw [exec, execHmac512]
  exact withRegions_of_ok (by simpa [Fits] using And.intro key (And.intro msg dest)) _ s

theorem exec_pbkdf2_of_zero {rp rpl rsl rc : RReg} (zero : regNat rc s = 0) :
    exec (.pbkdf2 rd rp rpl rs rsl rc) s = .next (seqNext (setChecked configurationError s)) := by
  rw [exec, execPbkdf2, if_pos zero]

theorem exec_pbkdf2_of_fits {rp rpl rsl rc : RReg} (nonzero : regNat rc s ≠ 0)
    (password : Fits (getReg rp s) (regNat rpl s)) (salt : Fits (getReg rs s) (regNat rsl s))
    (dest : Fits (getReg rd s) 64) :
    exec (.pbkdf2 rd rp rpl rs rsl rc) s =
      .next (seqNext (setChecked 0#8 (memWrite (regNat rd s)
        (pbkdf2 (memRead (regNat rp s) (regNat rpl s) s) (memRead (regNat rs s) (regNat rsl s) s) (regNat rc s))
        s))) := by
  rw [exec, execPbkdf2, if_neg nonzero]
  exact withRegions_of_ok (by simpa [Fits] using And.intro password (And.intro salt dest)) _ s

end

/-- An instruction that writes one region of a known length and goes on. -/
theorem WritesRegion.of_exec_length {i : Instr} {a n : Nat} {bs : List Byte} {s : State} (hpc : s.pc.toNat < 255)
    (length : bs.length = n) (inside : a + n ≤ 4096) (h : exec i s = .next (seqNext (memWrite a bs s))) :
    WritesRegion i a n bs s.flags s.err s := by
  subst length
  exact .of_exec hpc inside h

/-- An instruction that writes one region of a known length, flags and ERR, and goes on. -/
theorem WritesRegion.of_exec_results {i : Instr} {a n : Nat} {bs : List Byte} {s u : State} (hpc : s.pc.toNat < 255)
    (length : bs.length = n) (inside : a + n ≤ 4096) (h : exec i s = .next (seqNext u))
    (w : OwnWrites (memWrite a bs s) u) (regs : u.regs = s.regs) (kregs : u.kregs = s.kregs)
    (dmem : u.dmem = (memWrite a bs s).dmem) (env : u.env = s.env) : WritesRegion i a n bs u.flags u.err s := by
  subst length
  have kept : DataKept [] [] a bs.length (memWrite a bs s) u := .of_fields (s := memWrite a bs s) regs kregs dmem ..
  refine ⟨_, h, rfl, fun j hj => ?_, seqNext_flags u, seqNext_err u,
    .seqNext hpc ((OwnWrites.memWrite inside).trans w) ((DataKept.memWrite a bs s).trans kept) env⟩
  rw [dmemByte_seqNext, dmemByte, dmem]
  exact dmemByte_memWrite_inside hj

/-- Settles O33: each instruction is one write of its digest. -/
theorem hashInstructionsWriteTheDigest : Obligations.HashInstructionsWriteTheDigest := by
  intro s rd rs rl rm rml hpc source
  refine ⟨fun dest => ?sha256, fun dest => ?sha512, fun dest msg => ?hmac512⟩
  case sha256 =>
    exact .of_exec_length hpc (length_sha256 _) dest (exec_sha256_of_fits source dest)
  case sha512 =>
    exact .of_exec_length hpc (length_sha512 _) dest (exec_sha512_of_fits source dest)
  case hmac512 =>
    exact .of_exec_length hpc (length_hmac512 ..) dest (exec_hmac512_of_fits source msg dest)

/-- Settles O34: a count of 0 writes ERR and E alone, any other count the region before them. -/
theorem pbkdfInstructionCompletes : Obligations.PbkdfInstructionCompletes := by
  intro s rd rp rpl rs rsl rc hpc
  refine ⟨fun zero => ?countZero, fun nonzero password salt dest => ?count⟩
  case countZero =>
    exact .of_exec hpc (exec_pbkdf2_of_zero zero) (.setChecked ..) (.of_fields rfl rfl rfl ..) rfl
  case count =>
    exact .of_exec_results hpc (length_pbkdf2 ..) dest (exec_pbkdf2_of_fits nonzero password salt dest)
      (.setChecked ..) rfl rfl rfl rfl

end Sys2Proof.Machine
end

section
/-! PROOFS. The modular arithmetic unit (43_modarith.md, R349 to R361): the bytes of a scalar in DMEM, and the sums, residues
and comparisons of scalars as exact integers. -/

open Sys2Proof Sys2Proof.Machine

namespace Sys2Proof.Machine

/-! ## Writing a scalar register (R33) -/

theorem scalarNat_lt (k : KReg) (s : State) : scalarNat k s < 2 ^ 256 := (getK k s).isLt

/-- An integer below 2^256 fits a scalar register. -/
theorem toNat_ofNat_scalar {v : Nat} (fits : v < 2 ^ 256) : (BitVec.ofNat 256 v).toNat = v := by
  rw [BitVec.toNat_ofNat, Nat.mod_eq_of_lt fits]

/-- An instruction that writes one scalar register and the flags, but not E, and goes on. -/
theorem WritesScalar.of_exec_flags {i : Instr} {kd : KReg} {x : Scalar} {v : Nat} {f : Flags} {s : State}
    (hpc : s.pc.toNat < 255) (h : exec i s = .next (seqNext (setFlags f (setK kd x s)))) (value : x.toNat = v)
    (keepsE : f.e = s.flags.e) : WritesScalar i kd v f s := by
  have kept : DataKept [] [kd] 0 0 (setK kd x s) (setFlags f (setK kd x s)) := .of_fields rfl rfl rfl ..
  refine ⟨_, h, ?_, seqNext_flags _, seqNext_err _,
    .seqNext hpc ((OwnWrites.setK kd x s).trans (.setFlags keepsE)) ((DataKept.setK kd x s).trans kept) rfl⟩
  rw [scalarNat_seqNext, scalarNat_setFlags, scalarNat, getK_setK_same, value]

/-- An instruction that writes one scalar register alone and goes on: it leaves the flags that it finds. -/
theorem WritesScalar.of_exec {i : Instr} {kd : KReg} {x : Scalar} {v : Nat} {s : State} (hpc : s.pc.toNat < 255)
    (h : exec i s = .next (seqNext (setK kd x s))) (value : x.toNat = v) : WritesScalar i kd v s.flags s :=
  .of_exec_flags hpc (f := s.flags) h value rfl

/-! ## Loads and stores (R350, R351) -/

/-- Byte `j` of the big-endian encoding is that digit, base 256, of the integer (R11). -/
theorem toNat_getD_beBytes {j n : Nat} (hj : j < n) (v : Nat) :
    ((beBytes n v).getD j 0#8).toNat = v / 256 ^ (n - 1 - j) % 256 := by
  induction n generalizing j with
  | zero => omega
  | succ n ih =>
    rw [beBytes]
    cases j with
    | zero => rw [List.getD_cons_zero, BitVec.toNat_ofNat, Nat.pow_mul]; rfl
    | succ j => rw [List.getD_cons_succ, ih (by omega), show n + 1 - 1 - (j + 1) = n - 1 - j by omega]

theorem exec_kst_of_fits {s : State} {rb : RReg} {off : BitVec 16} (fits : Fits (effAddr (getReg rb s) off) 32)
    (ks : KReg) :
    exec (.kst ks rb off) s =
      .next (seqNext (memWrite (effAddr (getReg rb s) off).toNat (beBytes 32 (scalarNat ks s)) s)) := by
  rw [exec, execKst]
  exact withRegions_of_fits fits _ s

/-- Settles O24: the loaded scalar is the integer of the region's bytes, and the stored bytes are those of the scalar. -/
theorem scalarLoadsAndStoresAreBigEndian : Obligations.ScalarLoadsAndStoresAreBigEndian := by
  intro s k rb off hpc fits
  have loadedFits := intBE_memRead_lt (effAddr (getReg rb s) off).toNat 32 s
  constructor
  · exact ⟨_, .of_exec hpc (exec_kld_of_fits fits k) (toNat_ofNat_scalar loadedFits), loadedFits,
      fun j hj => intBE_memRead_digit hj _ s⟩
  · exact ⟨_, .of_exec_length hpc (length_beBytes ..) fits (exec_kst_of_fits fits k),
      fun j hj => toNat_getD_beBytes hj _⟩

/-! ## Moves (R352, R356) -/

theorem exec_kldc_of_le {sel : BitVec 16} (legal : sel.toNat ≤ 1) (kd : KReg) (s : State) :
    exec (.kldc kd sel) s = .next (seqNext (setK kd (BitVec.ofNat 256 (scalarConst sel.toNat)) s)) := by
  have wellFormed : (Instr.kldc kd sel).wellFormed = true := decide_eq_true legal
  rw [exec, execKldc, ifLegal_of_wellFormed wellFormed]

/-- Settles O25: both selectors are legal, and each constant fits a scalar register. -/
theorem scalarMovesWriteTheirValue : Obligations.ScalarMovesWriteTheirValue := by
  intro s kd ks hpc
  refine ⟨?kmov, ?zero, ?curveOrder⟩
  case kmov => exact .of_exec hpc (x := getK ks s) rfl rfl
  case zero => exact .of_exec hpc (exec_kldc_of_le (by decide) kd s) (by decide)
  case curveOrder => exact .of_exec hpc (exec_kldc_of_le (by decide) kd s) (by decide)

/-! ## The sum (R357) -/

/-- Two scalars carry at most once. -/
theorem scalarSum_div_le_one (ka kb : KReg) (s : State) : (scalarNat ka s + scalarNat kb s) / 2 ^ 256 ≤ 1 := by
  have := scalarNat_lt ka s
  have := scalarNat_lt kb s
  omega

/-- C, said by the order of the sum, is the carry. -/
theorem kaddFlags_eq {sum : Nat} (carry : sum / 2 ^ 256 ≤ 1) (f : Flags) :
    kaddFlags sum f = { f with c := decide (sum / 2 ^ 256 = 1), z := decide (sum % 2 ^ 256 = 0) } := by
  have carries : sum ≥ 2 ^ 256 ↔ sum / 2 ^ 256 = 1 := by omega
  rw [kaddFlags, decide_eq_decide.mpr carries]

/-- Settles O26: the carry and the value are the quotient and the remainder of the sum by 2^256. -/
theorem kaddAddsWithCarry : Obligations.KaddAddsWithCarry := by
  intro s kd ka kb hpc
  have carry := scalarSum_div_le_one ka kb s
  have fits : (scalarNat ka s + scalarNat kb s) % 2 ^ 256 < 2 ^ 256 := Nat.mod_lt _ (by decide)
  refine ⟨_, _, carry, fits, (Nat.div_add_mod' _ _).symm, ?_⟩
  rw [← kaddFlags_eq carry]
  exact .of_exec_flags hpc rfl (toNat_ofNat_scalar fits) rfl

/-! ## Residues (R358, R361) -/

/-- C, said by the order of the input, is whether the curve order is subtracted at all. -/
theorem residueFlags_eq (input : Nat) (f : Flags) :
    residueFlags input f =
      { f with c := decide (input / Config.curveOrder ≠ 0), z := decide (input % Config.curveOrder = 0) } := by
  have subtracts : input ≥ Config.curveOrder ↔ input / Config.curveOrder ≠ 0 := by
    rw [Config.curveOrder]
    omega
  rw [residueFlags, decide_eq_decide.mpr subtracts]

/-- An instruction that writes the residue of an integer and its flags, and goes on. -/
theorem exists_residue_of_exec {i : Instr} {kd : KReg} {input most : Nat} {s : State} (hpc : s.pc.toNat < 255)
    (h : exec i s = .next (seqNext (setFlags (residueFlags input s.flags)
      (setK kd (BitVec.ofNat 256 (input % Config.curveOrder)) s))))
    (bound : input / Config.curveOrder ≤ most) :
    ∃ v q, q ≤ most ∧ v < Config.curveOrder ∧ input = q * Config.curveOrder + v ∧
      WritesScalar i kd v { s.flags with c := decide (q ≠ 0), z := decide (v = 0) } s := by
  have below : input % Config.curveOrder < Config.curveOrder := Nat.mod_lt _ (by decide)
  refine ⟨_, _, bound, below, (Nat.div_add_mod' _ _).symm, ?_⟩
  rw [← residueFlags_eq]
  exact .of_exec_flags hpc h (toNat_ofNat_scalar (below.trans (by decide))) rfl

/-- Settles O27: a scalar is below twice the curve order, and a sum of two below three times it. -/
theorem reductionsGiveTheResidue : Obligations.ReductionsGiveTheResidue := by
  intro s kd ka kb hpc
  have ltA := scalarNat_lt ka s
  have ltB := scalarNat_lt kb s
  constructor
  · exact exists_residue_of_exec hpc rfl (by rw [Config.curveOrder]; omega)
  · exact exists_residue_of_exec hpc rfl (by rw [Config.curveOrder]; omega)

/-! ## Comparisons (R359, R360) -/

/-- An instruction that writes flags alone, but not E, and goes on. -/
theorem WritesFlags.of_exec_flags {i : Instr} {f : Flags} {s : State} (hpc : s.pc.toNat < 255)
    (h : exec i s = .next (seqNext (setFlags f s))) (keepsE : f.e = s.flags.e) : WritesFlags i f s.err s :=
  .of_exec hpc h (.setFlags keepsE) (.of_fields rfl rfl rfl ..) rfl

/-- Settles O28: each meaning is one write of these flags. -/
theorem scalarComparesWriteTheirFlags : Obligations.ScalarComparesWriteTheirFlags := by
  intro s ka kb hpc
  constructor
  · exact .of_exec_flags hpc (f := kcmpFlags (scalarNat ka s) (scalarNat kb s) s.flags) rfl rfl
  · exact .of_exec_flags hpc (f := kchkFlags (scalarNat ka s) s.flags) rfl rfl

end Sys2Proof.Machine
end

section
/-! PROOFS. The BIP39 bit-packer (44_bip39.md, R401 to R406): the packing rule and its inverse, both as integers, and the two
packer instructions. The sizes of R402 are `4 * c` bytes, `3 * c` words and `c` checksum bits, for `c` from 4 to 8. -/

open Sys2Proof Sys2Proof.Machine

namespace Sys2Proof.Machine

/-! ## The legal sizes (R402) -/

theorem exists_eq_of_mem_entropyLengths {n : Nat} (legal : n ∈ entropyLengths) : ∃ c, c ≤ 8 ∧ n = 4 * c := by
  refine ⟨n / 4, ?_⟩
  simp only [entropyLengths, List.mem_cons, List.not_mem_nil, or_false] at legal
  omega

theorem exists_eq_of_mem_wordCounts {n : Nat} (legal : n ∈ wordCounts) : ∃ c, c ≤ 8 ∧ n = 3 * c := by
  refine ⟨n / 3, ?_⟩
  simp only [wordCounts, List.mem_cons, List.not_mem_nil, or_false] at legal
  omega

theorem mem_wordCounts_of_mem_entropyLengths {c : Nat} (legal : 4 * c ∈ entropyLengths) : 3 * c ∈ wordCounts := by
  simp only [entropyLengths, wordCounts, List.mem_cons, List.not_mem_nil, or_false] at legal ⊢
  omega

/-! ## The checksum (R401) -/

section

variable {entropy : List Byte} {idx : List Nat} {c : Nat}

theorem length_checksumBits (small : c ≤ 8) : (checksumBits entropy c).length = c := by
  rw [checksumBits, List.length_take, length_bitsOf, length_sha256]
  omega

/-- At most eight checksum bits are the leading bits of the digest's first byte. -/
theorem natOfBits_checksumBits (small : c ≤ 8) :
    natOfBits (checksumBits entropy c) = ((sha256 entropy).getD 0 0#8).toNat / 2 ^ (8 - c) := by
  obtain ⟨first, rest, digest⟩ : ∃ first rest, sha256 entropy = first :: rest :=
    List.exists_cons_of_length_pos (by rw [length_sha256]; decide)
  have bits : bitsOf (first :: rest) = bitsMsb 8 first.toNat ++ bitsOf rest := rfl
  rw [checksumBits, digest, bits, List.take_append_of_le_length (by rwa [length_bitsMsb]), natOfBits_take,
    natOfBits_bitsMsb, length_bitsMsb, Nat.mod_eq_of_lt first.isLt, List.getD_cons_zero]

/-! ## The packing rule (R401) -/

theorem packIndices_eq_pieces (size : entropy.length = 4 * c) :
    packIndices entropy = (pieces 11 (3 * c) (bitsOf entropy ++ checksumBits entropy c)).map natOfBits := by
  rw [packIndices, size, show 8 * (4 * c) / 32 = c by omega, show (8 * (4 * c) + c) / 11 = 3 * c by omega]

theorem length_packedBits (size : entropy.length = 4 * c) (small : c ≤ 8) :
    (bitsOf entropy ++ checksumBits entropy c).length = 11 * (3 * c) := by
  rw [List.length_append, length_bitsOf, length_checksumBits small]
  omega

theorem length_packIndices_of_size (size : entropy.length = 4 * c) : (packIndices entropy).length = 3 * c := by
  rw [length_packIndices]
  omega

/-- The word indices, joined again, are the entropy and its checksum. -/
theorem combinedBits_packIndices (size : entropy.length = 4 * c) (small : c ≤ 8) :
    combinedBits (packIndices entropy) = bitsOf entropy ++ checksumBits entropy c := by
  rw [packIndices_eq_pieces size, combinedBits_pieces (length_packedBits size small)]

theorem lt_of_mem_packIndices (size : entropy.length = 4 * c) (small : c ≤ 8) :
    ∀ x ∈ packIndices entropy, x < 2048 := by
  intro x member
  rw [packIndices_eq_pieces size] at member
  obtain ⟨piece, inPieces, rfl⟩ := List.mem_map.mp member
  have below := natOfBits_lt piece
  rwa [length_of_mem_pieces (length_packedBits size small).ge inPieces] at below

/-- The integer of the entropy followed by its checksum. -/
theorem natOfBits_packedBits (small : c ≤ 8) :
    natOfBits (bitsOf entropy ++ checksumBits entropy c) =
      intBE entropy * 2 ^ c + ((sha256 entropy).getD 0 0#8).toNat / 2 ^ (8 - c) := by
  rw [natOfBits_append, natOfBits_bitsOf, length_checksumBits small, natOfBits_checksumBits small]

/-- Word index `i` is the `i`-th group of eleven bits, as an integer. -/
theorem getD_packIndices {i : Nat} (size : entropy.length = 4 * c) (small : c ≤ 8) (hi : i < 3 * c) :
    (packIndices entropy).getD i 0 =
      (intBE entropy * 2 ^ c + ((sha256 entropy).getD 0 0#8).toNat / 2 ^ (8 - c)) / 2 ^ (11 * (3 * c - 1 - i)) %
        2048 := by
  calc (packIndices entropy).getD i 0
      = natOfBits ((pieces 11 (3 * c) (bitsOf entropy ++ checksumBits entropy c)).getD i []) := by
        rw [packIndices_eq_pieces size]
        exact List.getD_map _ [] natOfBits
    _ = natOfBits (bitsOf entropy ++ checksumBits entropy c) / 2 ^ (11 * (3 * c - 1 - i)) % 2 ^ 11 :=
        natOfBits_piece (length_packedBits size small) hi
    _ = _ := by rw [natOfBits_packedBits small]; rfl

/-! ## The inverse of the packing rule (R403) -/

theorem entropyBitsLen_three_mul (c : Nat) : entropyBitsLen (3 * c) = 32 * c := by
  rw [entropyBitsLen]
  omega

theorem unpackEntropy_eq_pieces (size : idx.length = 3 * c) :
    unpackEntropy idx =
      (pieces 8 (4 * c) (combinedBits idx)).map (fun bits => BitVec.ofNat 8 (natOfBits bits)) := by
  rw [unpackEntropy, size, entropyBitsLen_three_mul, show 32 * c / 8 = 4 * c by omega]

theorem length_unpackEntropy_of_size (size : idx.length = 3 * c) : (unpackEntropy idx).length = 4 * c := by
  rw [length_unpackEntropy]
  omega

/-- The unpacked entropy is the leading bits of the joined word indices. -/
theorem bitsOf_unpackEntropy (size : idx.length = 3 * c) :
    bitsOf (unpackEntropy idx) = (combinedBits idx).take (32 * c) := by
  rw [unpackEntropy_eq_pieces size, bits_of_bytes _ _ (by rw [length_combinedBits]; omega),
    show 8 * (4 * c) = 32 * c by omega]

/-- The checksum is right when the trailing bits of the joined word indices are those of the hash. -/
theorem checksumOk_iff (size : idx.length = 3 * c) :
    checksumOk idx = true ↔ (combinedBits idx).drop (32 * c) = checksumBits (unpackEntropy idx) c := by
  have trailing : ((combinedBits idx).drop (32 * c)).length = c := by
    rw [List.length_drop, length_combinedBits]
    omega
  rw [checksumOk, size, entropyBitsLen_three_mul, show 32 * c / 32 = c by omega,
    List.take_of_length_le trailing.le, beq_iff_eq]

/-- The checksum is right when it is so as an integer. -/
theorem checksumOk_iff_mod_eq (size : idx.length = 3 * c) (small : c ≤ 8) :
    checksumOk idx = true ↔ natOfBits (combinedBits idx) % 2 ^ c =
      ((sha256 (unpackEntropy idx)).getD 0 0#8).toNat / 2 ^ (8 - c) := by
  have trailing : (combinedBits idx).length - 32 * c = c := by
    rw [length_combinedBits]
    omega
  have sameLength : ((combinedBits idx).drop (32 * c)).length = (checksumBits (unpackEntropy idx) c).length := by
    rw [List.length_drop, trailing, length_checksumBits small]
  have value := natOfBits_drop (combinedBits idx) (32 * c)
  rw [trailing] at value
  rw [checksumOk_iff size, ← value, ← natOfBits_checksumBits small]
  exact ⟨congrArg natOfBits, bits_ext sameLength⟩

/-- The unpacked entropy is the joined word indices, as an integer, without the checksum. -/
theorem unpackEntropy_eq_beBytes (size : idx.length = 3 * c) :
    unpackEntropy idx = beBytes (4 * c) (natOfBits (combinedBits idx) / 2 ^ c) := by
  have value : intBE (unpackEntropy idx) = natOfBits (combinedBits idx) / 2 ^ c := by
    rw [← natOfBits_bitsOf, bitsOf_unpackEntropy size, natOfBits_take, length_combinedBits, size,
      show 11 * (3 * c) - 32 * c = c by omega]
  rw [← value, ← length_unpackEntropy_of_size size, beBytes_intBE]

/-! ## Exact inverses (R403) -/

theorem unpackEntropy_packIndices (size : entropy.length = 4 * c) (small : c ≤ 8) :
    unpackEntropy (packIndices entropy) = entropy := by
  rw [unpackEntropy_eq_pieces (length_packIndices_of_size size), combinedBits_packIndices size small, ← size,
    bytes_of_bits]

theorem checksumOk_packIndices (size : entropy.length = 4 * c) (small : c ≤ 8) :
    checksumOk (packIndices entropy) = true := by
  have entropyBits : (bitsOf entropy).length = 32 * c := by
    rw [length_bitsOf]
    omega
  rw [checksumOk_iff (length_packIndices_of_size size), combinedBits_packIndices size small,
    unpackEntropy_packIndices size small, List.drop_left' entropyBits]

theorem packIndices_unpackEntropy (size : idx.length = 3 * c) (inRange : ∀ x ∈ idx, x < 2048)
    (valid : checksumOk idx = true) : packIndices (unpackEntropy idx) = idx := by
  rw [packIndices_eq_pieces (length_unpackEntropy_of_size size), bitsOf_unpackEntropy size,
    ← (checksumOk_iff size).mp valid, List.take_append_drop, ← size, pieces_combinedBits inRange]

end

/-- Settles O37. -/
theorem packingAndUnpackingAreInverse : Obligations.PackingAndUnpackingAreInverse := by
  constructor
  · intro entropy legal
    obtain ⟨c, small, size⟩ := exists_eq_of_mem_entropyLengths legal
    refine ⟨unpackEntropy_packIndices size small, checksumOk_packIndices size small, ?_,
      lt_of_mem_packIndices size small⟩
    rw [length_packIndices_of_size size]
    omega
  · intro idx legal inRange valid
    obtain ⟨c, _, size⟩ := exists_eq_of_mem_wordCounts legal
    exact packIndices_unpackEntropy size inRange valid

/-! ## Index halfwords (R404) -/

/-- Halfword `i` of a byte string is its bytes `2i` and `2i + 1`, most significant first. -/
theorem getD_halfwordValues {i count : Nat} {bs : List Byte} (length : bs.length = 2 * count) (hi : i < count) :
    (halfwordValues count bs).getD i 0 = (bs.getD (2 * i) 0#8).toNat * 256 + (bs.getD (2 * i + 1) 0#8).toNat := by
  have first : 2 * i < bs.length := by omega
  have second : 2 * i + 1 < bs.length := by omega
  have piece : (pieces 2 count bs).getD i [] = [bs[2 * i], bs[2 * i + 1]] := by
    rw [pieces_getD _ _ _ hi, List.drop_eq_getElem_cons first, List.drop_eq_getElem_cons second]
    rfl
  calc (halfwordValues count bs).getD i 0
      = intBE ((pieces 2 count bs).getD i []) := List.getD_map _ [] intBE
    _ = bs[2 * i].toNat * 256 + bs[2 * i + 1].toNat := by
      rw [piece, intBE_cons, intBE_cons, intBE_nil]
      simp
    _ = _ := by rw [List.getD_eq_getElem _ _ first, List.getD_eq_getElem _ _ second]

/-- Word indices are read back from their index halfwords. -/
theorem halfwordValues_halfwords_of_index {idx : List Nat} (inRange : ∀ x ∈ idx, x < 2048) :
    halfwordValues idx.length (halfwords idx) = idx :=
  halfwordValues_halfwords fun x member => (inRange x member).trans (by decide)

/-- The bytes `2i` and `2i + 1` of packed index halfwords are word index `i`. -/
theorem getD_halfwords {i : Nat} {idx : List Nat} (inRange : ∀ x ∈ idx, x < 2048) (hi : i < idx.length) :
    ((halfwords idx).getD (2 * i) 0#8).toNat * 256 + ((halfwords idx).getD (2 * i + 1) 0#8).toNat =
      idx.getD i 0 := by
  rw [← getD_halfwordValues (length_halfwords idx) hi, halfwordValues_halfwords_of_index inRange]

/-- The halfwords of a region read are pairs of bytes of DMEM. -/
theorem halfwordValues_memRead_eq {a : Nat} {h : List Nat} {s : State}
    (bytes : ∀ i, i < h.length →
      h.getD i 0 = (dmemByte s (a + 2 * i)).toNat * 256 + (dmemByte s (a + 2 * i + 1)).toNat) :
    halfwordValues h.length (memRead a (2 * h.length) s) = h := by
  refine List.ext_getElem (length_halfwordValues ..) fun i listed hi => ?_
  rw [← List.getD_eq_getElem _ 0 listed, ← List.getD_eq_getElem _ 0 hi, bytes i hi,
    getD_halfwordValues (length_memRead ..) hi, getD_memRead (by omega), getD_memRead (by omega), Nat.add_assoc]

/-! ## How a packer instruction ends (R405, R406) -/

theorem Fits.regNat_add_le {r : RReg} {n : Nat} {s : State} (fits : Fits (getReg r s) n) :
    regNat r s + n ≤ 4096 := fits

/-- An instruction that ends with a checked error of the packer. -/
theorem WritesFlags.of_packerError {i : Instr} {code : Byte} {s : State} (hpc : s.pc.toNat < 255)
    (h : exec i s = .next (packerError code s)) (isError : code ≠ 0#8) :
    WritesFlags i { s.flags with v := false, e := true } code s := by
  have error : decide (code ≠ 0#8) = true := decide_eq_true isError
  rw [← error]
  exact .of_exec hpc h ((OwnWrites.setChecked code s).trans (.setValid ..)) (.of_fields rfl rfl rfl ..) rfl

/-- A packer instruction that ends well. -/
theorem WritesRegion.of_packerDone {i : Instr} {a n : Nat} {bs : List Byte} {s : State} (hpc : s.pc.toNat < 255)
    (length : bs.length = n) (inside : a + n ≤ 4096) (h : exec i s = .next (packerDone a bs s)) :
    WritesRegion i a n bs { s.flags with v := true, e := false } 0#8 s :=
  .of_exec_results hpc length inside h ((OwnWrites.setChecked ..).trans (.setValid ..)) rfl rfl rfl rfl

section

variable (a : Nat) (bs : List Byte) (s : State)

@[simp] theorem packerDone_flags : (packerDone a bs s).flags = { s.flags with v := true, e := false } :=
  seqNext_flags _

@[simp] theorem packerDone_err : (packerDone a bs s).err = 0#8 := seqNext_err _

@[simp] theorem getReg_packerDone (r : RReg) : getReg r (packerDone a bs s) = getReg r s := getReg_seqNext ..

@[simp] theorem memRead_packerDone : memRead a bs.length (packerDone a bs s) = bs :=
  (memRead_seqNext ..).trans (memRead_memWrite_same s a bs)

theorem dmemByte_packerDone {j : Nat} (hj : j < bs.length) :
    dmemByte (packerDone a bs s) (a + j) = bs.getD j 0#8 :=
  (dmemByte_seqNext ..).trans (dmemByte_memWrite_inside hj)

end

/-! ## B39ENC (R405) -/

section

variable {s : State} {rd rs rl : RReg}

theorem exec_b39enc_of_badLength (bad : regNat rl s ∉ entropyLengths) (rd rs : RReg) :
    exec (.b39enc rd rs rl) s = .next (packerError configurationError s) := by
  rw [exec, execB39enc, if_neg bad]

theorem exec_b39enc_of_fits (legal : regNat rl s ∈ entropyLengths) (source : Fits (getReg rs s) (regNat rl s))
    (dest : Fits (getReg rd s) (2 * (3 * regNat rl s / 4))) :
    exec (.b39enc rd rs rl) s =
      .next (packerDone (regNat rd s) (halfwords (packIndices (memRead (regNat rs s) (regNat rl s) s))) s) := by
  rw [exec, execB39enc, if_pos legal]
  exact withRegions_of_ok (by simpa [Fits] using And.intro source dest) _ s

end

/-- Settles O35: byte pair `i` of the region written is word index `i`, the `i`-th group of eleven bits. -/
theorem b39encPacksEntropyIntoIndices : Obligations.B39encPacksEntropyIntoIndices := by
  intro s rd rs rl hpc
  refine ⟨fun bad => .of_packerError hpc (exec_b39enc_of_badLength bad rd rs) (by decide), ?_⟩
  rintro legal source dest entropy len words cs combined hlen rfl hwords hcs rfl
  obtain ⟨c, small, hc⟩ := exists_eq_of_mem_entropyLengths legal
  obtain rfl : len = 4 * c := hlen.trans hc
  obtain rfl : words = 3 * c := by omega
  obtain rfl : c = cs := by omega
  have size : (memRead (regNat rs s) (4 * c) s).length = 4 * c := length_memRead ..
  have count := length_packIndices_of_size size
  have length : (halfwords (packIndices (memRead (regNat rs s) (4 * c) s))).length = 2 * (3 * c) := by
    rw [length_halfwords, count]
  have ends := exec_b39enc_of_fits legal source dest
  have inside := dest.regNat_add_le
  rw [← hlen, ← hwords] at inside
  rw [← hlen] at ends
  obtain ⟨t, ends, _, bytes, flags, err, frame⟩ := WritesRegion.of_packerDone hpc length inside ends
  refine ⟨t, ends, fun i hi => ?_, flags, err, frame⟩
  rw [Nat.add_assoc, bytes _ (by omega), bytes _ (by omega),
    getD_halfwords (lt_of_mem_packIndices size small) (by omega), getD_packIndices size small hi]

/-! ## B39DEC (R406) -/

theorem unpackInto_of_notInList {idx : List Nat} (above : ∃ x ∈ idx, 2047 < x) (a : Nat) (s : State) :
    unpackInto a idx s = packerError wordNotInList s := by
  rw [unpackInto, if_pos (by simpa using above)]

theorem unpackInto_of_mismatch {idx : List Nat} (inRange : ∀ x ∈ idx, x ≤ 2047) (wrong : checksumOk idx ≠ true)
    (a : Nat) (s : State) : unpackInto a idx s = packerError checksumMismatch s := by
  rw [unpackInto, if_neg (by simpa using inRange), if_neg wrong]

theorem unpackInto_of_valid {idx : List Nat} (inRange : ∀ x ∈ idx, x ≤ 2047) (valid : checksumOk idx = true)
    (a : Nat) (s : State) : unpackInto a idx s = packerDone a (unpackEntropy idx) s := by
  rw [unpackInto, if_neg (by simpa using inRange), if_pos valid]

section

variable {s : State} {rd rs rw : RReg}

theorem exec_b39dec_of_badCount (bad : regNat rw s ∉ wordCounts) (rd rs : RReg) :
    exec (.b39dec rd rs rw) s = .next (packerError mnemonicLengthInvalid s) := by
  rw [exec, execB39dec, if_neg bad]

theorem exec_b39dec_of_fits (legal : regNat rw s ∈ wordCounts) (source : Fits (getReg rs s) (2 * regNat rw s))
    (dest : Fits (getReg rd s) (4 * regNat rw s / 3)) :
    exec (.b39dec rd rs rw) s =
      .next (unpackInto (regNat rd s)
        (halfwordValues (regNat rw s) (memRead (regNat rs s) (2 * regNat rw s) s)) s) := by
  rw [exec, execB39dec, if_pos legal]
  exact withRegions_of_ok (by simpa [Fits] using And.intro source dest) _ s

end

/-- Settles O36: the halfwords read are `h`, and the three ways of `unpackInto` are told apart by the integer of `h`. -/
theorem b39decChecksThenUnpacks : Obligations.B39decChecksThenUnpacks := by
  intro s rd rs rw hpc
  refine ⟨fun bad => .of_packerError hpc (exec_b39dec_of_badCount bad rd rs) (by decide), ?_⟩
  rintro legal source dest h words len cs combined entropy hwords length bytes hlen hcs rfl rfl
  obtain ⟨c, small, hc⟩ := exists_eq_of_mem_wordCounts legal
  obtain rfl : len = 4 * c := by omega
  obtain rfl : c = cs := by omega
  have size : h.length = 3 * c := by omega
  have inside := dest.regNat_add_le
  have ends := exec_b39dec_of_fits legal source dest
  rw [← hwords, ← length, halfwordValues_memRead_eq (by rwa [length])] at ends
  have combined_eq (inRange : ∀ x ∈ h, x ≤ 2047) : natOfBits (combinedBits h) = _ :=
    natOfBits_combinedBits fun x member => Nat.lt_succ_of_le (inRange x member)
  refine ⟨fun above => ?notInList, fun inRange wrong => ?mismatch, fun inRange right => ?valid⟩
  case notInList =>
    rw [unpackInto_of_notInList above] at ends
    exact .of_packerError hpc ends (by decide)
  case mismatch =>
    rw [← combined_eq inRange, ← unpackEntropy_eq_beBytes size, ne_eq, ← checksumOk_iff_mod_eq size small] at wrong
    rw [unpackInto_of_mismatch inRange wrong] at ends
    exact .of_packerError hpc ends (by decide)
  case valid =>
    rw [← combined_eq inRange, ← unpackEntropy_eq_beBytes size] at right ⊢
    rw [unpackInto_of_valid inRange ((checksumOk_iff_mod_eq size small).mpr right)] at ends
    exact .of_packerDone hpc (length_unpackEntropy_of_size size) (by omega) ends

/-! ## B39DEC after B39ENC (R403, R405, R406) -/

/-- What B39DEC does with the index halfwords that the packing rule gave. -/
theorem unpackInto_packIndices {entropy : List Byte} {c : Nat} (size : entropy.length = 4 * c) (small : c ≤ 8)
    (a : Nat) (s : State) : unpackInto a (packIndices entropy) s = packerDone a entropy s := by
  have inRange := lt_of_mem_packIndices size small
  rw [unpackInto_of_valid (fun x member => Nat.le_of_lt_succ (inRange x member)) (checksumOk_packIndices size small),
    unpackEntropy_packIndices size small]

theorem exec_b39dec_of_packed {entropy : List Byte} {c : Nat} {s : State} {rd rs rw : RReg}
    (size : entropy.length = 4 * c) (small : c ≤ 8) (legal : entropy.length ∈ entropyLengths)
    (count : regNat rw s = 3 * c) (source : Fits (getReg rs s) (2 * regNat rw s))
    (dest : Fits (getReg rd s) entropy.length)
    (packed : memRead (regNat rs s) (2 * regNat rw s) s = halfwords (packIndices entropy)) :
    exec (.b39dec rd rs rw) s = .next (packerDone (regNat rd s) entropy s) := by
  have legalCount : regNat rw s ∈ wordCounts := count ▸ mem_wordCounts_of_mem_entropyLengths (size ▸ legal)
  have unpackedSize : 4 * regNat rw s / 3 = entropy.length := by omega
  have words : regNat rw s = (packIndices entropy).length := by rw [length_packIndices_of_size size, count]
  rw [exec_b39dec_of_fits legalCount source (unpackedSize ▸ dest), packed, words,
    halfwordValues_halfwords_of_index (lt_of_mem_packIndices size small), unpackInto_packIndices size small]

/-- Settles O38: B39DEC reads back the halfwords that B39ENC wrote, so it writes the entropy that they were packed from. -/
theorem b39decUndoesB39enc : Obligations.B39decUndoesB39enc := by
  intro s t rd rs rl rd2 rs2 rw _ legal source dest encoded sameRegion counts dest2
  obtain ⟨c, small, hc⟩ := exists_eq_of_mem_entropyLengths legal
  have length : (memRead (regNat rs s) (regNat rl s) s).length = regNat rl s := length_memRead ..
  have size := length.trans hc
  have sameStart : regNat rs2 s = regNat rd s := congrArg BitVec.toNat sameRegion
  have packedLength : 2 * regNat rw s = (halfwords (packIndices (memRead (regNat rs s) (regNat rl s) s))).length := by
    rw [length_halfwords, length_packIndices_of_size size]
    omega
  have written := (Host.Outcome.next.inj ((exec_b39enc_of_fits legal source dest).symm.trans encoded)).symm
  have regs (r : RReg) : getReg r t = getReg r s := by rw [written, getReg_packerDone]
  have nats (r : RReg) : regNat r t = regNat r s := congrArg BitVec.toNat (regs r)
  have packed : memRead (regNat rs2 t) (2 * regNat rw t) t =
      halfwords (packIndices (memRead (regNat rs s) (regNat rl s) s)) := by
    rw [nats, nats, sameStart, packedLength, written, memRead_packerDone]
  have decoded := exec_b39dec_of_packed (rd := rd2) size small (length.symm ▸ legal) (by rw [nats]; omega)
    (by rwa [nats, regs, sameRegion, counts]) (by rwa [regs, length]) packed
  rw [nats] at decoded
  refine ⟨_, decoded, ?_, ?_, packerDone_err .., fun j hj => ?_⟩
  · rw [packerDone_flags]
  · rw [packerDone_flags]
  · rw [dmemByte_packerDone _ _ _ (by rwa [length]), getD_memRead hj]

end Sys2Proof.Machine
end

section
/-! PROOFS. The ports (45_ports.md, R450 to R456): every other instruction does the same whatever the world outside is,
and ENTROPY and PUBK do what the answer that the world supplies says. -/

open Sys2Proof Sys2Proof.Machine

namespace Sys2Proof.Machine

/-- The HSP of `s` in another world outside. -/
def inWorld (e : Env) (s : State) : State := { s with env := e }

/-! ## What the meanings read and write, beside the world outside -/

section InWorld

variable (e : Env) (s : State)

@[simp] theorem inWorld_flags : (inWorld e s).flags = s.flags := rfl
@[simp] theorem getReg_inWorld (r : RReg) : getReg r (inWorld e s) = getReg r s := rfl
@[simp] theorem regNat_inWorld (r : RReg) : regNat r (inWorld e s) = regNat r s := rfl
@[simp] theorem getK_inWorld (k : KReg) : getK k (inWorld e s) = getK k s := rfl
@[simp] theorem scalarNat_inWorld (k : KReg) : scalarNat k (inWorld e s) = scalarNat k s := rfl
@[simp] theorem memRead_inWorld (a n : Nat) : memRead a n (inWorld e s) = memRead a n s := rfl
@[simp] theorem csrValue_inWorld (c : Nat) : csrValue c (inWorld e s) = csrValue c s := rfl

@[simp] theorem setReg_inWorld (r : RReg) (v : Word) : setReg r v (inWorld e s) = inWorld e (setReg r v s) := by
  unfold setReg
  split <;> rfl
@[simp] theorem setK_inWorld (k : KReg) (v : Scalar) : setK k v (inWorld e s) = inWorld e (setK k v s) := rfl
@[simp] theorem setFlags_inWorld (f : Flags) : setFlags f (inWorld e s) = inWorld e (setFlags f s) := rfl
@[simp] theorem setValid_inWorld (b : Bool) : setValid b (inWorld e s) = inWorld e (setValid b s) := rfl
@[simp] theorem setChecked_inWorld (code : Byte) : setChecked code (inWorld e s) = inWorld e (setChecked code s) := rfl
@[simp] theorem memWrite_inWorld (a : Nat) (bs : List Byte) :
    memWrite a bs (inWorld e s) = inWorld e (memWrite a bs s) := rfl

@[simp] theorem goto_inWorld (t : Int) : goto t (inWorld e s) = inWorld e (goto t s) := by
  unfold goto
  split <;> rfl

@[simp] theorem seqNext_inWorld : seqNext (inWorld e s) = inWorld e (seqNext s) := goto_inWorld e s _

@[simp] theorem branchIf_inWorld (taken : Bool) (off : BitVec 16) :
    branchIf taken off (inWorld e s) = inWorld e (branchIf taken off s) := by
  unfold branchIf
  split
  · exact goto_inWorld e s _
  · exact seqNext_inWorld e s

end InWorld

/-! ## The same in every world (R456) -/

/-- In every world outside `run` answers the same next state, and leaves that world as it was. -/
def AlikeInEveryWorld (run : Env → Result) : Prop := ∃ t, ∀ e, run e = .next (inWorld e t)

namespace AlikeInEveryWorld

variable {s : State}

theorem seq (u : State) : AlikeInEveryWorld fun e => .next (seqNext (inWorld e u)) :=
  ⟨seqNext u, fun e => congrArg Host.Outcome.next (seqNext_inWorld e u)⟩

theorem branch {run : Env → Result} (taken : Bool) (off : BitVec 16)
    (h : ∀ e, run e = .next (branchIf taken off (inWorld e s))) : AlikeInEveryWorld run :=
  ⟨branchIf taken off s, fun e => by rw [h, branchIf_inWorld]⟩

theorem regions {rs : List (Word × Nat)} {rest : State → Result} (h : AlikeInEveryWorld fun e => rest (inWorld e s)) :
    AlikeInEveryWorld fun e => withRegions rs rest (inWorld e s) := by
  unfold withRegions
  cases firstBad rs with
  | none => exact h
  | some a => exact ⟨raise .dmemBounds a s, fun _ => rfl⟩

theorem legal {i : Instr} {rest : State → Result} (h : AlikeInEveryWorld fun e => rest (inWorld e s)) :
    AlikeInEveryWorld fun e => ifLegal i rest (inWorld e s) := by
  unfold ifLegal
  split
  · exact h
  · exact ⟨raise .illegalInstruction 0#32 s, fun _ => rfl⟩

/-- A choice that does not depend on the world, though the way it is decided may. -/
theorem choice {c : Prop} {dec : Env → Decidable c} {a b : Env → Result} (ha : AlikeInEveryWorld a)
    (hb : AlikeInEveryWorld b) : AlikeInEveryWorld fun e => @ite _ c (dec e) (a e) (b e) := by
  by_cases h : c
  · simpa only [if_pos h] using ha
  · simpa only [if_neg h] using hb

theorem packerError (code : Byte) : AlikeInEveryWorld fun e => .next (packerError code (inWorld e s)) := by
  simp only [Machine.packerError, setChecked_inWorld, setValid_inWorld]
  exact .seq _

theorem packerDone (a : Nat) (bs : List Byte) :
    AlikeInEveryWorld fun e => .next (packerDone a bs (inWorld e s)) := by
  simp only [Machine.packerDone, memWrite_inWorld, setChecked_inWorld, setValid_inWorld]
  exact .seq _

theorem unpackInto (a : Nat) (idx : List Nat) :
    AlikeInEveryWorld fun e => .next (unpackInto a idx (inWorld e s)) := by
  unfold Machine.unpackInto
  split_ifs
  · exact .packerError _
  · exact .packerDone ..
  · exact .packerError _

end AlikeInEveryWorld

/-- Every instruction but the two of the ports does the same in every world outside. -/
theorem exec_alikeInEveryWorld {i : Instr} (notEntropy : ∀ rd rl, i ≠ .entropy rd rl)
    (notPubk : ∀ rd ks, i ≠ .pubk rd ks) (s : State) : AlikeInEveryWorld fun e => exec i (inWorld e s) := by
  cases i with
  | lui | ori | addi | add | sub =>
    simp only [exec, execLui, execOri, execAddi, execAdd, execSub, getReg_inWorld, setReg_inWorld]
    exact .seq _
  | lb | lw =>
    simp only [exec, execLb, execLw, getReg_inWorld]
    refine .regions ?_
    simp only [memRead_inWorld, setReg_inWorld]
    exact .seq _
  | sb | sw | mcpy | kst | sha256 | sha512 | hmac512 =>
    simp only [exec, execSb, execSw, execMcpy, execKst, execSha256, execSha512, execHmac512, getReg_inWorld,
      regNat_inWorld]
    refine .regions ?_
    simp only [memRead_inWorld, regNat_inWorld, scalarNat_inWorld, memWrite_inWorld]
    exact .seq _
  | beq rs1 rs2 off => exact .branch (decide (regNat rs1 s = regNat rs2 s)) off fun _ => rfl
  | bne rs1 rs2 off => exact .branch (decide (regNat rs1 s ≠ regNat rs2 s)) off fun _ => rfl
  | bltu rs1 rs2 off => exact .branch (decide (regNat rs1 s < regNat rs2 s)) off fun _ => rfl
  | bgeu rs1 rs2 off => exact .branch (decide (regNat rs1 s ≥ regNat rs2 s)) off fun _ => rfl
  | bfs cond off => exact .branch (condFlag cond s.flags) off fun _ => rfl
  | bfc cond off => exact .branch (!condFlag cond s.flags) off fun _ => rfl
  | halt rs => exact ⟨endDone ((getReg rs s).extractLsb' 0 8) s, fun _ => rfl⟩
  | seterr =>
    simp only [exec, execSeterr]
    refine .legal ?_
    simp only [setChecked_inWorld]
    exact .seq _
  | csrr =>
    simp only [exec, execCsrr]
    refine .legal ?_
    simp only [csrValue_inWorld, setReg_inWorld]
    exact .seq _
  | kld =>
    simp only [exec, execKld, getReg_inWorld]
    refine .regions ?_
    simp only [memRead_inWorld, setK_inWorld]
    exact .seq _
  | kldc =>
    simp only [exec, execKldc]
    refine .legal ?_
    simp only [setK_inWorld]
    exact .seq _
  | kmov | kadd | kaddm | kcmp | kchk | kred =>
    simp only [exec, execKmov, execKadd, execKaddm, execKcmp, execKchk, execKred, getK_inWorld, scalarNat_inWorld,
      inWorld_flags, setK_inWorld, setFlags_inWorld]
    exact .seq _
  | pbkdf2 =>
    simp only [exec, execPbkdf2, regNat_inWorld, getReg_inWorld, setChecked_inWorld]
    refine .choice (.seq _) (.regions ?_)
    simp only [memRead_inWorld, regNat_inWorld, memWrite_inWorld, setChecked_inWorld]
    exact .seq _
  | b39enc =>
    simp only [exec, execB39enc, regNat_inWorld, getReg_inWorld]
    refine .choice (.regions ?_) (.packerError _)
    simp only [memRead_inWorld, regNat_inWorld]
    exact .packerDone ..
  | b39dec =>
    simp only [exec, execB39dec, regNat_inWorld, getReg_inWorld]
    refine .choice (.regions ?_) (.packerError _)
    simp only [memRead_inWorld, regNat_inWorld]
    exact .unpackInto ..
  | entropy rd rl => exact absurd rfl (notEntropy rd rl)
  | pubk rd ks => exact absurd rfl (notPubk rd ks)

/-- Settles O41: the one state that the instruction answers in every world, taken in the world of `s` and in `e`. -/
theorem otherInstructionsIgnoreTheWorld : Obligations.OtherInstructionsIgnoreTheWorld := by
  intro i s t e notEntropy notPubk ran
  obtain ⟨u, alike⟩ := exec_alikeInEveryWorld notEntropy notPubk s
  obtain rfl : inWorld s.env u = t := Host.Outcome.next.inj ((alike s.env).symm.trans ran)
  exact ⟨rfl, alike e⟩

/-! ## How a request ends (R450) -/

section Request

variable {s : State} {i : Instr} {e : Env}

/-- Answered bytes fill their region, and the instruction goes on in the world `e` that the look leaves. -/
theorem exists_filled_of_exec {a n : Nat} {bs : List Byte} (hpc : s.pc.toNat < 255) (length : bs.length = n)
    (inside : a + n ≤ 4096) (h : exec i s = .next (seqNext (memWrite a bs (inWorld e s)))) :
    ∃ t, exec i s = .next t ∧ memRead a n t = bs ∧ Frame [] [] a n { s with env := t.env } t ∧ ResultsKept s t ∧
      t.env = e := by
  subst length
  have world := seqNext_env (memWrite a bs (inWorld e s))
  refine ⟨_, h, ?written, ?framed, ⟨seqNext_flags _, seqNext_err _⟩, world⟩
  case written => rw [memRead_seqNext, memRead_memWrite_same]
  case framed =>
    rw [world]
    exact .seqNext (s := inWorld e s) hpc (.memWrite inside) (.memWrite ..) rfl

/-- A failure is a fault of the instruction, in the world `e` that the look leaves. -/
theorem exists_faulted_of_exec {cause : FaultCause} {info : Word}
    (h : exec i s = .next (raise cause info (inWorld e s))) :
    ∃ t, exec i s = .next t ∧ FaultTaken cause (fetchWord s) info s t ∧ t.env = e :=
  ⟨_, h, .raise cause info s, rfl⟩

end Request

/-! ## ENTROPY (R452) -/

section Entropy

variable {s : State} {rd rl : RReg}

theorem exec_entropy_of_zero (zero : regNat rl s = 0) (fits : Fits (getReg rd s) (regNat rl s)) :
    exec (.entropy rd rl) s = .next (seqNext s) := by
  rw [exec, execEntropy, withRegions_of_fits fits, if_pos zero]

/-- The first answer that the world supplies decides, and is used up. -/
theorem exec_entropy_of_supplied {answer : EntropyAnswer} {rest : List EntropyAnswer} (nonzero : regNat rl s ≠ 0)
    (fits : Fits (getReg rd s) (regNat rl s)) (supplied : s.env.entropyIn = answer :: rest) :
    exec (.entropy rd rl) s = entropyFill (regNat rd s) (regNat rl s) answer
      (inWorld { s.env with entropyIn := rest, draws := s.env.draws + 1 } s) := by
  rw [exec_entropy_of_request nonzero fits, entropyAnswer_supplied supplied, entropyLooked, supplied]
  rfl

end Entropy

/-- Settles O39: the three ways of `entropyFill`, for the answer that is first. -/
theorem entropyFillsItsRegion : Obligations.EntropyFillsItsRegion := by
  intro s rd rl hpc fits
  refine ⟨fun zero => ?noRequest, fun nonzero rest => ⟨fun bs length supplied => ?bytes, fun supplied => ?failed,
    fun supplied => ?waiting⟩⟩
  case noRequest =>
    exact ⟨_, exec_entropy_of_zero zero fits, rfl, by simp, seqNext_flags s, seqNext_err s,
      .seqNext hpc (.refl s) (.refl ..) rfl⟩
  all_goals have ends := exec_entropy_of_supplied nonzero fits supplied
  case bytes =>
    rw [entropyFill, if_pos length] at ends
    exact exists_filled_of_exec hpc length fits ends
  case failed => exact exists_faulted_of_exec ends
  case waiting => exact ends

/-! ## PUBK (R454) -/

section Pubk

variable {s : State} {rd : RReg} {ks : KReg}

theorem exec_pubk_of_outOfRange (outside : scalarNat ks s = 0 ∨ Config.curveOrder ≤ scalarNat ks s)
    (fits : Fits (getReg rd s) 33) : exec (.pubk rd ks) s = .next (raise .scalarRange 0#32 s) := by
  rw [exec, execPubk, withRegions_of_fits fits, if_neg (by omega)]

/-- The first answer that the world supplies decides, and is used up. -/
theorem exec_pubk_of_supplied {answer : CurveAnswer} {rest : List CurveAnswer} (fits : Fits (getReg rd s) 33)
    (inRange : 0 < scalarNat ks s ∧ scalarNat ks s < Config.curveOrder) (supplied : s.env.curveIn = answer :: rest) :
    exec (.pubk rd ks) s = .next (curveFill (regNat rd s) (getK ks s) answer
      (inWorld { s.env with curveIn := rest, draws := s.env.draws + 1 } s)) := by
  rw [exec_pubk_of_request fits inRange, curveAnswer_supplied supplied, curveLooked, supplied]
  rfl

end Pubk

/-- Settles O40: the range is checked before the request; then the three ways of `curveFill`, for the answer that is
first. -/
theorem pubkWritesTheCurvePoint : Obligations.PubkWritesTheCurvePoint := by
  intro s rd ks hpc fits
  refine ⟨fun outside => ⟨_, exec_pubk_of_outOfRange outside fits, .raise .., rfl⟩,
    fun inRange rest => ⟨fun supplied => ?point, fun supplied => ?failed, fun supplied => ?waiting⟩⟩
  all_goals have ends := exec_pubk_of_supplied fits inRange supplied
  case point => exact exists_filled_of_exec hpc (Vector.length_toList ..) fits ends
  case failed => exact exists_faulted_of_exec ends
  case waiting => exact ends

end Sys2Proof.Machine
end

section
/-! PROOFS. Faults, aborts and the end of a run (60_exceptions.md, R505 to R539): what starts a run and what ends one, said
once of the engine's turn and of a host access, the boundary at which an abort acts, and the interrupt line. -/

open Sys2Proof Sys2Proof.Machine

namespace Sys2Proof.Machine

/-! ## The moves of the schedule that are the engine's -/

/-- The engine's turn comes where the schedule is empty, and where it names that turn. -/
theorem step_of_engineDue {s : State} {rest : List Move}
    (due : (s.env.inbox = [] ∧ rest = []) ∨ s.env.inbox = .engine :: rest) : step s = engineTurn (setInbox rest s) := by
  rcases due with ⟨empty, rfl⟩ | scheduled
  · have same : setInbox [] s = s := by rw [← empty]; rfl
    rw [step_of_empty empty, same]
  · exact step_of_engineMove scheduled

theorem step_of_boundaryMove {s : State} {rest : List Move} (h : s.env.inbox = .boundary :: rest) :
    step s = .next (passBoundary (setInbox rest s)) := by
  rw [step_of_move h, takeMove]

theorem abortDue_iff {s : State} : abortDue s = true ↔ s.status.abortReq = true ∧ s.inFlight = false := by
  simp [abortDue]

theorem step_of_boundaryMove_idle {s : State} {rest : List Move} (h : s.env.inbox = .boundary :: rest)
    (idle : s.status.busy = false) : step s = .next (setInbox rest s) := by
  rw [step_of_boundaryMove h, passBoundary, if_neg (by simp [idle])]

theorem passBoundary_abort {s : State} (busy : s.status.busy = true) (due : abortDue s = true) :
    passBoundary s = abortEntry s := by
  rw [passBoundary, if_pos busy, if_pos due]

theorem passBoundary_begin {s : State} (busy : s.status.busy = true) (notDue : abortDue s = false) :
    passBoundary s = { s with inFlight := true } := by
  rw [passBoundary, if_pos busy, if_neg (by simp [notDue])]

/-- Settles O6: neither move of the engine changes an idle machine, so that with no move scheduled it is its own next
state. -/
theorem idleMachineKeepsItsState : Obligations.IdleMachineKeepsItsState := by
  intro s idle
  have turn (ms : List Move) : engineTurn (setInbox ms s) = .next (setInbox ms s) := engineTurn_idle idle
  refine ⟨engineTurn_idle idle, fun empty => ?alone, fun rest scheduled => ?moved⟩
  case alone =>
    have fixed : step s = .next s := by rw [step_of_empty empty, engineTurn_idle idle]
    exact ⟨fixed, fun t reached => reached.of_fixed fixed⟩
  case moved =>
    rcases scheduled with engine | boundary
    · exact (step_of_engineMove engine).trans (turn rest)
    · exact step_of_boundaryMove_idle boundary idle

/-! ## What a host access does to BUSY and to IRQ -/

/-- A write to `CTRL` with START makes the machine BUSY, and no write ends a run (R42, R562). -/
theorem writeCtrl_busy (v : Word) (s : State) :
    (writeCtrl v s).status.busy = (s.status.busy || v.getLsbD 0) := by
  obtain ⟨whileBusy, whileIdle, _⟩ := ctrlCommandsActInOrder s v _ _ rfl rfl
  rw [hostWrite_ctrl] at whileBusy whileIdle
  cases busy : s.status.busy with
  | true => rw [whileBusy busy]; exact busy
  | false => rw [(whileIdle busy).1]; rfl

/-- IRQ_CLR clears IRQ, and so do ZEROIZE and START where they are not refused (R42, R525). -/
theorem writeCtrl_irq (v : Word) (s : State) :
    (writeCtrl v s).status.irq =
      (s.status.irq && !v.getLsbD 4 && (s.status.busy || (!v.getLsbD 2 && !v.getLsbD 0))) := by
  obtain ⟨whileBusy, whileIdle, _⟩ := ctrlCommandsActInOrder s v _ _ rfl rfl
  rw [hostWrite_ctrl] at whileBusy whileIdle
  cases busy : s.status.busy with
  | true => rw [whileBusy busy, Bool.true_or, Bool.and_true]
  | false => rw [(whileIdle busy).1, Bool.false_or, ← Bool.and_assoc]

theorem windowPart_eq_csr {off c : Nat} (aligned : off % 4 = 0) (h : windowPart off = .csr c) : off = 4 * c := by
  unfold windowPart at h
  split_ifs at h
  injection h
  omega

/-- Of the writes of the window only one to `CTRL` with START changes BUSY. -/
theorem hostWrite_busy_iff {off : Nat} (aligned : off % 4 = 0) (v : Word) (s : State) :
    (hostWrite off v s).status.busy = true ↔ s.status.busy = true ∨ (off = 4 ∧ v.getLsbD 0 = true) := by
  by_cases isCtrl : off = 4
  · subst isCtrl
    simp [hostWrite_ctrl, writeCtrl_busy]
  · have kept : (hostWrite off v s).status.busy = s.status.busy := by
      unfold hostWrite
      cases hpart : windowPart off with
      | csr c =>
        have notCtrl : c ≠ 1 := by
          rintro rfl
          exact isCtrl (windowPart_eq_csr aligned hpart)
        simp only [if_neg notCtrl, setEntry]
        split_ifs <;> rfl
      | imem i => dsimp only; split_ifs <;> rfl
      | dmem a => dsimp only; split_ifs <;> rfl
      | reserved => rfl
    simp [kept, isCtrl]

/-- A read of the window changes nothing of STATUS but HOSTERR (R104, R525). -/
theorem hostRead_status (off : Nat) (s : State) :
    ∃ hostErr, (hostRead off s).2.status = { s.status with hostErr } := by
  unfold hostRead hostAnswer
  cases windowPart off with
  | csr c => dsimp only; split_ifs <;> exact ⟨s.status.hostErr, rfl⟩
  | imem i =>
    dsimp only
    split_ifs
    · exact ⟨true, rfl⟩
    · exact ⟨s.status.hostErr, rfl⟩
  | dmem a =>
    dsimp only
    split_ifs
    · exact ⟨true, rfl⟩
    · exact ⟨s.status.hostErr, rfl⟩
  | reserved => exact ⟨true, rfl⟩

/-- The bus access is a write to `CTRL` with START. -/
def WritesStart (a : BusAccess) : Prop := a.addr = Config.hspBase + 4 ∧ ∃ v, a.value = some v ∧ v.getLsbD 0 = true

/-- After a host access the machine is BUSY if it was, or if the access was a write of START; no access ends a run. -/
theorem hostAccess_busy_iff {a : BusAccess} {s t : State} (h : hostAccess drawnPc a s = .next t) :
    t.status.busy = true ↔ s.status.busy = true ∨ WritesStart a := by
  unfold hostAccess at h
  cases hwin : windowOffset Config.hspBase a.addr with
  | none =>
    rw [hwin] at h
    obtain rfl := Host.Outcome.next.inj h
    have notStart : ¬WritesStart a := fun start => by
      rw [start.1, windowOffset_window (by decide)] at hwin
      cases hwin
    simp [notStart]
  | some off =>
    obtain ⟨addr, _⟩ := windowOffset_eq_some hwin
    rw [hwin] at h
    simp only [windowAccess] at h
    split_ifs at h with legal
    cases hval : a.value with
    | none =>
      rw [hval] at h
      obtain rfl := Host.Outcome.next.inj h
      obtain ⟨hostErr, status⟩ := hostRead_status off s
      have busyKept : (hostAnswer drawnPc off s).2.status.busy = s.status.busy := congrArg (·.busy) status
      simp [busyKept, WritesStart, hval]
    | some v =>
      rw [hval] at h
      obtain rfl := Host.Outcome.next.inj h
      rw [hostWrite_busy_iff legal.2]
      simp [WritesStart, addr, hval]

/-! ## What the engine's turn does to a run -/

/-- What running the instruction at pc leaves of a run: it is on, its STATUS and fault registers as before, or HALT has
ended it, or a fault, which is not ABORTED. -/
inductive AfterRunning (s t : State) : Prop where
  | goesOn (status : t.status = s.status) (faultRegs : t.faultRegs = s.faultRegs)
  | halted (rs : RReg) (isHalt : decode (fetchWord s) = .ok (.halt rs)) (ran : exec (.halt rs) s = .next t)
  | faulted (u : State) (cause : FaultCause) (info : Word) (w : OwnWrites s u) (recorded : cause ≠ .none)
    (notAborted : cause ≠ .aborted) (ht : t = raise cause info u)

theorem runInstruction_after {s t : State} (h : runInstruction s = .next t) : AfterRunning s t := by
  cases hdec : decode (fetchWord s) with
  | error e =>
    rw [runInstruction_illegal hdec] at h
    exact .faulted s .illegalInstruction 0#32 (.refl s) (by decide) (by decide) (Host.Outcome.next.inj h).symm
  | ok i =>
    rw [runInstruction_legal hdec] at h
    cases exec_ends h with
    | onward u target w ht =>
      rcases goto_cases target u with ⟨_, _, e⟩ | ⟨_, e⟩
      · subst ht
        exact .goesOn (by rw [e, arrive_status, w.status]) (by rw [e, arrive_faultRegs, w.faultRegs])
      · exact .faulted u .pcRange _ w (by decide) (by decide) (ht.trans e)
    | faulted u cause info w _ recorded notAborted ht => exact .faulted u cause info w recorded notAborted ht
    | halted rs isHalt ht => exact .halted rs (isHalt ▸ hdec) (isHalt ▸ h)
    | waiting u w _ ht =>
      subst ht
      exact .goesOn w.status w.faultRegs

/-! ## The end of a run (R520) -/

/-- R520: the run of `s` has ended in `t`, by a HALT at pc as DONE, or by a fault as FAULT. -/
def RunEnded (s t : State) : Prop :=
  t.status.irq = true ∧ t.status.abortReq = false ∧ t.pc = s.pc ∧
    ((t.status.done = true ∧ t.status.fault = false ∧ ∃ rs, decode (fetchWord s) = .ok (.halt rs) ∧
        t.exitCode.toNat = regNat rs s % 256) ∨
      (t.status.fault = true ∧ t.status.done = false ∧ t.faultRegs.cause ≠ .none ∧ t.exitCode = 0#8))

namespace RunEnded

variable {s t : State}

/-- A fault ends a run as FAULT, after whatever the instruction has written. -/
theorem of_faultEntry {u : State} {cause : FaultCause} (inv : Inv s) (busy : s.status.busy = true) (w : OwnWrites s u)
    (recorded : cause ≠ .none) (insn info : Word) : RunEnded s (faultEntry cause insn info u) := by
  have notDone : u.status.done = false := by rw [w.status, inv.done_eq_false busy]
  have noExit : u.exitCode = 0#8 := by rw [w.exitCode, inv.exitCode_eq_zero busy]
  exact ⟨rfl, rfl, w.pc, .inr ⟨rfl, notDone, recorded, noExit⟩⟩

/-- HALT ends a run as DONE. -/
theorem of_halt {rs : RReg} (inv : Inv s) (busy : s.status.busy = true) (isHalt : decode (fetchWord s) = .ok (.halt rs))
    (ran : exec (.halt rs) s = .next t) : RunEnded s t := by
  obtain ⟨u, ran', status, exitCode, pc, _⟩ := haltEndsTheRunAsDone s rs
  obtain rfl := Host.Outcome.next.inj (ran'.symm.trans ran)
  have notFault : u.status.fault = false := by rw [status]; exact inv.fault_eq_false busy
  exact ⟨by rw [status], by rw [status], pc, .inl ⟨by rw [status], notFault, rs, isHalt, exitCode⟩⟩

theorem of_abort (inv : Inv s) (busy : s.status.busy = true) : RunEnded s (abortEntry s) :=
  of_faultEntry inv busy (.refl s) (by decide) _ _

theorem of_engineTurn (inv : Inv s) (busy : s.status.busy = true) (turn : engineTurn s = .next t)
    (fell : t.status.busy = false) : RunEnded s t := by
  cases due : abortDue s with
  | true =>
    rw [engineTurn_abort busy due] at turn
    obtain rfl := Host.Outcome.next.inj turn
    exact .of_abort inv busy
  | false =>
    rw [engineTurn_run busy due] at turn
    cases runInstruction_after turn with
    | goesOn status _ => simp [status, busy] at fell
    | halted rs isHalt ran => exact .of_halt inv busy isHalt ran
    | faulted u cause info w recorded _ ht =>
      subst ht
      exact .of_faultEntry inv busy w recorded _ info

theorem of_passBoundary (inv : Inv s) (busy : s.status.busy = true) (fell : (passBoundary s).status.busy = false) :
    RunEnded s (passBoundary s) := by
  cases due : abortDue s with
  | true =>
    rw [passBoundary_abort busy due]
    exact .of_abort inv busy
  | false =>
    rw [passBoundary_begin busy due] at fell
    simp [busy] at fell

end RunEnded

/-- Settles O44, by the move that the step is: a host access ends no run, and the engine's turn and the boundary move end
one only by a HALT at pc or by fault entry. -/
theorem aRunEndsByHaltOrFaultOnly : Obligations.ARunEndsByHaltOrFaultOnly := by
  intro s t inv noReset hstep busy fell
  have ended (rest : List Move) (h : RunEnded (setInbox rest s) t) : RunEnded s t := h
  have inv' (rest : List Move) : Inv (setInbox rest s) := inv.setInbox rest
  cases hbox : s.env.inbox with
  | nil =>
    rw [step_of_empty hbox] at hstep
    exact RunEnded.of_engineTurn inv busy hstep fell
  | cons m rest =>
    cases m with
    | engine =>
      rw [step_of_engineMove hbox] at hstep
      exact ended rest (.of_engineTurn (inv' rest) busy hstep fell)
    | boundary =>
      rw [step_of_boundaryMove hbox] at hstep
      obtain rfl := Host.Outcome.next.inj hstep
      exact ended rest (.of_passBoundary (inv' rest) busy fell)
    | reset => exact absurd hbox (noReset rest)
    | host a =>
      rw [step_of_hostMove hbox] at hstep
      have stillBusy : t.status.busy = true := (hostAccess_busy_iff hstep).mpr (.inl busy)
      simp [stillBusy] at fell

/-! ## Fault entry, and what makes an idle machine BUSY (R510) -/

/-- From an idle state a step makes the machine BUSY only by a host's write of START. -/
theorem step_starts {s t : State} (idle : s.status.busy = false) (hstep : step s = .next t)
    (started : t.status.busy = true) : ∃ a rest, s.env.inbox = .host a :: rest ∧ WritesStart a := by
  have notSame (rest : List Move) : t ≠ setInbox rest s := by
    rintro rfl
    simp [idle] at started
  cases hbox : s.env.inbox with
  | nil =>
    rw [step_of_empty hbox, engineTurn_idle idle] at hstep
    exact absurd (Host.Outcome.next.inj hstep).symm (notSame s.env.inbox)
  | cons m rest =>
    have idle' : (setInbox rest s).status.busy = false := idle
    cases m with
    | engine =>
      rw [step_of_engineMove hbox, engineTurn_idle idle'] at hstep
      exact absurd (Host.Outcome.next.inj hstep).symm (notSame rest)
    | boundary =>
      rw [step_of_boundaryMove_idle hbox idle] at hstep
      exact absurd (Host.Outcome.next.inj hstep).symm (notSame rest)
    | reset =>
      rw [step_of_move hbox, takeMove] at hstep
      obtain rfl := Host.Outcome.next.inj hstep
      cases started
    | host a =>
      rw [step_of_hostMove hbox] at hstep
      have start : WritesStart a := ((hostAccess_busy_iff hstep).mp started).resolve_left (by simp [idle])
      exact ⟨a, rest, rfl, start⟩

/-- Settles O42: fault entry field by field, its registers as the host's reads of them show, the idle turns that follow by
`idleMachineKeepsItsState`, and the START that ends them by `step_starts`. -/
theorem faultEntryEndsTheRun : Obligations.FaultEntryEndsTheRun := by
  refine ⟨fun s cause info => ?entry, fun s t idle hstep started => ?start⟩
  case entry =>
    have shown (c : FaultCause) := hostReadsShowTheCsrsAndReadOnlyWritesAreIgnored (raise c info s)
    obtain ⟨_, _, _, _, _, _, _, readPc, readInsn, readInfo, _⟩ := shown cause
    obtain ⟨turn, alone, scheduled⟩ := idleMachineKeepsItsState (raise cause info s) rfl
    refine ⟨.raise .., .abortEntry s, rfl, rfl, fun inv busy => inv.exitCode_eq_zero busy, fun p hp => ?code,
      congrArg Prod.fst readPc, congrArg Prod.fst readInsn, congrArg Prod.fst readInfo, turn, fun empty => (alone empty).1,
      fun rest engine => scheduled rest (.inl engine)⟩
    case code =>
      obtain ⟨_, _, _, _, _, _, readCause, _⟩ := shown p.1
      rw [readCause p (.tail _ hp) rfl]
  case start =>
    obtain ⟨a, rest, scheduled, addr, v, value, start⟩ := step_starts idle hstep started
    exact ⟨a, rest, v, scheduled, addr, value, start⟩

/-! ## ABORT (R515) -/

/-- A write to `CTRL` of ABORT and no other command. -/
theorem writeCtrl_abort {v : Word} (abort : v.getLsbD 1 = true) (noStart : v.getLsbD 0 = false)
    (noZeroize : v.getLsbD 2 = false) (noIrqClr : v.getLsbD 4 = false) (noHostErrClr : v.getLsbD 5 = false) (s : State) :
    writeCtrl v s =
      { s with ie := v.getLsbD 3, status := { s.status with abortReq := s.status.abortReq || s.status.busy } } := by
  cases busy : s.status.busy with
  | true =>
    simp only [writeCtrl_of_busy busy, abort, noStart, noZeroize, noIrqClr, noHostErrClr, Bool.not_false, Bool.and_true,
      Bool.or_false, Bool.or_true]
  | false =>
    rw [writeCtrl_of_idle busy, onBit_of_clear noZeroize, onBit_of_clear noStart, ctrlStored]
    simp only [noIrqClr, noHostErrClr, Bool.not_false, Bool.and_true, Bool.or_false]

/-- In an instruction that has begun an abort request stands while the run is on, and the fault that ends the run is not
ABORTED. -/
theorem AfterRunning.abort_stands {s t : State} (after : AfterRunning s t) (busy : s.status.busy = true)
    (request : s.status.abortReq = true) :
    t.status.abortReq = t.status.busy ∧ (t.faultRegs.cause = .aborted → s.faultRegs.cause = .aborted) := by
  cases after with
  | goesOn status faultRegs => exact ⟨by rw [status, request, busy], fun aborted => faultRegs ▸ aborted⟩
  | halted rs _ ran =>
    obtain rfl := Host.Outcome.next.inj ran
    exact ⟨rfl, id⟩
  | faulted u cause info _ _ notAborted ht =>
    subst ht
    exact ⟨rfl, fun aborted => absurd aborted notAborted⟩

/-- ABORTED is taken at the state itself, whatever is left of the schedule. -/
theorem faultTaken_abortEntry_setInbox (rest : List Move) (s : State) :
    FaultTaken .aborted 0#32 0#32 s (abortEntry (setInbox rest s)) ∧
      (abortEntry (setInbox rest s)).env = { s.env with inbox := rest } :=
  ⟨.abortEntry (setInbox rest s), rfl⟩

/-- Settles O43: the write by its command bits; the engine's turn by whether an instruction has begun; the boundary move by
the same test. -/
theorem abortActsAtABoundaryOnly : Obligations.AbortActsAtABoundaryOnly := by
  refine ⟨fun s v abort noStart noZeroize noIrqClr noHostErrClr =>
      writeCtrl_abort abort noStart noZeroize noIrqClr noHostErrClr s,
    fun s rest due busy request => ⟨fun atBoundary => ?turnAtBoundary, fun begun => ?turnInInstruction⟩,
    fun s rest scheduled => ⟨fun busy request atBoundary => ?boundaryAbort, fun runs => ?boundaryBegin, fun idle => ?idle⟩⟩
  case turnAtBoundary =>
    have abortNow : abortDue (setInbox rest s) = true := abortDue_iff.mpr ⟨request, atBoundary⟩
    exact ⟨_, (step_of_engineDue due).trans (engineTurn_abort busy abortNow), faultTaken_abortEntry_setInbox rest s⟩
  case turnInInstruction =>
    have runs : RunsNow (setInbox rest s) := ⟨busy, .inr begun⟩
    refine ⟨fun i hi => (step_of_engineDue due).trans (engineTurn_eq_exec runs hi), fun t hstep => ?_⟩
    rw [step_of_engineDue due, engineTurn_run (s := setInbox rest s) busy runs.abortDue_eq_false] at hstep
    exact (runInstruction_after hstep).abort_stands busy request
  case boundaryAbort =>
    have abortNow : abortDue (setInbox rest s) = true := abortDue_iff.mpr ⟨request, atBoundary⟩
    rw [step_of_boundaryMove scheduled, passBoundary_abort (s := setInbox rest s) busy abortNow]
    exact ⟨_, rfl, faultTaken_abortEntry_setInbox rest s⟩
  case boundaryBegin =>
    have notDue : abortDue (setInbox rest s) = false := runs.abortDue_eq_false
    rw [step_of_boundaryMove scheduled, passBoundary_begin (s := setInbox rest s) runs.1 notDue]
    rfl
  case idle => exact step_of_boundaryMove_idle scheduled idle

/-! ## The interrupt line (R525) -/

/-- Settles O45: what a write to `CTRL` leaves of IRQ, by its command bits; a read changes only HOSTERR of STATUS. -/
theorem irqLineFollowsIrqAndIe : Obligations.IrqLineFollowsIrqAndIe := by
  intro s v off cause insn info code
  refine ⟨rfl, rfl, rfl, fun noStart noZeroize => ⟨?kept, writeCtrl_ie v s⟩, fun idle command => ?cleared, rfl, ?read⟩
  case kept =>
    rw [hostWrite_ctrl, writeCtrl_irq, noStart, noZeroize, Bool.not_false, Bool.and_true, Bool.or_true, Bool.and_true]
  case cleared => rcases command with start | zeroize <;> simp [hostWrite_ctrl, writeCtrl_irq, *]
  case read =>
    obtain ⟨hostErr, status⟩ := hostRead_status off s
    rw [status]

end Sys2Proof.Machine
end

section
/-! PROOFS. START and ZEROIZE (70_reset_and_hazards.md, R562, R563): refused while BUSY, and what each does while idle where
the `CTRL` write holds no other command. -/

open Sys2Proof Sys2Proof.Machine

namespace Sys2Proof.Machine

/-! ## A `CTRL` write with no other command than START and ZEROIZE -/

/-- Without IRQ_CLR and HOSTERR_CLR the first commands of a `CTRL` write leave STATUS alone. -/
theorem ctrlStored_of_noClear {v : Word} (noIrqClr : v.getLsbD 4 = false) (noHostErrClr : v.getLsbD 5 = false)
    (s : State) : ctrlStored v s = setIe (v.getLsbD 3) s := by
  rw [ctrlStored, setIe]
  simp only [noIrqClr, noHostErrClr, Bool.not_false, Bool.and_true]

/-- While BUSY START and ZEROIZE are refused: beside IE, which every `CTRL` write stores, HOSTERR alone changes (R512). -/
theorem writeCtrl_refused {s : State} (busy : s.status.busy = true) {v : Word}
    (command : v.getLsbD 2 = true ∨ v.getLsbD 0 = true) (noAbort : v.getLsbD 1 = false) (noIrqClr : v.getLsbD 4 = false)
    (noHostErrClr : v.getLsbD 5 = false) :
    writeCtrl v s = { s with ie := v.getLsbD 3, status := { s.status with hostErr := true } } := by
  have latched : (s.status.hostErr || v.getLsbD 2 || v.getLsbD 0) = true := by
    rcases command with zeroize | start
    · rw [zeroize, Bool.or_true, Bool.true_or]
    · rw [start, Bool.or_true]
  rw [writeCtrl_of_busy busy]
  simp only [noAbort, noIrqClr, noHostErrClr, Bool.not_false, Bool.and_true, Bool.or_false, latched]

theorem writeCtrl_startAlone {s : State} (idle : s.status.busy = false) {v : Word} (start : v.getLsbD 0 = true)
    (noZeroize : v.getLsbD 2 = false) (noIrqClr : v.getLsbD 4 = false) (noHostErrClr : v.getLsbD 5 = false) :
    writeCtrl v s = startRun (setIe (v.getLsbD 3) s) := by
  rw [writeCtrl_of_idle idle, onBit_of_set start, onBit_of_clear noZeroize, ctrlStored_of_noClear noIrqClr noHostErrClr]

theorem writeCtrl_zeroizeAlone {s : State} (idle : s.status.busy = false) {v : Word} (zero : v.getLsbD 2 = true)
    (noStart : v.getLsbD 0 = false) (noIrqClr : v.getLsbD 4 = false) (noHostErrClr : v.getLsbD 5 = false) :
    writeCtrl v s = zeroize (setIe (v.getLsbD 3) s) := by
  rw [writeCtrl_of_idle idle, onBit_of_clear noStart, onBit_of_set zero, ctrlStored_of_noClear noIrqClr noHostErrClr]

/-! ## START (R562) -/

/-- A run that START has begun has its first instruction due: it is BUSY, with no abort latched. -/
theorem runsNow_startRun {s : State} (idle : s.status.busy = false) : RunsNow (startRun s) := by
  rw [startRun_of_idle idle]
  exact ⟨rfl, .inl rfl⟩

/-- The first word of a run is the word of IMEM at ENTRY. -/
theorem fetchWord_startRun {s : State} (idle : s.status.busy = false) :
    fetchWord (startRun s) = imemWord s s.entry.toNat := by
  rw [startRun_of_idle idle]
  rfl

theorem startRun_inbox {s : State} (idle : s.status.busy = false) : (startRun s).env.inbox = s.env.inbox := by
  rw [startRun_of_idle idle]

/-- With no move scheduled, the first step of a run is the instruction at ENTRY. -/
theorem step_startRun {s : State} (idle : s.status.busy = false) (alone : s.env.inbox = []) {i : Instr}
    (atEntry : decode (imemWord s s.entry.toNat) = .ok i) : step (startRun s) = exec i (startRun s) :=
  (stepRunsTheDecodedInstruction (startRun s) i (runsNow_startRun idle) (by rw [fetchWord_startRun idle, atEntry])).1
    ((startRun_inbox idle).trans alone)

/-- START keeps R0..R15, K0..K7 and DMEM. -/
theorem dataKept_startRun {s : State} (idle : s.status.busy = false) : DataKept [] [] 0 0 s (startRun s) := by
  rw [startRun_of_idle idle]
  exact .of_fields rfl rfl rfl ..

/-- Settles O56: BUSY, the refusal; idle, the fields of the state that START leaves, and then the first step of the run. -/
theorem startBeginsARunAtEntry : Obligations.StartBeginsARunAtEntry := by
  intro s v start noAbort noZeroize noIrqClr noHostErrClr
  rw [hostWrite_ctrl]
  refine ⟨fun busy => writeCtrl_refused busy (.inr start) noAbort noIrqClr noHostErrClr, fun idle => ?idle⟩
  case idle =>
    have stillIdle : (setIe (v.getLsbD 3) s).status.busy = false := idle
    rw [writeCtrl_startAlone idle start noZeroize noIrqClr noHostErrClr]
    have kept : DataKept [] [] 0 0 s (startRun (setIe (v.getLsbD 3) s)) :=
      (DataKept.of_fields rfl rfl rfl ..).trans (dataKept_startRun stillIdle)
    have firstStep (alone : s.env.inbox = []) (i : Instr) (atEntry : decode (imemWord s s.entry.toNat) = .ok i) :
        step (startRun (setIe (v.getLsbD 3) s)) = exec i (startRun (setIe (v.getLsbD 3) s)) :=
      step_startRun stillIdle alone atEntry
    rw [startRun_of_idle stillIdle] at kept firstStep ⊢
    exact ⟨rfl, rfl, rfl, rfl, rfl, rfl, rfl, rfl, rfl, kept, fun _ => rfl, firstStep⟩

/-! ## ZEROIZE (R563) -/

/-- Every general register is 0 after ZEROIZE, R0 among them. -/
theorem getReg_zeroize {s : State} (idle : s.status.busy = false) (r : RReg) : getReg r (zeroize s) = 0#32 := by
  rw [zeroize_of_idle idle]
  simp [getReg, Vector.get_eq_getElem]

theorem getK_zeroize {s : State} (idle : s.status.busy = false) (k : KReg) : getK k (zeroize s) = 0#256 := by
  rw [zeroize_of_idle idle]
  simp [getK, Vector.get_eq_getElem]

theorem dmemByte_zeroize {s : State} (idle : s.status.busy = false) (a : Nat) : dmemByte (zeroize s) a = 0#8 := by
  rw [zeroize_of_idle idle]
  rfl

/-- Settles O57: BUSY, the refusal; idle, the registers and memories by the reads of them, the other fields of the state
that ZEROIZE leaves one by one. -/
theorem zeroizeClearsKeyMaterial : Obligations.ZeroizeClearsKeyMaterial := by
  intro s v zero noStart noAbort noIrqClr noHostErrClr
  rw [hostWrite_ctrl]
  refine ⟨fun busy => writeCtrl_refused busy (.inl zero) noAbort noIrqClr noHostErrClr, fun idle => ?idle⟩
  case idle =>
    have stillIdle : (setIe (v.getLsbD 3) s).status.busy = false := idle
    rw [writeCtrl_zeroizeAlone idle zero noStart noIrqClr noHostErrClr]
    refine ⟨dmemByte_zeroize stillIdle, getReg_zeroize stillIdle, getK_zeroize stillIdle, ?_⟩
    rw [zeroize_of_idle stillIdle]
    exact ⟨rfl, rfl, rfl, rfl, rfl, rfl, fun _ => rfl, rfl, rfl⟩

end Sys2Proof.Machine
end
